-- ==== Sys2Proof/Word.lean ====
section
/-! DEFINITION. The word types of RT0013-PE and the two channels (spec/00_scope.md R10, R11, R19). -/

namespace Sys2Proof

/-- An unsigned 8-bit integer, `u8` (R11). -/
abbrev Byte := BitVec 8

/-- An unsigned 16-bit integer, `u16`: a register, a register address, a 16-bit field of the mailbox (R10, R11). -/
abbrev Word := BitVec 16

/-- The two measurement channels (R17, R19). -/
inductive Channel where
  /-- TEMPERATURE, `ch` = 0 on the host port (30_encoding.md R100, D15). -/
  | temperature
  /-- HUMIDITY, `ch` = 1. -/
  | humidity
  deriving DecidableEq, Repr, Inhabited

end Sys2Proof
end

