-- ==== Sys2Proof/Config.lean ====
section
/-! DEFINITION. What an implementation of RT0013-PE fixes (the open parameters of spec/00_scope.md R9) and what stays
free: the parameters themselves, the transport's and the firmware's behaviour, and how a sample count is read. -/

namespace Sys2Proof

/-- The register-map parameters of one channel (00_scope.md R9, 92_eei_decisions.md D22). -/
structure ChannelMap where
  /-- `LOG_BASE[ch]`: first word address of the channel's log area. -/
  logBase : Word
  /-- `LOG_LEN[ch]`: words in the channel's log area. -/
  logLen : Nat
  /-- `BIN_FLAGS_ADDR[ch][0..5]`: the six enable-flags registers, bin 0 first. -/
  binFlags : List Word
  /-- The six high-limit registers, bin 0 first (10_state.md R36). -/
  highLimit : List Word
  /-- The six sample-time registers (R36). -/
  sampleTime : List Word
  /-- The six threshold registers (R36). -/
  threshold : List Word
  /-- The six counter registers (R36). -/
  counter : List Word
  /-- The registers `SampleCount(ch)` reads, in order (assumption 19). -/
  countRegs : List Word
  /-- What `SampleCount(ch)` makes of the words those registers hold, as far as it is bound (assumption 19). -/
  counts : List (List Word × Int)
  deriving DecidableEq, Repr, Inhabited

/-- The register map's entries that belong to no channel (10_state.md R36), and the bits the source says are named within
the control, status and enable registers without naming them (91_not_in_source.md N4). -/
structure TagMap where
  revision : Word
  control : Word
  status : Word
  samplingDelay : Word
  /-- The "dates" registers: R36 and 91_not_in_source.md N8 name them in the plural and give no number. DESIGN CHOICE
  (assumption 34): one address. -/
  dates : Word
  eta : Word
  /-- First word of the user-defined byte area (R36, R40), of which the spec gives no length and the model keeps none
  (DESIGN CHOICE, assumption 34). -/
  userArea : Word
  /-- Named bits of the control register. -/
  controlBits : List (String × Fin 16)
  /-- Named bits of the status register. -/
  statusBits : List (String × Fin 16)
  /-- Named bits of the enable-flags registers beside `TIME_STORE` and `SAMPLE_STORE`. -/
  enableBits : List (String × Fin 16)
  deriving DecidableEq, Repr, Inhabited

/-- The open parameters of 00_scope.md R9. -/
structure Params where
  /-- `MI_BANK`: the bank that holds the mailbox (D2). -/
  miBank : Byte
  /-- `MI_BASE`: byte offset of the mailbox (D2). -/
  miBase : Word
  /-- `TRIG_BANK` (D3). -/
  trigBank : Byte
  /-- `TRIG_OFFSET` (D3). -/
  trigOffset : Word
  /-- `CMD_READ` (D4). -/
  cmdRead : Byte
  /-- `CMD_WRITE` (D4). -/
  cmdWrite : Byte
  /-- `TIME_STORE_BIT` (D22). -/
  timeStoreBit : Fin 16
  /-- `SAMPLE_STORE_BIT` (D22). -/
  sampleStoreBit : Fin 16
  /-- The register map of TEMPERATURE. -/
  temperature : ChannelMap
  /-- The register map of HUMIDITY. -/
  humidity : ChannelMap
  /-- The rest of the register map (R9, 91_not_in_source.md N4). -/
  registers : TagMap
  /-- `TS_EPOCH`: the instant of timestamp 0, in seconds on the host's time line (D19). -/
  tsEpoch : Rat
  /-- `TS_UNIT`: the duration of one timestamp unit, in seconds (D19). -/
  tsUnit : Rat
  deriving DecidableEq, Repr, Inhabited

/-- The register map of one channel. -/
def Params.map (p : Params) : Channel → ChannelMap
  | .temperature => p.temperature
  | .humidity => p.humidity

/-- The kinds of register a bin has: "one register each, indexed 0..5" (10_state.md R36). -/
inductive BinRegister where
  | enableFlags | highLimit | sampleTime | threshold | counter
  deriving DecidableEq, Repr

/-- The registers the source names (R36). -/
inductive RegisterName where
  | revision | control | status | samplingDelay | dates | eta | userArea
  | bin (ch : Channel) (register : BinRegister) (i : Fin 6)
  | logArea (ch : Channel)
  deriving DecidableEq, Repr

/-- A channel's six registers of one kind. -/
def ChannelMap.bins (m : ChannelMap) : BinRegister → List Word
  | .enableFlags => m.binFlags
  | .highLimit => m.highLimit
  | .sampleTime => m.sampleTime
  | .threshold => m.threshold
  | .counter => m.counter

/-- The register map as a table: the address of every named register, an area by its first word. It is constant data
with "no behavior beyond lookup" (R36). -/
def Params.address (p : Params) : RegisterName → Word
  | .revision => p.registers.revision
  | .control => p.registers.control
  | .status => p.registers.status
  | .samplingDelay => p.registers.samplingDelay
  | .dates => p.registers.dates
  | .eta => p.registers.eta
  | .userArea => p.registers.userArea
  | .bin ch register i => ((p.map ch).bins register).getD i.val 0
  | .logArea ch => (p.map ch).logBase

/-- The instant a timestamp names, by the open `TS_EPOCH` and `TS_UNIT` (R9, D19). No rule computes with it: a point keeps
the raw `u32` (30_encoding.md R96). -/
def Params.instant (p : Params) (timestamp : BitVec 32) : Rat := p.tsEpoch + timestamp.toNat * p.tsUnit

/-- Whether a register lies in a channel's log area (10_state.md R39). -/
def ChannelMap.inLogArea (m : ChannelMap) (addr : Nat) : Bool :=
  decide (m.logBase.toNat ≤ addr) && decide (addr < m.logBase.toNat + m.logLen)

/-- Whether a register lies in a log area. -/
def Params.inLogArea (p : Params) (addr : Nat) : Bool := p.temperature.inLogArea addr || p.humidity.inLogArea addr

/-- An address of the register space (00_scope.md R10). -/
def inRegisterSpace (a : Word) : Bool := decide (a.toNat ≤ 0x1089)

/-- A channel's map names registers of the register space only, and one register of each kind per bin (R9, R36, R39). -/
def ChannelMap.valid (m : ChannelMap) : Bool :=
  m.binFlags.length == 6 && m.binFlags.all inRegisterSpace && m.countRegs.all inRegisterSpace &&
    decide (m.logBase.toNat + m.logLen ≤ 0x108A) &&
    [m.highLimit, m.sampleTime, m.threshold, m.counter].all (fun l => l.length == 6 && l.all inRegisterSpace)

/-- The other named registers lie in the register space (R36). -/
def TagMap.valid (m : TagMap) : Bool :=
  [m.revision, m.control, m.status, m.samplingDelay, m.dates, m.eta, m.userArea].all inRegisterSpace

/-- The constraints the spec puts on the parameters: the mailbox fits its bank (20_memory.md R57), the trigger
location is confined to one bank and does not overlap the mailbox (R58), the two command codes differ (R9). DESIGN CHOICE
(assumption 35): where the spec gives no position, none is excluded, so `TIME_STORE` and `SAMPLE_STORE` may be one bit and two
named registers or areas may share addresses. -/
def Params.valid (p : Params) : Bool :=
  decide (p.miBase.toNat + 407 ≤ 0xFFFF) && decide (p.trigOffset.toNat + 3 ≤ 0xFFFF) &&
    (p.trigBank != p.miBank || decide (p.trigOffset.toNat + 3 < p.miBase.toNat) ||
      decide (p.miBase.toNat + 407 < p.trigOffset.toNat)) &&
    p.cmdRead != p.cmdWrite && p.temperature.valid && p.humidity.valid && p.registers.valid

/-- The fixture of 95_test_vectors.md section 1, with a made-up register map. It is no fact about any tag: it serves
the tests, and stands in for a free choice that breaks the spec's constraints. -/
def Config.fixtureParams : Params where
  miBank := 3
  miBase := 0
  trigBank := 2
  trigOffset := 0
  cmdRead := 0x01
  cmdWrite := 0x02
  timeStoreBit := 0
  sampleStoreBit := 1
  temperature :=
    { logBase := 0x0100, logLen := 8, binFlags := [0x30, 0x31, 0x32, 0x33, 0x34, 0x35], countRegs := [0x36]
      counts := [([5], 5)], highLimit := [0x50, 0x51, 0x52, 0x53, 0x54, 0x55]
      sampleTime := [0x56, 0x57, 0x58, 0x59, 0x5A, 0x5B], threshold := [0x5C, 0x5D, 0x5E, 0x5F, 0x60, 0x61]
      counter := [0x62, 0x63, 0x64, 0x65, 0x66, 0x67] }
  humidity :=
    { logBase := 0x0200, logLen := 6, binFlags := [0x40, 0x41, 0x42, 0x43, 0x44, 0x45], countRegs := [0x46]
      counts := [], highLimit := [0x70, 0x71, 0x72, 0x73, 0x74, 0x75]
      sampleTime := [0x76, 0x77, 0x78, 0x79, 0x7A, 0x7B], threshold := [0x7C, 0x7D, 0x7E, 0x7F, 0x80, 0x81]
      counter := [0x82, 0x83, 0x84, 0x85, 0x86, 0x87] }
  registers :=
    { revision := 0x00, control := 0x01, status := 0x02, samplingDelay := 0x03, dates := 0x04, eta := 0x06
      userArea := 0x1000, controlBits := [], statusBits := [], enableBits := [] }
  tsEpoch := 0
  tsUnit := 1

/-- The parameters the platform fixes, unconstrained. -/
opaque Config.freeParams : Params

/-- The parameters after reset: any choice that meets the spec's constraints (assumption 4). -/
def Config.params : Params :=
  if Config.freeParams.valid then Config.freeParams else Config.fixtureParams

/-- One thing the tag's firmware does between two transport transactions. The environment may do any of them in any
number (20_memory.md R50, R66; 93_implementation_defined.md U7, U10, U20). -/
inductive TagAction where
  /-- Writes one byte of bank memory, whatever it is. -/
  | poke (bank : Byte) (offset : Word) (value : Byte)
  /-- Changes one of the tag's registers (10_state.md R35). -/
  | setReg (address : Word) (value : Word)
  /-- Finishes the triggered command and answers with this id byte and this code byte (20_memory.md R66). -/
  | run (id code : Byte)
  deriving DecidableEq, Repr

/-- What the environment contributes to one transport transaction (assumption 5). -/
structure EnvEvent where
  /-- What the firmware does before the transaction takes place. -/
  tag : List TagAction
  /-- Whether the transport completes the transaction (20_memory.md R52, R53). -/
  ok : Bool
  /-- A failed `MemWrite`: the first bytes of its range as they stand after it (R53, U9). -/
  landed : List Byte
  /-- A failed trigger read: whether the tag took the trigger all the same (70_reset_and_hazards.md R247). -/
  reached : Bool
  deriving DecidableEq, Repr, Inhabited

/-- The events of a run whose script has ended, by the number of events taken before: free values. -/
opaque Config.freeEvent : Nat → EnvEvent

/-- `SampleCount(ch)` as a function of the words its registers hold, where the map does not bind it: a free value (R9,
D22). -/
opaque Config.freeSampleCount : Channel → List Word → Int

/-- `SampleCount(ch)` of the words its registers hold (R9, D22; assumption 19). -/
def Params.sampleCount (p : Params) (ch : Channel) (ws : List Word) : Int :=
  match (p.map ch).counts.find? (fun c => c.1 == ws) with
  | some c => c.2
  | none => Config.freeSampleCount ch ws

end Sys2Proof
end

