-- ==== Sys2Proof/Syntax.lean ====
section
/-! DEFINITION. The instructions of RT0013-PE, one constructor per row of spec/opcode_table.json, the operand lines of
the host port, and the frames an instruction is encoded in (spec/30_encoding.md R80, R100). -/

namespace Sys2Proof

/-- A real operand of `ENC` and `VALID`. The rules are over the reals (40_codec.md R111); a float port also
carries the three values that are no reals (93_implementation_defined.md U5). -/
inductive HostReal where
  /-- A real, as an exact rational (assumption 18). -/
  | real (q : Rat)
  | posInf
  | negInf
  | nan
  deriving DecidableEq, Repr

/-- The attempt a `RETRY` repeats: an `HS.RD` or an `HS.WR` with fixed operands (42_transfer_retry.md R151). -/
inductive AttemptOp where
  | rd (a n : Word)
  | wr (a n : Word) (data : List Byte)
  deriving DecidableEq, Repr

/-- The instructions: the host operations, the two attempts, the two reply words and the three internal steps. -/
inductive Instr where
  /-- `NOP` (30_encoding.md R101). -/
  | nop
  /-- `XFER.RD B, Lb` (42_transfer_retry.md R152). -/
  | xferRd (B Lb : Word)
  /-- `XFER.WR B, Lb, data` (R153). -/
  | xferWr (B Lb : Word) (data : List Byte)
  /-- `GET address` (43_register_cache.md R166). -/
  | get (address : Word)
  /-- `SET address, value` (R167). -/
  | set (address value : Word)
  /-- `PREFETCH` (R168). -/
  | prefetch
  /-- `CRESET` (R169). -/
  | creset
  /-- `DECLOG ch` (44_log_decoder.md R191). -/
  | declog (ch : Channel)
  /-- `DEC ch, mode, count, W` (R190); `L` is the length of `W`. -/
  | dec (ch : Channel) (mode : BitVec 2) (count : Int) (words : List Word)
  /-- `ENC.T value` (40_codec.md R113). -/
  | encT (value : HostReal)
  /-- `ENC.H value` (R114). -/
  | encH (value : HostReal)
  /-- `DEC.T raw` (R115). -/
  | decT (raw : Word)
  /-- `DEC.H raw` (R116). -/
  | decH (raw : Word)
  /-- `VALID.T value` (R117). -/
  | validT (value : HostReal)
  /-- `VALID.H value` (R118). -/
  | validH (value : HostReal)
  /-- `HS.RD a, n` (41_handshake.md R140); `id` is bit `i` of the command word, an output of the attempt. -/
  | hsRd (id : BitVec 1) (a n : Word)
  /-- `HS.WR a, n, data` (R141); `id` as in `HS.RD`. -/
  | hsWr (id : BitVec 1) (a n : Word) (data : List Byte)
  /-- `RPL.ACK` with its id byte (30_encoding.md R87, 41_handshake.md R136). -/
  | rplAck (id : Byte)
  /-- `RPL.NACK` with its id byte. -/
  | rplNack (id : Byte)
  /-- `CHK B, Lb` (42_transfer_retry.md R150). -/
  | chk (B Lb : Word)
  /-- `RETRY(op)` (R151). -/
  | retry (op : AttemptOp)
  /-- `MODE` (44_log_decoder.md R181): bit `i` of `time` and `sample` is the flag of bin `i`. -/
  | mode (time sample : BitVec 6)
  deriving DecidableEq, Repr

/-- The operand lines of the host port, under the names of 30_encoding.md R100. An operation reads the lines its row
names and no others (assumption 1). -/
structure Operands where
  /-- Byte address of a transfer. -/
  B : Word := 0
  /-- Byte length of a transfer. -/
  Lb : Word := 0
  /-- Data bytes of `XFER.WR`. -/
  data : List Byte := []
  /-- Register word address of `GET` and `SET`. -/
  address : Word := 0
  /-- Register value of `SET`. -/
  value : Word := 0
  /-- Real operand of `ENC` and `VALID`. -/
  real : HostReal := .real 0
  /-- Raw code of `DEC.T` and `DEC.H`. -/
  raw : Word := 0
  /-- Mode of `DEC`. -/
  mode : BitVec 2 := 0
  /-- Sample count of `DEC`. -/
  count : Int := 0
  /-- Log words of `DEC`. -/
  words : List Word := []
  deriving DecidableEq, Repr

/-- An encoded instruction: a HOP word with its operand lines, a command frame as bytes (parameter block, then the
data of a WRITE; 30_encoding.md R85, R90), or the two bytes of a reply slot (R86). -/
inductive Frame where
  | hop (word : Byte) (ops : Operands)
  | command (bytes : List Byte)
  | reply (id code : Byte)
  deriving DecidableEq, Repr

end Sys2Proof
end

