-- ==== Sys2Proof/Machine/State.lean ====
section
/-! DEFINITION. The state of RT0013-PE and its environment, in the five parts of spec/10_state.md R20, with the reset
values of R43; and the reasons a step can stop. -/

namespace Sys2Proof.Machine

/-! ### Engine state (10_state.md R22 to R26) -/

/-- The sequencer's positions (R23). -/
inductive Phase where
  | idle | chk | p1 | p2 | p2b | p3 | p4 | p5 | p6
  deriving DecidableEq, Repr

/-- READ or WRITE (R25). -/
inductive Kind where
  | rd | wr
  deriving DecidableEq, Repr

/-- The handshake engine's registers. -/
structure Engine where
  /-- The message id of the attempt (R22). -/
  idmsg : Byte
  /-- The sequencer's position (R23). -/
  phase : Phase
  /-- The attempt of the current retry-wrapped operation (R24). -/
  attempt : Nat
  /-- The command of the attempt (R25). -/
  kind : Kind
  /-- The word address of the attempt (R25). -/
  a : Word
  /-- The word count of the attempt (R25). -/
  n : Word
  /-- The byte buffer of 400 bytes (R26). -/
  dbuf : List Byte
  deriving DecidableEq, Repr

/-! ### Decoder state (R31 to R33) -/

/-- A measurement point (R32); the timestamp is the raw `u32` (30_encoding.md R96). -/
structure Point where
  timestamp : Option (BitVec 32)
  value : Option Rat
  deriving DecidableEq, Repr

/-- The in-progress point (R33). -/
structure Accumulator where
  lo : Option Word
  hi : Option Word
  ts : Option (BitVec 32)
  val : Option Rat
  deriving DecidableEq, Repr

/-- The empty accumulator (R33). -/
def Accumulator.empty : Accumulator := { lo := none, hi := none, ts := none, val := none }

/-- The log decoder's registers (R31). -/
structure Decoder where
  ch : Channel
  mode : BitVec 2
  count : Int
  i : Nat
  acc : Accumulator
  points : List Point
  deriving DecidableEq, Repr

/-! ### Result state (R27, R28; 60_exceptions.md R206) -/

/-- The codes `status` can hold: R206's table without the warning, which is the bit `warn`. -/
inductive Status where
  | ok | invalidArgument | transportError | protocolTimeout | tagRejected | communicationExhausted | configurationError
  deriving DecidableEq, Repr

/-- The value of an operation (R27). -/
inductive OpResult where
  | bytes (bs : List Byte)
  | word (w : Word)
  | real (q : Rat)
  | bool (b : Bool)
  | points (ps : List Point)
  deriving DecidableEq, Repr

/-- The registers the host reads. `busy` is also the cache's `lock` (R28). -/
structure ResultRegs where
  status : Status
  info : Word
  warn : Bool
  busy : Bool
  result : OpResult
  deriving DecidableEq, Repr

/-! ### Environment state (R34, R35, R41) -/

/-- Bank memory: the bytes that differ from what an unlisted byte reads as, addresses strictly rising. -/
abbrev Memory := List Host.Cell

/-- What a byte of bank memory that nothing has written reads as (assumption 6). -/
abbrev Memory.unlisted : Byte := 0

/-- The canonical form: addresses rise, lie in the bank space (20_memory.md R50), and no byte is the unlisted one. -/
abbrev Memory.wf (m : Memory) : Prop :=
  m.Pairwise (fun c d => c.1 < d.1) ∧ ∀ c ∈ m, c.1 < 2 ^ 24 ∧ c.2 ≠ Memory.unlisted

/-- A partial map from register word addresses to words. -/
abbrev WordMap := List (Nat × Word)

/-- Addresses rise and lie in the register space `[0x0000, 0x1089]` (10_state.md R29, R35). -/
abbrev WordMap.wf (m : WordMap) : Prop :=
  m.Pairwise (fun c d => c.1 < d.1) ∧ ∀ c ∈ m, c.1 ≤ 0x1089

/-- What a tag register that nothing has written holds: in a log area `0xFFFF` (R39), elsewhere 0 (assumption 6). -/
def WordMap.unlisted (p : Params) (addr : Nat) : Word := if p.inLogArea addr then 0xFFFF else 0

/-- The tag registers' canonical form: no entry is what the register would hold unlisted. -/
abbrev WordMap.regsWf (p : Params) (m : WordMap) : Prop := WordMap.wf m ∧ ∀ c ∈ m, c.2 ≠ WordMap.unlisted p c.1

/-- The staged command as the firmware fetched it at the trigger read (20_memory.md R66, R71; assumption 32). -/
structure Staged where
  cmd : Byte
  a : Word
  n : Word
  data : List Byte
  deriving DecidableEq, Repr

/-- The tag as the block can reach it. -/
structure Tag where
  /-- Bank memory: the mailbox, the trigger location and whatever else (20_memory.md R50). -/
  mem : Memory
  /-- The register space of 4234 words (R35). -/
  regs : WordMap
  /-- The command in flight, if any (R41). -/
  pending : Option Staged
  deriving DecidableEq, Repr

/-- What is still to come from the transport and the firmware (R42; assumption 5). -/
structure Environment where
  /-- The next events, oldest first. -/
  script : List EnvEvent
  /-- Events taken so far: the index of the free event that follows an empty script. -/
  taken : Nat
  deriving DecidableEq, Repr

/-! ### The outside: port, bus and log -/

/-- What stands at the port: an instruction's frame, a hardware reset (70_reset_and_hazards.md R235), or an instruction's
frame and the reset that arrives before it has ended (R236). -/
inductive Request where
  | run (frame : Frame)
  | reset
  /-- The reset arrives when so many of the operation's bank transactions are done (assumption 11). -/
  | cut (frame : Frame) (transactions : Nat)
  deriving DecidableEq, Repr

/-- One use of a primitive (00_scope.md R14): what was asked and how it ended. -/
inductive BusEvent where
  /-- `MemRead(bank:offset, len)`, with the bytes or `none` for a failure. -/
  | read (bank : Byte) (offset : Word) (len : Nat) (answer : Option (List Byte))
  /-- `MemWrite(bank:offset, len(bytes), bytes)`, and whether it completed. -/
  | write (bank : Byte) (offset : Word) (bytes : List Byte) (ok : Bool)
  /-- `Wait(ms)`. -/
  | wait (ms : Nat)
  deriving DecidableEq, Repr

/-- A diagnostic record (60_exceptions.md R229). -/
inductive LogRecord where
  | failure (attempt : Nat) (error : Status) (info : Word)
  | integrity (observed : Word)
  deriving DecidableEq, Repr

/-- The state: the five parts of R20, the parameters, and the outside. -/
structure State where
  /-- The open parameters (00_scope.md R9; assumption 4); no step writes them. -/
  par : Params
  /-- Requests waiting at the host port, oldest first (assumption 1). -/
  port : List Request
  /-- Engine state. -/
  eng : Engine
  /-- The register cache: an unlisted address is `none` (R29). -/
  cache : WordMap
  /-- Decoder state. -/
  dec : Decoder
  /-- Result state. -/
  res : ResultRegs
  /-- Environment state. -/
  tag : Tag
  /-- The environment's events to come. -/
  env : Environment
  /-- The primitives used so far, newest first (assumption 23). -/
  bus : List BusEvent
  /-- The diagnostic records so far, newest first (assumption 23). -/
  log : List LogRecord
  deriving DecidableEq, Repr

/-- `lock` is the same bit as `busy` (R28). -/
abbrev State.lock (s : State) : Bool := s.res.busy

/-! ### Reset (R43, R235) -/

/-- The engine after reset; all but `phase` is unspecified by the spec (assumption 10). -/
def Engine.reset : Engine :=
  { idmsg := 0, phase := .idle, attempt := 0, kind := .rd, a := 0, n := 0, dbuf := List.replicate 400 0 }

/-- The decoder after reset, unspecified by the spec (assumption 10). -/
def Decoder.reset : Decoder :=
  { ch := .temperature, mode := 0, count := 0, i := 0, acc := Accumulator.empty, points := [] }

/-- The result registers after reset; `info` and `result` are unspecified by the spec (assumption 10). -/
def ResultRegs.reset : ResultRegs :=
  { status := .ok, info := 0, warn := false, busy := false, result := .bytes [] }

/-- The machine right after reset, nothing requested, with a tag of which nothing is known but by free events. -/
def State.reset : State where
  par := Config.params
  port := []
  eng := Engine.reset
  cache := []
  dec := Decoder.reset
  res := ResultRegs.reset
  tag := { mem := [], regs := [], pending := none }
  env := { script := [], taken := 0 }
  bus := []
  log := []

/-! ### How a step can stop -/

/-- Faults. There is none: every error of RT0013-PE is a result the host reads (60_exceptions.md R205), and the block
goes on (R215), so no step ends in a fault. Safe and exact: nothing raises one. -/
inductive Fault where
  deriving DecidableEq, Repr

/-- Refusals. -/
inductive Refusal where
  /-- An instruction without a meaning yet. Raised by an arm of `exec`. Safe: nothing is claimed. -/
  | notModelled (mnemonic : String)
  /-- A command frame no rule describes: another command code (30_encoding.md R92, 93_implementation_defined.md U2),
  an id byte other than 0 and 1, or a length that does not fit its size field. Raised by `step` alone, on a frame the
  engine never stages. Safe: nothing is claimed of it. -/
  | commandOutsideSpec
  deriving DecidableEq, Repr

end Sys2Proof.Machine
end

