-- ==== Sys2Proof/Machine/Flags.lean ====
section
/-! DEFINITION. The error taxonomy of RT0013-PE and what the result registers say of it (spec/60_exceptions.md R205 to
R214, spec/10_state.md R27). The block has no condition codes; `status`, `info`, `warn` and `busy` are all its flags. -/

namespace Sys2Proof.Machine

/-- The errors an operation or an attempt can end with (R206). -/
inductive Err where
  /-- `InvalidArgument`: 1 = address, 2 = length, 3 = operation word, channel or operand outside the domain. -/
  | invalidArgument (info : Word)
  /-- `TransportError` in this phase. -/
  | transportError (phase : Phase)
  /-- `ProtocolTimeout`: 1 = id mismatch, 2 = bad code. -/
  | protocolTimeout (info : Word)
  /-- `TagRejected`. -/
  | tagRejected
  /-- `CommunicationExhausted`, with the third attempt's error. -/
  | communicationExhausted (cause : Status)
  /-- `ConfigurationError`: 1 = mode 0, 2 = count. -/
  | configurationError (info : Word)
  deriving DecidableEq, Repr

/-- The numeric code of R206's table; 6 is the warning's. -/
def Status.code : Status → Word
  | .ok => 0
  | .invalidArgument => 1
  | .transportError => 2
  | .protocolTimeout => 3
  | .tagRejected => 4
  | .communicationExhausted => 5
  | .configurationError => 7

/-- The phase as `TransportError`'s information word (R206). No other phase makes a transport call. -/
def Phase.infoCode : Phase → Word
  | .p1 => 1
  | .p2 => 2
  | .p2b => 3
  | .p3 => 4
  | .p5 => 5
  | .p6 => 6
  | .idle | .chk | .p4 => 0

/-- The `status` an error sets (R206). -/
def Err.status : Err → Status
  | .invalidArgument _ => .invalidArgument
  | .transportError _ => .transportError
  | .protocolTimeout _ => .protocolTimeout
  | .tagRejected => .tagRejected
  | .communicationExhausted _ => .communicationExhausted
  | .configurationError _ => .configurationError

/-- The `info` an error sets (R206). -/
def Err.info : Err → Word
  | .invalidArgument w => w
  | .transportError ph => ph.infoCode
  | .protocolTimeout w => w
  | .tagRejected => 0
  | .communicationExhausted cause => cause.code
  | .configurationError w => w

/-- The errors that count as a failed attempt (42_transfer_retry.md R154). -/
def Err.retried : Err → Bool
  | .transportError _ | .protocolTimeout _ | .tagRejected => true
  | .invalidArgument _ | .communicationExhausted _ | .configurationError _ => false

/-- An operation starts: `busy` is set and `warn` cleared (10_state.md R27, R28). -/
def ResultRegs.start (r : ResultRegs) : ResultRegs := { r with busy := true, warn := false }

/-- An operation ends with an error: `status` and `info` say which, `busy` is clear, `result` stays (R205, R215). -/
def ResultRegs.fail (r : ResultRegs) (e : Err) : ResultRegs :=
  { r with status := e.status, info := e.info, busy := false }

/-- An operation ends well: `status` 0, its value, `busy` clear. `info` is 0, but the observed word when the operation
raised the warning (R206, R212); an operation without a value leaves `result` (assumptions 12, 13). -/
def ResultRegs.done (r : ResultRegs) (v : Option OpResult) : ResultRegs :=
  { r with
    status := .ok
    info := if r.warn then r.info else 0
    busy := false
    result := v.getD r.result }

/-- `DataIntegrityWarning`: `warn` is set and `info` is the observed word (R206, R212). -/
def ResultRegs.integrity (r : ResultRegs) (observed : Word) : ResultRegs :=
  { r with warn := true, info := observed }

/-- `NOP`'s effect: `status` 0 and `warn` 0, nothing else (30_encoding.md R101). -/
def ResultRegs.nop (r : ResultRegs) : ResultRegs := { r with status := .ok, warn := false }

end Sys2Proof.Machine
end

