-- ==== Sys2Proof/WellFormed.lean ====
section
/-! DEFINITION. Which instructions are well formed: the operand counts the spec's rows ask for. What a rule itself checks at
run time (the evenness of `B`, the bound on `Lb`, the address range of `GET`) is no condition here. -/

namespace Sys2Proof

/-- The word count of an attempt, 1 to 200 (41_handshake.md R130, D35). -/
def wordCountOk (n : Word) : Bool := decide (1 ≤ n.toNat) && decide (n.toNat ≤ 200)

/-- An attempt's operands: `n` in range and, for a WRITE, `2n` data bytes (R130). -/
def AttemptOp.wf : AttemptOp → Bool
  | .rd _ n => wordCountOk n
  | .wr _ n data => wordCountOk n && data.length == 2 * n.toNat

/-- `XFER.WR` has `Lb` data bytes (30_encoding.md R100); an attempt's operands are in range. -/
def Instr.wf : Instr → Bool
  | .nop => true
  | .xferRd _ _ => true
  | .xferWr _ Lb data => data.length == Lb.toNat
  | .get _ => true
  | .set _ _ => true
  | .prefetch => true
  | .creset => true
  | .declog _ => true
  | .dec _ _ _ _ => true
  | .encT _ => true
  | .encH _ => true
  | .decT _ => true
  | .decH _ => true
  | .validT _ => true
  | .validH _ => true
  | .hsRd _ a n => (AttemptOp.rd a n).wf
  | .hsWr _ a n data => (AttemptOp.wr a n data).wf
  | .rplAck _ => true
  | .rplNack _ => true
  | .chk _ _ => true
  | .retry op => op.wf
  | .mode _ _ => true

end Sys2Proof
end

