-- ==== Sys2Proof/Decode.lean ====
section
/-! DEFINITION. From frames to instructions and back (spec/30_encoding.md), with the byte order every 16-bit field of
bank memory has (spec/20_memory.md R59). -/

namespace Sys2Proof

/-! ### Byte order (00_scope.md R12, 20_memory.md R59) -/

/-- `be16(w)`: the bytes `w[15:8] w[7:0]`. -/
def be16 (w : Word) : List Byte := [w.extractLsb' 8 8, w.extractLsb' 0 8]

/-- `unbe16` of two bytes, the more significant first. -/
def unbe16 (hi lo : Byte) : Word := (hi.setWidth 16 <<< 8) ||| lo.setWidth 16

/-- `words(s)`: the words of a byte sequence, two bytes each; an odd last byte makes no word. -/
def wordsOf : List Byte → List Word
  | hi :: lo :: rest => unbe16 hi lo :: wordsOf rest
  | _ => []

/-- `bytesof(W)`, the inverse of `words`. -/
def bytesOf (ws : List Word) : List Byte := ws.flatMap be16

/-! ### The command side and the reply side (R81 to R89) -/

/-- CW: `(id << 8) | cmd` (R81). -/
def commandWord (id cmd : Byte) : Word := (id.setWidth 16 <<< 8) ||| cmd.setWidth 16

/-- PB: `be16(CW) ++ be16(a) ++ be16(n)`, six bytes (R85). -/
def paramBlock (id cmd : Byte) (a n : Word) : List Byte := be16 (commandWord id cmd) ++ be16 a ++ be16 n

/-- The reply code ACK (00_scope.md R8). -/
def ackCode : Byte := 0xAC

/-- The reply code NACK (R8). -/
def nackCode : Byte := 0xFC

/-- Why a frame is no instruction. -/
inductive DecodeError where
  /-- A reserved HOP word (R102). -/
  | reservedHop
  /-- `XFER.WR` whose data lines do not hold `Lb` bytes (assumption 21). -/
  | dataLength
  /-- A command frame whose id byte is neither 0 nor 1 (R88). -/
  | commandId
  /-- A command code other than `CMD_READ` and `CMD_WRITE` (R92). -/
  | commandCode
  /-- A command frame with fewer than six bytes, or not followed by the data its size asks for (R85, R90). -/
  | commandLength
  /-- A reply code other than ACK and NACK (R93). -/
  | replyCode
  deriving DecidableEq, Repr

/-- The HOP word and its operand lines (R80, R100, R102). -/
def decodeHop (w : Byte) (o : Operands) : Except DecodeError Instr :=
  if w.extractLsb' 1 3 ≠ 0 then .error .reservedHop
  else match (w.extractLsb' 4 4).toNat, w.getLsbD 0 with
    | 0x0, false => .ok .nop
    | 0x1, false => .ok (.xferRd o.B o.Lb)
    | 0x2, false => if o.data.length = o.Lb.toNat then .ok (.xferWr o.B o.Lb o.data) else .error .dataLength
    | 0x3, false => .ok (.get o.address)
    | 0x4, false => .ok (.set o.address o.value)
    | 0x5, false => .ok .prefetch
    | 0x6, false => .ok .creset
    | 0x7, false => .ok (.declog .temperature)
    | 0x7, true => .ok (.declog .humidity)
    | 0x8, false => .ok (.dec .temperature o.mode o.count o.words)
    | 0x8, true => .ok (.dec .humidity o.mode o.count o.words)
    | 0x9, false => .ok (.encT o.real)
    | 0x9, true => .ok (.encH o.real)
    | 0xA, false => .ok (.decT o.raw)
    | 0xA, true => .ok (.decH o.raw)
    | 0xB, false => .ok (.validT o.real)
    | 0xB, true => .ok (.validH o.real)
    | _, _ => .error .reservedHop

/-- A command frame: parameter block, then the data of a WRITE (R81 to R85, R89, R90). -/
def decodeCommand (p : Params) : List Byte → Except DecodeError Instr
  | id :: cmd :: aHi :: aLo :: nHi :: nLo :: data =>
    let a := unbe16 aHi aLo
    let n := unbe16 nHi nLo
    if id.extractLsb' 1 7 ≠ 0 then .error .commandId
    else if cmd = p.cmdRead then
      if data.length = 0 then .ok (.hsRd (id.setWidth 1) a n) else .error .commandLength
    else if cmd = p.cmdWrite then
      if data.length = 2 * n.toNat then .ok (.hsWr (id.setWidth 1) a n data) else .error .commandLength
    else .error .commandCode
  | _ => .error .commandLength

/-- The two bytes of a reply slot (R86, R87). -/
def decodeReply (id code : Byte) : Except DecodeError Instr :=
  if code = ackCode then .ok (.rplAck id)
  else if code = nackCode then .ok (.rplNack id)
  else .error .replyCode

/-- The decoder, total on every frame. -/
def decode (p : Params) : Frame → Except DecodeError Instr
  | .hop w o => decodeHop w o
  | .command bytes => decodeCommand p bytes
  | .reply id code => decodeReply id code

/-! ### The encoder -/

/-- HOP: `op` in bits 7 to 4, bits 3 to 1 zero, `ch` in bit 0 (R80). -/
def hopWord (op : BitVec 4) (ch : Bool) : Byte := (op.setWidth 8 <<< 4) ||| (BitVec.ofBool ch).setWidth 8

/-- `ch` = 0 for TEMPERATURE, 1 for HUMIDITY (R100). -/
def Channel.bit : Channel → Bool
  | .temperature => false
  | .humidity => true

/-- The frame of an instruction; `none` for the internal steps, which have no encoding (R100). -/
def encode (p : Params) : Instr → Option Frame
  | .nop => some (.hop (hopWord 0x0 false) {})
  | .xferRd B Lb => some (.hop (hopWord 0x1 false) { B := B, Lb := Lb })
  | .xferWr B Lb data => some (.hop (hopWord 0x2 false) { B := B, Lb := Lb, data := data })
  | .get address => some (.hop (hopWord 0x3 false) { address := address })
  | .set address value => some (.hop (hopWord 0x4 false) { address := address, value := value })
  | .prefetch => some (.hop (hopWord 0x5 false) {})
  | .creset => some (.hop (hopWord 0x6 false) {})
  | .declog ch => some (.hop (hopWord 0x7 ch.bit) {})
  | .dec ch mode count words => some (.hop (hopWord 0x8 ch.bit) { mode := mode, count := count, words := words })
  | .encT v => some (.hop (hopWord 0x9 false) { real := v })
  | .encH v => some (.hop (hopWord 0x9 true) { real := v })
  | .decT raw => some (.hop (hopWord 0xA false) { raw := raw })
  | .decH raw => some (.hop (hopWord 0xA true) { raw := raw })
  | .validT v => some (.hop (hopWord 0xB false) { real := v })
  | .validH v => some (.hop (hopWord 0xB true) { real := v })
  | .hsRd id a n => some (.command (paramBlock (id.setWidth 8) p.cmdRead a n))
  | .hsWr id a n data => some (.command (paramBlock (id.setWidth 8) p.cmdWrite a n ++ data))
  | .rplAck id => some (.reply id ackCode)
  | .rplNack id => some (.reply id nackCode)
  | .chk _ _ => none
  | .retry _ => none
  | .mode _ _ => none

/-! ### The words of spec/opcode_table.json -/

/-- The frame of a table word: an 8-bit HOP word with operand lines of zeros; a 16-bit word that matches a reply row
as the reply slot, any other as the command word of a parameter block whose address and size are zero. The high byte
is the first (R59). -/
def tableFrame (nbits w : Nat) : Option Frame :=
  if nbits = 8 then some (.hop (BitVec.ofNat 8 w) {})
  else if nbits = 16 then
    let hi := BitVec.ofNat 8 (w / 256)
    let lo := BitVec.ofNat 8 w
    if lo = ackCode ∨ lo = nackCode then some (.reply hi lo) else some (.command [hi, lo, 0, 0, 0, 0])
  else none

/-- The instruction the decoder reads from a table word; the command codes are the free parameters (assumption 26). -/
def decodeTableWord (nbits w : Nat) : Option Instr :=
  match tableFrame nbits w with
  | none => none
  | some f => match decode Config.params f with
    | .ok i => some i
    | .error _ => none

end Sys2Proof
end

