-- ==== Sys2Proof/Machine/Operands.lean ====
section
/-! DEFINITION. Operand forms: byte and word operands of a transfer, and the addresses the phases use (spec/20_memory.md
R56, R63, R76). -/

namespace Sys2Proof.Machine

/-! ### Bank addresses (R50, R76 a) -/

/-- The key of a byte of bank space. -/
def bankAddr (bank : Byte) (offset : Word) : Nat := bank.toNat * 65536 + offset.toNat

/-- The parameter slot: `MI_BASE + 0`, six bytes (R56). -/
def paramOffset (p : Params) : Word := p.miBase

/-- The reply slot: `MI_BASE + 6`, two bytes (R56). -/
def replyOffset (p : Params) : Word := p.miBase + 6

/-- The data slot: `MI_BASE + 8` (R56). -/
def dataOffset (p : Params) : Word := p.miBase + 8

/-- The command code a kind of attempt stages (41_handshake.md R132). -/
def cmdCode (p : Params) : Kind → Byte
  | .rd => p.cmdRead
  | .wr => p.cmdWrite

/-- `TRIG_LEN` (00_scope.md R8). -/
def trigLen : Nat := 4

/-! ### Byte and word operands (R76 b) -/

/-- `a = B / 2`, `n = Lb / 2` (42_transfer_retry.md R150). -/
def wordForm (v : Word) : Word := BitVec.ofNat 16 (v.toNat / 2)

/-- `B = 2 * a`, `Lb = 2 * n` (30_encoding.md R104, which defines it for `a <= 0x7FFF` only). DESIGN CHOICE (assumption 33): of a
larger value the low 16 bits of its double are kept. -/
def byteForm (v : Word) : Word := BitVec.ofNat 16 (2 * v.toNat)

/-- `REG_END` (00_scope.md R8). -/
def regEnd : Nat := 0x1089

/-- `MAX_BYTES` (R8). -/
def maxBytes : Nat := 400

/-- The length in bytes of `n` words. -/
def byteCount (n : Word) : Nat := 2 * n.toNat

/-- `unbe16` of the first two bytes of a transfer's answer. -/
def firstWord (bs : List Byte) : Word := unbe16 (bs.getD 0 0) (bs.getD 1 0)

/-! ### Pseudo-operations (30_encoding.md R104): other names of host operations -/

/-- `readRegister address` is `GET address`. -/
def pseudoReadRegister (address : Word) : Instr := .get address

/-- `writeRegister address, value` is `SET address, value`. -/
def pseudoWriteRegister (address value : Word) : Instr := .set address value

/-- `resetCache` is `CRESET`. -/
def pseudoResetCache : Instr := .creset

/-- `RD a, n` is `XFER.RD 2*a, 2*n`, for `a <= 0x7FFF`. DESIGN CHOICE (assumption 33): an `a` or `n` above `0x7FFF`, of which R104
says nothing, is doubled modulo 2^16. -/
def pseudoRd (a n : Word) : Instr := .xferRd (byteForm a) (byteForm n)

/-- `WR a, n, data` is `XFER.WR 2*a, 2*n, data`, for `a <= 0x7FFF`; above it, as for `RD` (DESIGN CHOICE, assumption 33). -/
def pseudoWr (a n : Word) (data : List Byte) : Instr := .xferWr (byteForm a) (byteForm n) data

end Sys2Proof.Machine
end

