-- ==== Sys2Proof/Machine/Ops.lean ====
section
/-! DEFINITION. The shared operations: named updates of State, maps and bank memory, the tag and the transport, the primitives
of spec/00_scope.md R14, and how an operation starts, raises an error, is entered again, and ends. -/

namespace Sys2Proof.Machine

/-! ### Named updates of the state -/

def State.setPort (s : State) (p : List Request) : State := { s with port := p }
def State.setEng (s : State) (e : Engine) : State := { s with eng := e }
def State.setCache (s : State) (c : WordMap) : State := { s with cache := c }
def State.setDec (s : State) (d : Decoder) : State := { s with dec := d }
def State.setRes (s : State) (r : ResultRegs) : State := { s with res := r }
def State.setTag (s : State) (t : Tag) : State := { s with tag := t }
def State.setEnv (s : State) (e : Environment) : State := { s with env := e }
/-- Records a use of a primitive on the bus trace. -/
def State.emit (s : State) (e : BusEvent) : State := { s with bus := e :: s.bus }
/-- `log(info)` (60_exceptions.md R229). -/
def State.record (s : State) (r : LogRecord) : State := { s with log := r :: s.log }
/-- `phase <- P` (00_scope.md R13). -/
def State.setPhase (s : State) (ph : Phase) : State := s.setEng { s.eng with phase := ph }
def State.setIdmsg (s : State) (id : Byte) : State := s.setEng { s.eng with idmsg := id }
def State.setAttempt (s : State) (k : Nat) : State := s.setEng { s.eng with attempt := k }
def State.setKind (s : State) (k : Kind) : State := s.setEng { s.eng with kind := k }
def State.setOperands (s : State) (a n : Word) : State := s.setEng { s.eng with a := a, n := n }
/-- `dbuf[0 .. len-1] <- bytes`; the buffer stays 400 bytes long (10_state.md R26). -/
def State.fillDbuf (s : State) (bs : List Byte) : State :=
  s.setEng { s.eng with dbuf := (bs ++ s.eng.dbuf.drop bs.length).take maxBytes }

/-! ### Maps with rising keys -/

/-- The value at a key. -/
def mapFind {α : Type} (k : Nat) : List (Nat × α) → Option α
  | [] => none
  | (a, v) :: rest => if a = k then some v else mapFind k rest

/-- The map with a value at a key, keys still rising. -/
def mapPut {α : Type} (k : Nat) (v : α) : List (Nat × α) → List (Nat × α)
  | [] => [(k, v)]
  | (a, w) :: rest =>
    if k < a then (k, v) :: (a, w) :: rest
    else if k = a then (k, v) :: rest
    else (a, w) :: mapPut k v rest

/-- The map without a key. -/
def mapErase {α : Type} (k : Nat) (m : List (Nat × α)) : List (Nat × α) := m.filter (fun c => c.1 ≠ k)

/-! ### Bank memory (20_memory.md R50) -/

/-- One byte of bank memory. -/
def readByte (m : Memory) (addr : Nat) : Byte := (mapFind addr m).getD Memory.unlisted

/-- One byte written; the canonical form is kept. -/
def writeByte (m : Memory) (addr : Nat) (b : Byte) : Memory :=
  if b = Memory.unlisted then mapErase addr m else mapPut addr b m

/-- `len` bytes of a bank from an offset; offsets are `u16` (R76; assumption 27). -/
def readBytes (m : Memory) (bank : Byte) (offset : Word) : Nat → List Byte
  | 0 => []
  | len + 1 => readByte m (bankAddr bank offset) :: readBytes m bank (offset + 1) len

/-- Bytes written to a bank from an offset, the first at the offset. -/
def writeBytes (m : Memory) (bank : Byte) (offset : Word) : List Byte → Memory
  | [] => m
  | b :: bs => writeBytes (writeByte m (bankAddr bank offset) b) bank (offset + 1) bs

/-! ### The tag (10_state.md R35, 20_memory.md R66) -/

/-- One of the tag's registers. -/
def readReg (p : Params) (r : WordMap) (addr : Nat) : Word := (mapFind addr r).getD (WordMap.unlisted p addr)

/-- One of the tag's registers written; there is none above `0x1089` (R35). -/
def writeReg (p : Params) (r : WordMap) (addr : Nat) (w : Word) : WordMap :=
  if addr ≤ regEnd then (if w = WordMap.unlisted p addr then mapErase addr r else mapPut addr w r) else r

/-- `n` registers from an address up. -/
def readRegs (p : Params) (r : WordMap) (addr : Nat) : Nat → List Word
  | 0 => []
  | n + 1 => readReg p r addr :: readRegs p r (addr + 1) n

/-- Words written to the registers from an address up. -/
def writeRegs (p : Params) (r : WordMap) (addr : Nat) : List Word → WordMap
  | [] => r
  | w :: ws => writeRegs p (writeReg p r addr w) (addr + 1) ws

/-- The staged command as it stands in the mailbox (R66 a, R71): parameter slot and, for its size, the data slot. -/
def stagedCommand (p : Params) (m : Memory) : Staged :=
  let b := readBytes m p.miBank (paramOffset p) 6
  let n := unbe16 (b.getD 4 0) (b.getD 5 0)
  { cmd := b.getD 1 0
    a := unbe16 (b.getD 2 0) (b.getD 3 0)
    n := n
    data := readBytes m p.miBank (dataOffset p) (min (byteCount n) maxBytes) }

/-- The firmware takes the trigger: the command is in flight (R65 a, 41_handshake.md R134). -/
def Tag.trigger (p : Params) (t : Tag) : Tag := { t with pending := some (stagedCommand p t.mem) }

/-- The firmware finishes the command in flight (R66 b, c): with ACK a READ's words go to the data slot and a WRITE's
words to the registers; the reply slot gets the id byte and the code byte. With no command in flight it does nothing. -/
def Tag.answer (p : Params) (id code : Byte) (t : Tag) : Tag :=
  match t.pending with
  | none => t
  | some c =>
    let served := if code = ackCode ∧ c.cmd = p.cmdRead then
        writeBytes t.mem p.miBank (dataOffset p) (bytesOf (readRegs p t.regs c.a.toNat (min c.n.toNat 200)))
      else t.mem
    { mem := writeBytes served p.miBank (replyOffset p) [id, code]
      regs := if code = ackCode ∧ c.cmd = p.cmdWrite then writeRegs p t.regs c.a.toNat (wordsOf c.data) else t.regs
      pending := none }

/-- One action of the firmware (assumption 7). -/
def Tag.act (p : Params) (t : Tag) : TagAction → Tag
  | .poke bank offset value => { t with mem := writeByte t.mem (bankAddr bank offset) value }
  | .setReg address value => { t with regs := writeReg p t.regs address.toNat value }
  | .run id code => t.answer p id code

/-- Actions of the firmware in order. -/
def Tag.acts (p : Params) (t : Tag) (as : List TagAction) : Tag := as.foldl (Tag.act p) t

/-! ### The environment's next event (assumption 5) -/

/-- The event of the next transaction: the script's, or a free one. -/
def State.event (s : State) : EnvEvent :=
  match s.env.script with
  | [] => Config.freeEvent s.env.taken
  | e :: _ => e

/-- The state in which the next transaction takes place: its event taken, the firmware's actions done. -/
def State.transact (s : State) : State :=
  (s.setEnv { script := s.env.script.tail, taken := s.env.taken + 1 }).setTag (s.tag.acts s.par s.event.tag)

/-! ### Steps that can raise (00_scope.md R14) -/

/-- How a piece of an operation ends: with a value, or with an error; in either case in a state. -/
inductive Res (α : Type) where
  | ok (value : α) (s : State)
  | err (e : Err) (s : State)

/-- `X; Y`: an error of `X` ends both. -/
def Res.andThen {α β : Type} (r : Res α) (f : α → State → Res β) : Res β :=
  match r with
  | .ok v s => f v s
  | .err e s => .err e s

/-- The state it ends in. -/
def Res.state {α : Type} : Res α → State
  | .ok _ s => s
  | .err _ s => s

/-- The same end in a changed state. -/
def Res.inState {α : Type} (f : State → State) : Res α → Res α
  | .ok v s => .ok v (f s)
  | .err e s => .err e (f s)

/-- `MemRead(bank:offset, len)` (20_memory.md R52). -/
def memRead (bank : Byte) (offset : Word) (len : Nat) (s : State) : Res (List Byte) :=
  let t := s.transact
  if s.event.ok then
    let bytes := readBytes t.tag.mem bank offset len
    .ok bytes (t.emit (.read bank offset len (some bytes)))
  else .err (.transportError t.eng.phase) (t.emit (.read bank offset len none))

/-- `MemWrite(bank:offset, len(bytes), bytes)` (R53). A failed write leaves any bytes in its range (assumption 8). -/
def memWrite (bank : Byte) (offset : Word) (bytes : List Byte) (s : State) : Res Unit :=
  let t := s.transact
  let landed := if s.event.ok then bytes else s.event.landed.take bytes.length
  let u := (t.setTag { t.tag with mem := writeBytes t.tag.mem bank offset landed }).emit
    (.write bank offset bytes s.event.ok)
  if s.event.ok then .ok () u else .err (.transportError u.eng.phase) u

/-- The trigger read, `MemRead(TRIG_BANK:TRIG_OFFSET, 4)`, whose side effect hands the staged command to the firmware
(R65 a). A failed one may have reached the tag (assumption 9). -/
def triggerRead (s : State) : Res (List Byte) :=
  let t := s.transact
  let bytes := readBytes t.tag.mem s.par.trigBank s.par.trigOffset trigLen
  let u := if s.event.ok || s.event.reached then t.setTag (t.tag.trigger s.par) else t
  if s.event.ok then .ok bytes (u.emit (.read s.par.trigBank s.par.trigOffset trigLen (some bytes)))
  else .err (.transportError u.eng.phase) (u.emit (.read s.par.trigBank s.par.trigOffset trigLen none))

/-- `Wait(ms)` (R14; 70_reset_and_hazards.md R250; assumption 29). -/
def waitMs (ms : Nat) (s : State) : State := s.emit (.wait ms)

/-! ### Operations: start, error entry, re-entry, end (60_exceptions.md R205, R215, R217) -/

/-- The block accepts an operation. -/
def State.begin (s : State) : State := s.setRes s.res.start

/-- ERROR ENTRY, the one place an error is taken (R215): `status` and `info` are written, `busy` is cleared, `phase`
goes to IDLE; nothing else changes. -/
def State.raise (s : State) (e : Err) : State := (s.setRes (s.res.fail e)).setPhase .idle

/-- The end of an operation without an error (R205). -/
def State.succeed (s : State) (v : Option OpResult) : State := (s.setRes (s.res.done v)).setPhase .idle

/-- RE-ENTRY, the one return from an error (R217, 42_transfer_retry.md R151): the failure is logged, the next attempt
is counted, and the sequencer is at P1 again with the same operands. -/
def State.reenter (s : State) (e : Err) : State :=
  ((s.record (.failure s.eng.attempt e.status e.info)).setAttempt (s.eng.attempt + 1)).setPhase .p1

/-- The state an operation's body leaves to the host (R205). -/
def Res.finish : Res (Option OpResult) → State
  | .ok v s => s.succeed v
  | .err e s => s.raise e

/-- A whole operation: start, body, end. -/
def operate (body : State → Res (Option OpResult)) (s : State) : Host.Outcome State Fault Refusal :=
  .next (body s.begin).finish

/-- A request that is no operation: `InvalidArgument` with this information word, no tag I/O (30_encoding.md R102). DESIGN CHOICE
(assumption 36): `warn` is cleared, as by an operation that starts (10_state.md R27). -/
def rejectRequest (info : Word) (s : State) : Host.Outcome State Fault Refusal :=
  operate (.err (.invalidArgument info)) s

end Sys2Proof.Machine
end

