-- ==== Sys2Proof/Machine/Handshake.lean ====
section
/-! DEFINITION. One attempt of a tag command (spec/41_handshake.md): the phases P1 to P6, `HS.RD`, `HS.WR`, and the two
reply words of P5. -/

namespace Sys2Proof.Machine

/-- The id that is not the one found: `(currentId == 0) ? 1 : 0` (R131). -/
def nextId (currentId : Byte) : Byte := if currentId = 0 then 1 else 0

/-- P1, choose the message id (R131). -/
def phaseP1 (s : State) : Res Unit :=
  let s := s.setPhase .p1
  (memRead s.par.miBank (replyOffset s.par) 2 s).andThen fun r s => .ok () (s.setIdmsg (nextId (r.getD 0 0)))

/-- The six bytes P2 stages (R132, 30_encoding.md R85). -/
def State.stagedBlock (s : State) : List Byte :=
  paramBlock s.eng.idmsg (cmdCode s.par s.eng.kind) s.eng.a s.eng.n

/-- P2, stage the parameters in one transaction (R132). -/
def phaseP2 (s : State) : Res Unit :=
  let s := s.setPhase .p2
  memWrite s.par.miBank (paramOffset s.par) s.stagedBlock s

/-- P2B, stage the data; skipped for a READ (R130, R133). -/
def phaseP2B (s : State) : Res Unit :=
  match s.eng.kind with
  | .rd => .ok () s
  | .wr =>
    let s := s.setPhase .p2b
    memWrite s.par.miBank (dataOffset s.par) (s.eng.dbuf.take (byteCount s.eng.n)) s

/-- P3, trigger; the bytes returned are discarded (R134). -/
def phaseP3 (s : State) : Res Unit :=
  (triggerRead (s.setPhase .p3)).andThen fun _ s => .ok () s

/-- The settle delay in milliseconds (R135, D7): `100 + 7*(floor(2n/4) + 1)` for a READ, 400 for a WRITE. -/
def settleDelay (kind : Kind) (n : Word) : Nat :=
  match kind with
  | .rd => 100 + 7 * (2 * n.toNat / 4 + 1)
  | .wr => 400

/-- P4, settle (R135). -/
def phaseP4 (s : State) : Res Unit :=
  .ok () (waitMs (settleDelay s.eng.kind s.eng.n) (s.setPhase .p4))

/-- P5's verdict on the two bytes of the reply slot, its three tests in their order (R136): id, code, NACK. -/
def replyVerdict (idmsg id code : Byte) : Option Err :=
  if id ≠ idmsg then some (.protocolTimeout 1)
  else if code ≠ ackCode ∧ code ≠ nackCode then some (.protocolTimeout 2)
  else if code = nackCode then some .tagRejected
  else none

/-- P6, fetch the data; skipped for a WRITE (R130, R137). -/
def phaseP6 (s : State) : Res (List Byte) :=
  match s.eng.kind with
  | .wr => .ok [] s
  | .rd =>
    let s := s.setPhase .p6
    (memRead s.par.miBank (dataOffset s.par) (byteCount s.eng.n) s).andThen fun bytes s =>
      let s := s.fillDbuf bytes
      .ok (s.eng.dbuf.take (byteCount s.eng.n)) s

/-- What follows P5's read: the verdict, then P6 of a READ (R136, R137). -/
def afterReply (id code : Byte) (s : State) : Res (List Byte) :=
  match replyVerdict s.eng.idmsg id code with
  | some e => .err e s
  | none => phaseP6 s

/-- P5, poll the reply slot once (R136), and the rest of the attempt. -/
def phaseP5 (s : State) : Res (List Byte) :=
  let s := s.setPhase .p5
  (memRead s.par.miBank (replyOffset s.par) 2 s).andThen fun r s => afterReply (r.getD 0 0) (r.getD 1 0) s

/-- One attempt on the latched operands: the phases in their order, then IDLE (R130, R140, R141). -/
def attempt (s : State) : Res (List Byte) :=
  Res.inState (fun s => s.setPhase .idle) <|
    (phaseP1 s).andThen fun _ s =>
    (phaseP2 s).andThen fun _ s =>
    (phaseP2B s).andThen fun _ s =>
    (phaseP3 s).andThen fun _ s =>
    (phaseP4 s).andThen fun _ s =>
    phaseP5 s

/-- The operands of a READ attempt are latched (10_state.md R25). -/
def State.latchRd (s : State) (a n : Word) : State := (s.setKind .rd).setOperands a n

/-- The operands and the data of a WRITE attempt are latched (10_state.md R25, R26). -/
def State.latchWr (s : State) (a n : Word) (data : List Byte) : State :=
  ((s.setKind .wr).setOperands a n).fillDbuf data

/-- The value an attempt leaves to the host: a READ's bytes, nothing for a WRITE (R140, R141). -/
def transferValue (kind : Kind) (bytes : List Byte) : Option OpResult :=
  match kind with
  | .rd => some (.bytes bytes)
  | .wr => none

/-- `HS.RD a, n` (R140). -/
def execHsRd (a n : Word) (s : State) : Host.Outcome State Fault Refusal :=
  operate (fun s => (attempt (s.latchRd a n)).andThen fun d s => .ok (transferValue .rd d) s) s

/-- `HS.WR a, n, data` (R141). -/
def execHsWr (a n : Word) (data : List Byte) (s : State) : Host.Outcome State Fault Refusal :=
  operate (fun s => (attempt (s.latchWr a n data)).andThen fun d s => .ok (transferValue .wr d) s) s

/-- The rest of the attempt in the engine's registers when P5 has read these two bytes (R136; assumption 16). -/
def replyRead (id code : Byte) (s : State) : Res (Option OpResult) :=
  (afterReply id code (s.setPhase .p5)).andThen fun d s => .ok (transferValue s.eng.kind d) s

/-- `RPL.ACK`: the reply word `[id, 0xAC]` arrives in P5 (R136, 30_encoding.md R87). -/
def execRplAck (id : Byte) (s : State) : Host.Outcome State Fault Refusal :=
  operate (replyRead id ackCode) s

/-- `RPL.NACK`: the reply word `[id, 0xFC]` arrives in P5. -/
def execRplNack (id : Byte) (s : State) : Host.Outcome State Fault Refusal :=
  operate (replyRead id nackCode) s

end Sys2Proof.Machine
end

