-- ==== Sys2Proof/Machine/Transfer.lean ====
section
/-! DEFINITION. The argument check and the retry wrapper (spec/42_transfer_retry.md): `CHK`, `RETRY`, `XFER.RD`, `XFER.WR`. -/

namespace Sys2Proof.Machine

/-- CHK's verdict on a byte address and a byte length: odd address first, then the length (R150). -/
def chkVerdict (B Lb : Word) : Option Err :=
  if B.toNat % 2 ≠ 0 then some (.invalidArgument 1)
  else if Lb.toNat > maxBytes then some (.invalidArgument 2)
  else if Lb.toNat = 0 then some (.invalidArgument 2)
  else if Lb.toNat % 2 ≠ 0 then some (.invalidArgument 2)
  else none

/-- `(a, n) <- CHK(B, Lb)` (R150). -/
def check (B Lb : Word) (s : State) : Res Unit :=
  let s := s.setPhase .chk
  match chkVerdict B Lb with
  | some e => .err e s
  | none => .ok () (s.setOperands (wordForm B) (wordForm Lb))

/-- `ATTEMPTS` (00_scope.md R8). -/
def attempts : Nat := 3

/-- The retry loop with `left` attempts after this one (R151). A failure that is retried is logged; the last one ends
the operation with `CommunicationExhausted` and its code (R157). -/
def retryLoop : Nat → State → Res (List Byte)
  | 0, s =>
    match attempt s with
    | .ok d t => .ok d t
    | .err e t =>
      if e.retried then
        .err (.communicationExhausted e.status) (t.record (.failure t.eng.attempt e.status e.info))
      else .err e t
  | left + 1, s =>
    match attempt s with
    | .ok d t => .ok d t
    | .err e t => if e.retried then retryLoop left (t.reenter e) else .err e t

/-- `RETRY` of the attempt whose operands are latched (R151). -/
def retry (s : State) : Res (List Byte) := retryLoop (attempts - 1) (s.setAttempt 1)

/-- `XFER.RD` without the host's registers: check, latch, retry (R152). -/
def transferRd (B Lb : Word) (s : State) : Res (List Byte) :=
  (check B Lb s).andThen fun _ s => retry (s.setKind .rd)

/-- `XFER.WR` without the host's registers (R153). -/
def transferWr (B Lb : Word) (data : List Byte) (s : State) : Res (List Byte) :=
  (check B Lb s).andThen fun _ s => retry ((s.setKind .wr).fillDbuf data)

/-- `XFER.RD B, Lb` (R152). -/
def execXferRd (B Lb : Word) (s : State) : Host.Outcome State Fault Refusal :=
  operate (fun s => (transferRd B Lb s).andThen fun d s => .ok (transferValue .rd d) s) s

/-- `XFER.WR B, Lb, data` (R153). -/
def execXferWr (B Lb : Word) (data : List Byte) (s : State) : Host.Outcome State Fault Refusal :=
  operate (fun s => (transferWr B Lb data s).andThen fun d s => .ok (transferValue .wr d) s) s

/-- `CHK B, Lb` alone: it yields `a` and `n` (R150; assumption 14). -/
def execChk (B Lb : Word) (s : State) : Host.Outcome State Fault Refusal :=
  operate (fun s => (check B Lb s).andThen fun _ s => .ok none s) s

/-- The operands of an attempt are latched. -/
def State.latchOp (s : State) : AttemptOp → State
  | .rd a n => s.latchRd a n
  | .wr a n data => s.latchWr a n data

/-- `RETRY(op)` alone (R151; assumption 14). -/
def execRetry (op : AttemptOp) (s : State) : Host.Outcome State Fault Refusal :=
  operate (fun s => (retry (s.latchOp op)).andThen fun d s => .ok (transferValue s.eng.kind d) s) s

end Sys2Proof.Machine
end

