-- ==== Sys2Proof/Machine/Cache.lean ====
section
/-! DEFINITION. The register cache (spec/43_register_cache.md): `GET`, `SET`, `PREFETCH`, `CRESET`. -/

namespace Sys2Proof.Machine

/-- `cache[address]` (00_scope.md R13). -/
def State.cached (s : State) (address : Nat) : Option Word := mapFind address s.cache

/-- `cache[address] <- w`. -/
def State.cacheWord (s : State) (address : Nat) (w : Word) : State := s.setCache (mapPut address w s.cache)

/-- `cache[address + k] <- words[k]`, `k` ascending. -/
def State.cacheWords (s : State) (address : Nat) : List Word → State
  | [] => s
  | w :: ws => (s.cacheWord address w).cacheWords (address + 1) ws

/-- Whether `GET` and `SET` accept a register address (R170). -/
def addressOk (address : Word) : Bool := decide (address.toNat ≤ regEnd)

/-- `GET` without the host's registers: the cached word, or a one-word READ that fills the entry (R166). -/
def getWord (address : Word) (s : State) : Res Word :=
  if addressOk address then
    match s.cached address.toNat with
    | some w => .ok w s
    | none =>
      (transferRd (byteForm address) 2 s).andThen fun d s =>
        .ok (firstWord d) (s.cacheWord address.toNat (firstWord d))
  else .err (.invalidArgument 1) s

/-- `T_VERIFY` (00_scope.md R8). -/
def verifyDelay : Nat := 1000

/-- The end of `SET` once the read-back is there: the warning on a mismatch, and the observed word cached (R167). -/
def State.settleVerify (s : State) (address value observed : Word) : State :=
  let s := if observed ≠ value then (s.setRes (s.res.integrity observed)).record (.integrity observed) else s
  s.cacheWord address.toNat observed

/-- `SET`: write, wait, read back from the tag, compare, cache what was observed (R167). -/
def setWord (address value : Word) (s : State) : Res Unit :=
  if addressOk address then
    (transferWr (byteForm address) 2 (be16 value) s).andThen fun _ s =>
    (transferRd (byteForm address) 2 (waitMs verifyDelay s)).andThen fun d s =>
    .ok () (s.settleVerify address value (firstWord d))
  else .err (.invalidArgument 1) s

/-- `CHUNK` (00_scope.md R8). -/
def chunk : Nat := 100

/-- `PREFETCH`'s loop from the register `start` (R168). Each turn moves `start` up, so as many turns as there are
registers are enough. -/
def prefetchFrom : Nat → Nat → State → Res Unit
  | 0, _, s => .ok () s
  | turns + 1, start, s =>
    if start ≤ regEnd then
      let m := min chunk (regEnd - start + 1)
      (transferRd (BitVec.ofNat 16 (2 * start)) (BitVec.ofNat 16 (2 * m)) s).andThen fun d s =>
        prefetchFrom turns (start + m) (s.cacheWords start (wordsOf d))
    else .ok () s

/-- `GET address` (R166). -/
def execGet (address : Word) (s : State) : Host.Outcome State Fault Refusal :=
  operate (fun s => (getWord address s).andThen fun w s => .ok (some (.word w)) s) s

/-- `SET address, value` (R167). -/
def execSet (address value : Word) (s : State) : Host.Outcome State Fault Refusal :=
  operate (fun s => (setWord address value s).andThen fun _ s => .ok none s) s

/-- `PREFETCH` (R168). -/
def execPrefetch (s : State) : Host.Outcome State Fault Refusal :=
  operate (fun s => (prefetchFrom (regEnd + 1) 0 s).andThen fun _ s => .ok none s) s

/-- `CRESET`: every entry becomes none (R169). -/
def execCreset (s : State) : Host.Outcome State Fault Refusal :=
  operate (fun s => .ok none (s.setCache [])) s

end Sys2Proof.Machine
end

