-- ==== Sys2Proof/Machine/Codec.lean ====
section
/-! DEFINITION. The fixed-point codec (spec/40_codec.md): `ENC`, `DEC`, `VALID` for temperature and humidity. -/

namespace Sys2Proof.Machine

/-- `round(x) = floor(x + 1/2)`, ties toward plus infinity (R112, D16). -/
def roundHalfUp (x : Rat) : Int := (x + 1 / 2).floor

/-- `ENC.T` of a real (R113): the clamp to [-30, 70], then the code. -/
def encodeTempReal (value : Rat) : Word :=
  let v : Rat := if value > 70 then 70 else if value < -30 then -30 else value
  if v ≥ 0 then BitVec.ofInt 16 (roundHalfUp (v * 32)) else BitVec.ofInt 16 (roundHalfUp (v * 32) + 8192)

/-- `ENC.T`: the clamp covers every real bound, so it covers the infinities; a NaN has no code (U5; assumption 17). -/
def encodeTemp : HostReal → Option Word
  | .real q => some (encodeTempReal q)
  | .posInf => some (encodeTempReal 70)
  | .negInf => some (encodeTempReal (-30))
  | .nan => none

/-- `ENC.H` of a real (R114): the clamp above 100; a negative value has no code. -/
def encodeHumReal (value : Rat) : Option Word :=
  let v : Rat := if value > 100 then 100 else value
  if v ≥ 0 then some (BitVec.ofInt 16 (roundHalfUp (v * 32))) else none

/-- `ENC.H`: plus infinity is clamped; minus infinity is negative; a NaN has no code (U4, U5; assumption 17). -/
def encodeHum : HostReal → Option Word
  | .real q => encodeHumReal q
  | .posInf => encodeHumReal 100
  | .negInf => none
  | .nan => none

/-- `DEC.T` (R115). -/
def decodeTemp (raw : Word) : Rat :=
  if raw.toNat ≤ 2240 then (raw.toNat : Rat) / 32
  else if raw.toNat < 7232 then 70
  else if raw.toNat < 8192 then ((raw.toNat : Rat) - 8192) / 32
  else 0

/-- `DEC.H` (R116). -/
def decodeHum (raw : Word) : Rat :=
  if raw.toNat ≤ 3200 then (raw.toNat : Rat) / 32 else 0

/-- `VALID.T` of a real (R117). -/
def validTemp (value : Rat) : Bool := decide (-30 ≤ value ∧ value ≤ 70)

/-- `VALID.H` of a real (R118). -/
def validHum (value : Rat) : Bool := decide (0 ≤ value ∧ value ≤ 100)

/-- `VALID` of a host operand: what is no real has no verdict (U5; assumption 17). -/
def validOperand (valid : Rat → Bool) : HostReal → Option Bool
  | .real q => some (valid q)
  | .posInf => none
  | .negInf => none
  | .nan => none

/-- `DEC.ch`, as the log decoder calls it. -/
def decodeValue : Channel → Word → Rat
  | .temperature => decodeTemp
  | .humidity => decodeHum

/-- `VALID.ch`, as the log decoder calls it. -/
def validValue : Channel → Rat → Bool
  | .temperature => validTemp
  | .humidity => validHum

/-- A value to the host, or `InvalidArgument(3)` for an operand outside the function's domain (U4; assumption 17). -/
def domainResult (v : Option OpResult) (s : State) : Res (Option OpResult) :=
  match v with
  | some r => .ok (some r) s
  | none => .err (.invalidArgument 3) s

/-- `ENC.T` (R113). -/
def execEncT (value : HostReal) (s : State) : Host.Outcome State Fault Refusal :=
  operate (domainResult ((encodeTemp value).map .word)) s

/-- `ENC.H` (R114). -/
def execEncH (value : HostReal) (s : State) : Host.Outcome State Fault Refusal :=
  operate (domainResult ((encodeHum value).map .word)) s

/-- `DEC.T` (R115). -/
def execDecT (raw : Word) (s : State) : Host.Outcome State Fault Refusal :=
  operate (.ok (some (.real (decodeTemp raw)))) s

/-- `DEC.H` (R116). -/
def execDecH (raw : Word) (s : State) : Host.Outcome State Fault Refusal :=
  operate (.ok (some (.real (decodeHum raw)))) s

/-- `VALID.T` (R117). -/
def execValidT (value : HostReal) (s : State) : Host.Outcome State Fault Refusal :=
  operate (domainResult ((validOperand validTemp value).map .bool)) s

/-- `VALID.H` (R118). -/
def execValidH (value : HostReal) (s : State) : Host.Outcome State Fault Refusal :=
  operate (domainResult ((validOperand validHum value).map .bool)) s

end Sys2Proof.Machine
end

