-- ==== Sys2Proof/Machine/LogDecoder.lean ====
section
/-! DEFINITION. The log-area decoder (spec/44_log_decoder.md): `MODE`, `DEC`, `DECLOG`. -/

namespace Sys2Proof.Machine

/-- The roles of a log word (R183). -/
inductive Role where
  | value | tlow | thigh
  deriving DecidableEq, Repr

/-- `role(mode, i)` (R183). Mode 0 has no records and is refused before any word (R182). -/
def role (mode : BitVec 2) (i : Nat) : Role :=
  if mode = 1 then (if i % 2 = 0 then .tlow else .thigh)
  else if mode = 2 then .value
  else if i % 3 = 0 then .value
  else if i % 3 = 1 then .tlow
  else .thigh

/-- `SENTINEL` (00_scope.md R8). -/
def sentinel : Word := 0xFFFF

/-- `ts = (high << 16) | low` (30_encoding.md R96). -/
def timestampOf (hi lo : Word) : BitVec 32 := (hi.setWidth 32 <<< 16) ||| lo.setWidth 32

/-- A word enters the accumulator in its role (R186, R187). A high half without its low half cannot occur
(R187; assumption 30). -/
def Accumulator.take (acc : Accumulator) (ch : Channel) (r : Role) (w : Word) : Accumulator :=
  match r with
  | .value => if validValue ch (decodeValue ch w) then { acc with val := some (decodeValue ch w) } else acc
  | .tlow => { acc with lo := some w }
  | .thigh => { acc with hi := some w, ts := acc.lo.map (timestampOf w) }

/-- `complete(mode, acc)` (R188). -/
def Accumulator.complete (acc : Accumulator) (mode : BitVec 2) : Bool :=
  if mode = 1 then acc.ts.isSome
  else if mode = 2 then acc.val.isSome
  else acc.ts.isSome && acc.val.isSome

/-- One word looked at: it fills its field, and a complete point is emitted (R186 to R188, R193). -/
def Decoder.absorb (d : Decoder) (w : Word) : Decoder :=
  let acc := d.acc.take d.ch (role d.mode d.i) w
  if acc.complete d.mode then
    { d with i := d.i + 1, acc := Accumulator.empty, points := d.points ++ [{ timestamp := acc.ts, value := acc.val }] }
  else { d with i := d.i + 1, acc := acc }

/-- The scan (R190): it stops at the count (R185), at the sentinel (R184), and at the end of the words. -/
def Decoder.scan (d : Decoder) : List Word → Decoder
  | [] => d
  | w :: ws =>
    if (d.points.length : Int) ≥ d.count then d
    else if w = sentinel then d
    else (d.absorb w).scan ws

/-- The order of the sort: timestamps as unsigned integers, a missing one last (R189, D34). -/
def pointLe (p q : Point) : Bool :=
  match p.timestamp, q.timestamp with
  | some t, some u => decide (t.toNat ≤ u.toNat)
  | some _, none => true
  | none, some _ => false
  | none, none => true

/-- `stable_sort(points, key = timestamp ascending, none last)` (R189). Insertion from the right before the first point
not preceded: points with equal keys keep their order. -/
def sortPoints (ps : List Point) : List Point := ps.insertionSort (fun p q => pointLe p q = true)

/-- The configuration check, mode first (R182). -/
def configVerdict (mode : BitVec 2) (count : Int) : Option Err :=
  if mode = 0 then some (.configurationError 1)
  else if count ≤ 0 then some (.configurationError 2)
  else none

/-- The end of a decode: the accumulator is discarded and, in a mode with timestamps, the points are sorted (R189). -/
def Decoder.finish (d : Decoder) : Decoder :=
  { d with acc := Accumulator.empty, points := if d.mode.getLsbD 0 then sortPoints d.points else d.points }

/-- A decoder at the first word (R190). -/
def Decoder.start (ch : Channel) (mode : BitVec 2) (count : Int) : Decoder :=
  { ch := ch, mode := mode, count := count, i := 0, acc := Accumulator.empty, points := [] }

/-- `DEC ch, mode, count, W` without the host's registers (R190). -/
def decodeLog (ch : Channel) (mode : BitVec 2) (count : Int) (words : List Word) (s : State) : Res (List Point) :=
  match configVerdict mode count with
  | some e => .err e s
  | none =>
    let d := ((Decoder.start ch mode count).scan words).finish
    .ok d.points (s.setDec d)

/-- `mode` of the six bins' flags, bit `i` for bin `i` (R181, 30_encoding.md R98). -/
def modeOf (time sample : BitVec 6) : BitVec 2 :=
  (BitVec.ofBool (sample != 0)).setWidth 2 <<< 1 ||| (BitVec.ofBool (time != 0)).setWidth 2

/-- One flag of the six enable-flags words, bit `i` from word `i` (10_state.md R38). -/
def flagBits (bit : Fin 16) (flags : List Word) : BitVec 6 :=
  (flags.foldr (fun w acc => (acc <<< 1) ||| (BitVec.ofBool (w.getLsbD bit)).setWidth 6) 0)

/-- `GET` of several registers in order. -/
def getWords : List Word → State → Res (List Word)
  | [], s => .ok [] s
  | a :: as, s =>
    (getWord a s).andThen fun w s =>
    (getWords as s).andThen fun ws s => .ok (w :: ws) s

/-- The addresses of a channel's log area, ascending (R191). -/
def logAddresses (m : ChannelMap) : List Word :=
  (List.range m.logLen).map fun j => BitVec.ofNat 16 (m.logBase.toNat + j)

/-- `DECLOG ch` without the host's registers (R191): flags, count, configuration check, log area, decode. -/
def decodeArea (ch : Channel) (s : State) : Res (List Point) :=
  let m := s.par.map ch
  (getWords m.binFlags s).andThen fun flags s =>
  (getWords m.countRegs s).andThen fun countWords s =>
  let mode := modeOf (flagBits s.par.timeStoreBit flags) (flagBits s.par.sampleStoreBit flags)
  let count := s.par.sampleCount ch countWords
  match configVerdict mode count with
  | some e => .err e s
  | none => (getWords (logAddresses m) s).andThen fun words s => decodeLog ch mode count words s

/-- `MODE` alone: the reduction goes to the decoder's `mode` (R181; assumption 14). -/
def execMode (time sample : BitVec 6) (s : State) : Host.Outcome State Fault Refusal :=
  operate (fun s => .ok none (s.setDec { s.dec with mode := modeOf time sample })) s

/-- `DEC ch, mode, count, W` (R190). -/
def execDec (ch : Channel) (mode : BitVec 2) (count : Int) (words : List Word) (s : State) :
    Host.Outcome State Fault Refusal :=
  operate (fun s => (decodeLog ch mode count words s).andThen fun ps s => .ok (some (.points ps)) s) s

/-- `DECLOG ch` (R191). -/
def execDeclog (ch : Channel) (s : State) : Host.Outcome State Fault Refusal :=
  operate (fun s => (decodeArea ch s).andThen fun ps s => .ok (some (.points ps)) s) s

end Sys2Proof.Machine
end

