-- ==== Sys2Proof/Machine/System.lean ====
section
/-! DEFINITION. The operations on the block itself (spec/60_exceptions.md R227): `NOP`, and the hardware reset
(spec/70_reset_and_hazards.md R235). `CRESET` stands with the cache. -/

namespace Sys2Proof.Machine

/-- `NOP`: `status` becomes 0 and `warn` 0, nothing else changes (30_encoding.md R101). -/
def execNop (s : State) : Host.Outcome State Fault Refusal := .next (s.setRes s.res.nop)

/-- A hardware reset, in whatever phase it arrives (R235, R236): every piece of the block's state at its reset value, the
tag untouched, no tag I/O. The host's waiting requests, the environment's events and the records of the outside
are not the block's, and stay (assumption 11). -/
def hardReset (s : State) : State :=
  (((s.setEng Engine.reset).setCache []).setDec Decoder.reset).setRes ResultRegs.reset

end Sys2Proof.Machine
end

