-- ==== Sys2Proof/Machine/Dispatch.lean ====
section
/-! DEFINITION. One arm per instruction: its meaning. -/

namespace Sys2Proof.Machine

def exec (i : Instr) (s : State) : Host.Outcome State Fault Refusal :=
  match i with
  | .nop => Sys2Proof.Machine.execNop s
  | .xferRd B Lb => Sys2Proof.Machine.execXferRd B Lb s
  | .xferWr B Lb data => Sys2Proof.Machine.execXferWr B Lb data s
  | .get address => Sys2Proof.Machine.execGet address s
  | .set address value => Sys2Proof.Machine.execSet address value s
  | .prefetch => Sys2Proof.Machine.execPrefetch s
  | .creset => Sys2Proof.Machine.execCreset s
  | .declog ch => Sys2Proof.Machine.execDeclog ch s
  | .dec ch mode count words => Sys2Proof.Machine.execDec ch mode count words s
  | .encT value => Sys2Proof.Machine.execEncT value s
  | .encH value => Sys2Proof.Machine.execEncH value s
  | .decT raw => Sys2Proof.Machine.execDecT raw s
  | .decH raw => Sys2Proof.Machine.execDecH raw s
  | .validT value => Sys2Proof.Machine.execValidT value s
  | .validH value => Sys2Proof.Machine.execValidH value s
  -- the id bit of a command word is what the attempt stages, not an operand (assumption 15)
  | .hsRd _ a n => Sys2Proof.Machine.execHsRd a n s
  | .hsWr _ a n data => Sys2Proof.Machine.execHsWr a n data s
  | .rplAck id => Sys2Proof.Machine.execRplAck id s
  | .rplNack id => Sys2Proof.Machine.execRplNack id s
  | .chk B Lb => Sys2Proof.Machine.execChk B Lb s
  | .retry op => Sys2Proof.Machine.execRetry op s
  | .mode time sample => Sys2Proof.Machine.execMode time sample s

end Sys2Proof.Machine
end

