-- ==== Sys2Proof/Machine/Abandon.lean ====
section
/-! DEFINITION. A frame taken from the port, and a hardware reset that arrives before its operation has ended
(spec/70_reset_and_hazards.md R236). -/

namespace Sys2Proof.Machine

/-! ### A frame from the port -/

/-- What the block does with a frame that is no instruction: a reserved HOP word is `InvalidArgument(3)` (30_encoding.md
R102); `XFER.WR` with a number of data bytes other than `Lb` is `InvalidArgument`, for an odd address before the length
(60_exceptions.md R214; assumption 21); a reply code that is neither ACK nor NACK gets P5's verdict (R93); a command frame
no rule describes is refused (R92; assumption 25). -/
def undecoded (f : Frame) (e : DecodeError) (s : State) : Host.Outcome State Fault Refusal :=
  match f, e with
  | .reply id code, _ => operate (replyRead id code) s
  | .command _, _ => .refused .commandOutsideSpec
  | .hop _ ops, .dataLength => rejectRequest (if ops.B.toNat % 2 ≠ 0 then 1 else 2) s
  | .hop _ _, _ => rejectRequest 3 s

/-- A frame taken from the port. -/
def runFrame (f : Frame) (s : State) : Host.Outcome State Fault Refusal :=
  match decode s.par f with
  | .ok i => exec i s
  | .error e => undecoded f e s

/-! ### A reset in the middle of an operation -/

/-- A transaction the transport fails, the firmware doing nothing: it leaves the tag as it is. -/
def deadEvent : EnvEvent := { tag := [], ok := false, landed := [], reached := false }

/-- The event of the transaction after `j` more: the script's, or a free one. -/
def State.eventAt (s : State) (j : Nat) : EnvEvent := s.env.script.getD j (Config.freeEvent (s.env.taken + j))

/-- `s` with only `k` more transactions to reach the tag: the next `k` events as they are, then dead ones. An operation's
retry wrapper gives up after three, and nothing else goes on past a failed transaction, so three are enough. -/
def State.cutOff (s : State) (k : Nat) : State :=
  s.setEnv { s.env with script := (List.range k).map s.eventAt ++ List.replicate 3 deadEvent }

/-- `s` after a hardware reset that arrives when `k` transactions of the operation in `f` are done, or at its end if it makes
fewer. What the operation has done outside the block up to there is what it does when no later transaction reaches the
tag: the tag as that run leaves it, `k` events taken, the calls and records of the dead transactions taken out again. Of
the block itself nothing remains (R235), and no later transaction is made (R236). -/
def abandon (f : Frame) (k : Nat) (s : State) : Host.Outcome State Fault Refusal :=
  match runFrame f (s.cutOff k) with
  | .next t =>
    let dead := t.env.taken - s.env.taken - k
    let done := t.env.taken - s.env.taken - dead
    let records := min dead (t.log.length - s.log.length)
    .next (hardReset { t with
      env := { script := s.env.script.drop done, taken := s.env.taken + done }
      bus := t.bus.drop dead
      log := t.log.drop records })
  | .fault r => .fault r
  | .refused r => .refused r

end Sys2Proof.Machine
end

