-- ==== Sys2Proof/Machine/Step.lean ====
section
/-! DEFINITION. One step of the machine: the next request at the host port (spec/30_encoding.md R100, R103). -/

namespace Sys2Proof.Machine

/-- One step. With nothing requested the block waits in IDLE (70_reset_and_hazards.md R235); a reset is taken at once
(R235); a request that finds `busy` set waits (43_register_cache.md R165; assumption 3); else the oldest request leaves
the port and runs whole (assumption 2), or until the reset that cuts it off (R236; assumption 11). -/
def step (s : State) : Host.Outcome State Fault Refusal :=
  match s.port with
  | [] => .next s
  | .reset :: rest => .next (hardReset (s.setPort rest))
  | .run f :: rest => if s.res.busy then .next s else runFrame f (s.setPort rest)
  | .cut f k :: rest => if s.res.busy then .next s else abandon f k (s.setPort rest)

/-- `s` with the instruction of a table word as the next request at the port, and the block free to take it. -/
def State.withFetchWord (s : State) (nbits w : Nat) : State :=
  match tableFrame nbits w with
  | some f => (s.setPort (.run f :: s.port)).setRes { s.res with busy := false }
  | none => s

end Sys2Proof.Machine
end

