-- ==== Sys2Proof/Safety.lean ====
section
/-! DEFINITION. What the statements about RT0013-PE are said with: the invariant between operations, the closed forms of a state
an operation leaves, and the environments a statement assumes (spec/20_memory.md R66 makes them premises). -/

namespace Sys2Proof.Machine

/-! ### The invariant between operations -/

/-- What holds whenever no operation is in progress. -/
structure State.Inv (s : State) : Prop where
  /-- The parameters meet the spec's constraints (00_scope.md R9, 20_memory.md R57, R58). -/
  par : s.par.valid = true
  /-- Bank memory is in its canonical form. -/
  mem : Memory.wf s.tag.mem
  /-- The tag's registers are in their canonical form, none above `0x1089` (10_state.md R35). -/
  regs : WordMap.regsWf s.par s.tag.regs
  /-- The cache holds entries of the register space only, in order (R29). -/
  cache : WordMap.wf s.cache
  /-- `dbuf` has 400 bytes (R26). -/
  dbuf : s.eng.dbuf.length = 400
  /-- `attempt` never exceeds 3 (R24). -/
  attempt : s.eng.attempt ≤ 3
  /-- `idmsg` is 0 or 1 (R22). -/
  idmsg : s.eng.idmsg = 0 ∨ s.eng.idmsg = 1
  /-- The sequencer is in IDLE (R23). -/
  phase : s.eng.phase = .idle
  /-- The block is not busy (R28). -/
  busy : s.res.busy = false

/-! ### The state an operation leaves when it changes nothing but the result registers -/

/-- `s` after an operation that ended with this value (60_exceptions.md R205). -/
def State.ended (s : State) (v : OpResult) : State :=
  { s with
    eng := { s.eng with phase := .idle }
    res := { status := .ok, info := 0, warn := false, busy := false, result := v } }

/-- `s` after an operation that ended with this error (R205, R215). -/
def State.failed (s : State) (status : Status) (info : Word) : State :=
  { s with
    eng := { s.eng with phase := .idle }
    res := { status := status, info := info, warn := false, busy := false, result := s.res.result } }

/-- What a hardware reset leaves of the block as far as the spec gives it (70_reset_and_hazards.md R235). -/
structure State.BlockReset (s : State) : Prop where
  phase : s.eng.phase = .idle
  busy : s.res.busy = false
  status : s.res.status = .ok
  warn : s.res.warn = false
  cache : ∀ a, s.cached a = none

/-! ### Environments -/

/-- A transaction that completes, the firmware doing nothing before it. -/
def quietEvent : EnvEvent := { tag := [], ok := true, landed := [], reached := false }

/-- A transaction that completes, the firmware having answered the command in flight before it. -/
def answeredEvent (id code : Byte) : EnvEvent :=
  { tag := [.run id code], ok := true, landed := [], reached := false }

/-- A READ attempt the firmware answers in time: P1, P2, P3, P5, P6. -/
def readScript (id code : Byte) : List EnvEvent :=
  [quietEvent, quietEvent, quietEvent, answeredEvent id code, quietEvent]

/-- A WRITE attempt the firmware answers in time: P1, P2, P2B, P3, P5. -/
def writeScript (id code : Byte) : List EnvEvent :=
  [quietEvent, quietEvent, quietEvent, quietEvent, answeredEvent id code]

/-- As many READ attempts answered with ACK, the first with this id and the ids alternating (41_handshake.md R142). -/
def readScripts : Byte → Nat → List EnvEvent
  | _, 0 => []
  | id, k + 1 => readScript id ackCode ++ readScripts (nextId id) k

/-- The id byte of the reply slot as it stands. -/
def State.replyId (s : State) : Byte := (readBytes s.tag.mem s.par.miBank (replyOffset s.par) 2).getD 0 0

/-! ### The tag along one attempt, for given actions of the firmware before each transaction -/

/-- Bytes the engine has written into the mailbox. -/
def Tag.staged (t : Tag) (p : Params) (offset : Word) (bytes : List Byte) : Tag :=
  { t with mem := writeBytes t.mem p.miBank offset bytes }

/-- The bytes of the mailbox from an offset. -/
def Tag.mailbox (t : Tag) (p : Params) (offset : Word) (len : Nat) : List Byte := readBytes t.mem p.miBank offset len

/-- The tag after P3 of a READ of `n` words at `a`, the firmware acting `f1`, `f2`, `f3` before P1, P2, P3. -/
def Tag.afterReadTrigger (p : Params) (a n : Word) (f1 f2 f3 : List TagAction) (t : Tag) : Tag :=
  let t1 := t.acts p f1
  let id := nextId ((t1.mailbox p (replyOffset p) 2).getD 0 0)
  (((t1.acts p f2).staged p (paramOffset p) (paramBlock id p.cmdRead a n)).acts p f3).trigger p

/-- The tag after P3 of a WRITE, the firmware acting before P1, P2, P2B, P3. -/
def Tag.afterWriteTrigger (p : Params) (a n : Word) (data : List Byte) (f1 f2 f3 f4 : List TagAction) (t : Tag) : Tag :=
  let t1 := t.acts p f1
  let id := nextId ((t1.mailbox p (replyOffset p) 2).getD 0 0)
  let t2 := (t1.acts p f2).staged p (paramOffset p) (paramBlock id p.cmdWrite a n)
  (((t2.acts p f3).staged p (dataOffset p) data).acts p f4).trigger p

/-! ### Frames -/

/-- Two frames carry the same word: equal, but for the operand lines beside a HOP word. -/
def sameWord : Frame → Frame → Prop
  | .hop w _, .hop w' _ => w = w'
  | .command b, .command b' => b = b'
  | .reply i c, .reply i' c' => i = i' ∧ c = c'
  | .hop _ _, .command _ | .hop _ _, .reply _ _ | .command _, .hop _ _ | .command _, .reply _ _
  | .reply _ _, .hop _ _ | .reply _ _, .command _ => False

/-! ### Classes of instructions and of bus events -/

/-- The host operations: the instructions with a HOP word (30_encoding.md R100). -/
def hostOp : Instr → Bool
  | .hsRd _ _ _ | .hsWr _ _ _ _ | .rplAck _ | .rplNack _ | .chk _ _ | .retry _ | .mode _ _ => false
  | .nop | .xferRd _ _ | .xferWr _ _ _ | .get _ | .set _ _ | .prefetch | .creset | .declog _ | .dec _ _ _ _
  | .encT _ | .encH _ | .decT _ | .decH _ | .validT _ | .validH _ => true

/-- The instructions that make no transport call (40_codec.md R110, 43_register_cache.md R169, 44_log_decoder.md R190). -/
def localOp : Instr → Bool
  | .nop | .creset | .dec _ _ _ _ | .encT _ | .encH _ | .decT _ | .decH _ | .validT _ | .validH _ | .chk _ _
  | .mode _ _ => true
  | .xferRd _ _ | .xferWr _ _ _ | .get _ | .set _ _ | .prefetch | .declog _ | .hsRd _ _ _ | .hsWr _ _ _ _
  | .rplAck _ | .rplNack _ | .retry _ => false

/-- The operations that write `cache` (10_state.md R30), `DECLOG` through the `GET`s it makes (44_log_decoder.md R191). -/
def cacheOp : Instr → Bool
  | .get _ | .set _ _ | .prefetch | .creset | .declog _ => true
  | .nop | .xferRd _ _ | .xferWr _ _ _ | .dec _ _ _ _ | .encT _ | .encH _ | .decT _ | .decH _ | .validT _
  | .validH _ | .hsRd _ _ _ | .hsWr _ _ _ _ | .rplAck _ | .rplNack _ | .chk _ _ | .retry _ | .mode _ _ => false

/-- The bus events 20_memory.md R63 allows: reads of the reply slot, of the trigger location and of the data slot, writes of
the six-byte parameter slot and of the data slot, and waits. -/
def BusEvent.allowed (p : Params) : BusEvent → Prop
  | .read bank offset len _ =>
    (bank = p.miBank ∧ offset = replyOffset p ∧ len = 2) ∨
    (bank = p.trigBank ∧ offset = p.trigOffset ∧ len = 4) ∨
    (bank = p.miBank ∧ offset = dataOffset p ∧ len ≤ 400 ∧ len % 2 = 0)
  | .write bank offset bytes _ =>
    (bank = p.miBank ∧ offset = paramOffset p ∧ bytes.length = 6) ∨
    (bank = p.miBank ∧ offset = dataOffset p ∧ bytes.length ≤ 400)
  | .wait _ => True

/-- Whether a bus event is a transport call. -/
def BusEvent.isCall : BusEvent → Bool
  | .read _ _ _ _ | .write _ _ _ _ => true
  | .wait _ => false

/-- The transport calls of a trace. -/
def busCalls (b : List BusEvent) : Nat := (b.filter BusEvent.isCall).length

/-- A byte of bank space outside the slots an attempt of `n` words writes: the parameter slot and, of a WRITE, its data. -/
def outsideWrites (p : Params) (kind : Kind) (n : Word) (addr : Nat) : Prop :=
  (∀ k < 6, addr ≠ bankAddr p.miBank (paramOffset p) + k) ∧
  (kind = .wr → ∀ k < byteCount n, addr ≠ bankAddr p.miBank (dataOffset p) + k)

/-- A byte of bank space outside what a firmware writes in answering commands of at most `m` words: the reply slot, and the first
`2m` bytes of the data slot (20_memory.md R66 b, c). -/
def outsideAnswers (p : Params) (m : Nat) (addr : Nat) : Prop :=
  (∀ k < 2, addr ≠ bankAddr p.miBank (replyOffset p) + k) ∧ (∀ k < 2 * m, addr ≠ bankAddr p.miBank (dataOffset p) + k)

/-- Whether the firmware finishes a command in one of these events. -/
def answersIn (script : List EnvEvent) : Prop := ∃ e ∈ script, ∃ id code, TagAction.run id code ∈ e.tag

/-- Whether the firmware pokes bank memory in one of these events, beside answering. -/
def pokesIn (script : List EnvEvent) : Prop := ∃ e ∈ script, ∃ bank offset value, TagAction.poke bank offset value ∈ e.tag

/-! ### Log areas -/

/-- A log record of mode 3: a value word, a low and a high timestamp half (30_encoding.md R97). -/
structure LogGroup where
  value : Word
  low : Word
  high : Word
  deriving DecidableEq, Repr

/-- The words a record occupies in a mode (R97). -/
def LogGroup.words (mode : BitVec 2) (g : LogGroup) : List Word :=
  if mode = 1 then [g.low, g.high] else if mode = 2 then [g.value] else [g.value, g.low, g.high]

/-- The point a record stands for in a mode (R180, R187, R188). -/
def LogGroup.point (ch : Channel) (mode : BitVec 2) (g : LogGroup) : Point :=
  { timestamp := if mode = 2 then none else some (BitVec.ofNat 32 (g.high.toNat * 65536 + g.low.toNat))
    value := if mode = 1 then none else match ch with
      | .temperature => some (decodeTemp g.value)
      | .humidity => some (decodeHum g.value) }

/-- Points rise by their timestamps, read as unsigned integers; every one has a timestamp (44_log_decoder.md R189, R190 h). -/
def RisingPoints (ps : List Point) : Prop :=
  ps.Pairwise (fun p q => ∃ t u, p.timestamp = some t ∧ q.timestamp = some u ∧ t.toNat ≤ u.toNat) ∧
    ∀ p ∈ ps, p.timestamp ≠ none

/-- `found` sorted by timestamp, points with equal timestamps in their order (R189). -/
def SortedFrom (found ps : List Point) : Prop :=
  RisingPoints ps ∧ ps.length = found.length ∧
    ∀ ts, ps.filter (fun p => p.timestamp = ts) = found.filter (fun p => p.timestamp = ts)

/-! ### The inputs of `DECLOG` (44_log_decoder.md R191) -/

/-- Whether a bit is set in one of the words of some registers. -/
def anyBit (word : Word → Word) (registers : List Word) (bit : Fin 16) : Prop :=
  ∃ a ∈ registers, (word a).toNat / 2 ^ bit.val % 2 = 1

/-- `mode` as the enable-flags words give it: bit 0 for the time flags, bit 1 for the sample flags (R181, R191). -/
def flagsMode (p : Params) (ch : Channel) (word : Word → Word) (mode : BitVec 2) : Prop :=
  (mode.getLsbD 0 = true ↔ anyBit word (p.map ch).binFlags p.timeStoreBit) ∧
    (mode.getLsbD 1 = true ↔ anyBit word (p.map ch).binFlags p.sampleStoreBit)

/-- `W[j]` is the word at `LOG_BASE[ch] + j`, `j` from 0 to `LOG_LEN[ch] - 1` (R191). -/
def areaWords (m : ChannelMap) (word : Word → Word) : List Word :=
  (List.range m.logLen).map (fun j => word (BitVec.ofNat 16 (m.logBase.toNat + j)))

/-- The length of a group (R97). -/
def groupLength (mode : BitVec 2) : Nat := if mode = 1 then 2 else if mode = 2 then 1 else 3

end Sys2Proof.Machine
end

