-- ==== Sys2Proof/Certificates/Slice0/Obligations.lean ====
section
/-! DEFINITION. The statements about the model, each with the rule of the spec it rests on. -/

open Sys2Proof Sys2Proof.Machine

/-! ### Encoding -/

/-- Decoding what a well-formed instruction encodes to gives it back (30_encoding.md R80 to R90, R100). The operand lines
beside a HOP word are the model's form (assumption 1). -/
def Obligations.DecodeInvertsEncode : Prop :=
  ∀ (p : Params) (i : Instr) (f : Frame), p.valid = true → i.wf = true → encode p i = some f → decode p f = .ok i

/-- Every frame that decodes carries the word its instruction encodes to: no word has two meanings (R80 to R90, R100). -/
def Obligations.EncodeInvertsDecode : Prop :=
  ∀ (p : Params) (f : Frame) (i : Instr), decode p f = .ok i → ∃ g, encode p i = some g ∧ sameWord f g

/-- A few words written out from the spec: 95_test_vectors.md P-A, P-B, 3.3, 3.4, P-E. -/
def Obligations.SpecWordsDecode : Prop :=
  decode Config.fixtureParams (.hop 0x30 { address := 0x0010 }) = .ok (.get 0x0010) ∧
  decode Config.fixtureParams (.hop 0x40 { address := 0x0020, value := 0x1234 }) = .ok (.set 0x0020 0x1234) ∧
  decode Config.fixtureParams (.command [0x01, 0x01, 0x00, 0x10, 0x00, 0x02]) = .ok (.hsRd 1 0x0010 2) ∧
  decode Config.fixtureParams (.command [0x00, 0x02, 0x01, 0x00, 0x00, 0x02, 0xAA, 0xBB, 0xCC, 0xDD]) =
    .ok (.hsWr 0 0x0100 2 [0xAA, 0xBB, 0xCC, 0xDD]) ∧
  decode Config.fixtureParams (.reply 0x01 0xFC) = .ok (.rplNack 0x01) ∧
  decodeTableWord 8 0x71 = some (.declog .humidity)

/-- The parameter block is id, command code, address and size, each field high byte first; with at most 200 words byte 4
is 0 (R85, 20_memory.md R59). -/
def Obligations.ParameterBlockBytes : Prop :=
  ∀ (id cmd : Byte) (a n : Word),
    paramBlock id cmd a n =
      [id, cmd, BitVec.ofNat 8 (a.toNat / 256), BitVec.ofNat 8 a.toNat, BitVec.ofNat 8 (n.toNat / 256),
        BitVec.ofNat 8 n.toNat] ∧
    (n.toNat ≤ 200 → BitVec.ofNat 8 (n.toNat / 256) = 0)

/-! ### The step and the host port -/

/-- A step runs the instruction the oldest request decodes to, that request taken from the port; with nothing requested the
block waits (70_reset_and_hazards.md R235); a request that finds `busy` set waits and is not refused (43_register_cache.md
R165). That the port is a queue whose items may also be command frames and reply words, and that an operation is one step, is
the model's choice (assumptions 1, 2); that the waiting request stays in the queue is its reading of R165 (assumption 3). -/
def Obligations.StepRunsDecodedRequest : Prop :=
  (∀ (s : State) (f : Frame) (rest : List Request) (i : Instr),
    s.port = .run f :: rest → s.res.busy = false → decode s.par f = .ok i → step s = exec i (s.setPort rest)) ∧
  (∀ s : State, s.port = [] → step s = .next s) ∧
  (∀ (s : State) (f : Frame) (rest : List Request), s.port = .run f :: rest → s.res.busy = true → step s = .next s)

/-- A reserved HOP word (`op` 0xC to 0xF, a bit of 3 to 1 set, or bit 0 set where there is no channel) is answered with
`InvalidArgument` 3 and changes nothing else but the result registers and `phase` (R102, 60_exceptions.md R206, R207). That
`warn` is then 0, as after an operation, is the model's choice (assumption 36). -/
def Obligations.ReservedHopWordIsInvalidArgument : Prop :=
  ∀ (s : State) (w : Byte) (ops : Operands) (rest : List Request),
    s.port = .run (.hop w ops) :: rest → s.res.busy = false →
    (w.toNat / 16 ≥ 0xC ∨ w.toNat / 2 % 8 ≠ 0 ∨ (w.toNat % 2 = 1 ∧ ¬ (7 ≤ w.toNat / 16 ∧ w.toNat / 16 ≤ 0xB))) →
    step s = .next ((s.setPort rest).failed .invalidArgument 3)

/-- A reply word with a code that is neither ACK nor NACK is a `ProtocolTimeout`, by its id first (R93, 41_handshake.md
R136). That such a word stands at the port is the model's form (assumption 16). -/
def Obligations.ReservedReplyCodeIsTimeout : Prop :=
  ∀ (s : State) (id code : Byte) (rest : List Request),
    s.port = .run (.reply id code) :: rest → s.res.busy = false → code ≠ 0xAC → code ≠ 0xFC →
    step s = .next ((s.setPort rest).failed .protocolTimeout (if id = s.eng.idmsg then 2 else 1))

/-- A hardware reset leaves IDLE, `busy` 0, `status` 0, `warn` 0 and an empty cache, and makes no transport call: between
operations the tag is as it was, the command in flight included; one that arrives when `k` transactions of an operation are
done lets no further one take place; one that arrives between P3 and P5 of a READ attempt leaves the tag as P3 left it, the
command in flight (70_reset_and_hazards.md R235, R236; 10_state.md R43). That a reset is an item of the port, alone or with
the operation it cuts off, that it is taken even while `busy` is set, and that the waiting requests, the record lists and the
parameters survive it is the model's choice (assumption 11). -/
def Obligations.HardwareReset : Prop :=
  (∀ (s : State) (rest : List Request), s.port = .reset :: rest →
    ∃ t, step s = .next t ∧ t.port = rest ∧ t.BlockReset ∧ t.tag = s.tag ∧ t.env = s.env ∧ t.bus = s.bus ∧ t.log = s.log ∧
      t.par = s.par) ∧
  (∀ (s : State) (f : Frame) (k : Nat) (rest : List Request) (i : Instr), s.port = .cut f k :: rest → s.res.busy = false →
    decode s.par f = .ok i →
    ∃ t, step s = .next t ∧ t.port = rest ∧ t.BlockReset ∧ t.par = s.par ∧ t.env.taken ≤ s.env.taken + k) ∧
  (∀ (s : State) (f : Frame) (rest : List Request) (i : BitVec 1) (a n : Word) (e1 e2 e3 : EnvEvent)
    (later : List EnvEvent), s.port = .cut f 3 :: rest → s.res.busy = false → decode s.par f = .ok (.hsRd i a n) →
    s.env.script = e1 :: e2 :: e3 :: later → (∀ e ∈ [e1, e2, e3], e.ok = true) →
    ∃ t, step s = .next t ∧ t.tag = s.tag.afterReadTrigger s.par a n e1.tag e2.tag e3.tag ∧ t.tag.pending ≠ none ∧
      t.env = { script := later, taken := s.env.taken + 3 } ∧ busCalls t.bus = busCalls s.bus + 3 ∧ t.log = s.log)

/-! ### Invariants -/

/-- The state after reset meets the invariant, and a word of a log area that nothing has written holds `0xFFFF` (10_state.md
R39, R43; the values of unspecified registers are the model's, assumption 10). -/
def Obligations.ResetMeetsInvariant : Prop :=
  State.reset.Inv ∧
  ∀ (ch : Channel) (j : Nat), j < (State.reset.par.map ch).logLen →
    readReg State.reset.par State.reset.tag.regs ((State.reset.par.map ch).logBase.toNat + j) = 0xFFFF

/-- Every step keeps the invariant: legal parameters, canonical memories, a 400-byte buffer, at most 3 attempts, an id of 0
or 1, and the block idle between operations (10_state.md R22 to R29, R35; 42_transfer_retry.md R151). -/
def Obligations.StepKeepsInvariant : Prop :=
  ∀ s t : State, s.Inv → step s = .next t → t.Inv

/-- No step changes the parameters (00_scope.md R9, 10_state.md R42), and none but the next request leaves the port. The clause on
the port is the model's choice and no rule of the spec: that the port is a queue (assumption 1), and that the requests waiting
there survive a hardware reset (assumption 11). -/
def Obligations.StepKeepsParametersAndPort : Prop :=
  ∀ s t : State, step s = .next t → t.par = s.par ∧ (t.port = s.port ∨ t.port = s.port.tail)

/-- A step stops only on a command frame that is no HS.RD or HS.WR: every other step answers a next state. That such a frame can
stand at the port and is refused by the name `commandOutsideSpec`, for another command code (R92, 93_implementation_defined.md
U2) and as well for another id byte or a length that does not fit, is the model's choice (assumption 25). -/
def Obligations.StepStopsOnlyOnForeignCommand : Prop :=
  ∀ s : State, (∃ t, step s = .next t) ∨
    (step s = .refused .commandOutsideSpec ∧ ∃ bytes rest e,
      (s.port = .run (.command bytes) :: rest ∨ ∃ k, s.port = .cut (.command bytes) k :: rest) ∧
      decode s.par (.command bytes) = .error e)

/-- The bank traffic of any well-formed instruction is that of 20_memory.md R63: the reply slot, the trigger location and
the data slot are read, the parameter slot and the data slot are written, and nothing else is touched (R50). -/
def Obligations.BankTrafficIsTheHandshakes : Prop :=
  ∀ (i : Instr) (s t : State), i.wf = true → s.eng.n.toNat ≤ 200 → exec i s = .next t →
    ∃ events, t.bus = events ++ s.bus ∧ ∀ e ∈ events, e.allowed s.par

/-! ### Errors -/

/-- Of the taxonomy only `InvalidArgument`, `CommunicationExhausted` and `ConfigurationError` reach the host
(60_exceptions.md R206, column "reaches the host"; 42_transfer_retry.md R152). -/
def Obligations.HostSeesOnlyCallerErrors : Prop :=
  ∀ (i : Instr) (s t : State), hostOp i = true → exec i s = .next t →
    t.res.status = .ok ∨ t.res.status = .invalidArgument ∨ t.res.status = .communicationExhausted ∨
      t.res.status = .configurationError

/-- An instruction that ends with an error writes no `result`, leaves `warn` 0 and `busy` 0 and `phase` in IDLE
(R205, R215). -/
def Obligations.ErrorEntry : Prop :=
  ∀ (i : Instr) (s t : State), exec i s = .next t → t.res.status ≠ .ok →
    t.res.result = s.res.result ∧ t.res.warn = false ∧ t.res.busy = false ∧ t.eng.phase = .idle

/-- `warn` is 1 only after a `SET` whose read-back differed: `status` is 0, `info` is the observed word, and that word is
what the cache now holds (R212, 43_register_cache.md R167). -/
def Obligations.WarningOnlyFromSet : Prop :=
  ∀ (i : Instr) (s t : State), exec i s = .next t → t.res.warn = true →
    ∃ address value, i = .set address value ∧ t.res.status = .ok ∧ t.res.info ≠ value ∧
      t.cached address.toNat = some t.res.info

/-! ### The argument check -/

/-- `CHK` for every address and length: odd address, then a length above 400, zero or odd, else `a = B / 2` and `n = Lb / 2`
(42_transfer_retry.md R150). That `CHK` run alone ends like a host operation, and that it leaves `result`, is the model's choice
(assumptions 14, 12). -/
def Obligations.ChkOutcomes : Prop :=
  ∀ (B Lb : Word) (s : State),
    exec (.chk B Lb) s = .next (
      if B.toNat % 2 = 1 then s.failed .invalidArgument 1
      else if Lb.toNat > 400 ∨ Lb.toNat = 0 ∨ Lb.toNat % 2 = 1 then s.failed .invalidArgument 2
      else { s with
        eng := { s.eng with phase := .idle, a := BitVec.ofNat 16 (B.toNat / 2), n := BitVec.ofNat 16 (Lb.toNat / 2) }
        res := { s.res with status := .ok, info := 0, warn := false, busy := false } })

/-- Operands that fail a check are `InvalidArgument` before any transport call, and only the result registers and `phase`
change: an odd byte address (1), a byte length above 400, zero or odd (2), a `GET` or `SET` of an address above `0x1089`
(1) (R150, R152, R153, 43_register_cache.md R170, 60_exceptions.md R207, R214). `XFER.WR` with a number of data bytes other
than `Lb` ends in the same way, an odd address first (R214); that this mismatch is a bad length, and that `warn` is then 0, is
the model's choice (assumptions 21, 36). -/
def Obligations.InvalidArgumentsMakeNoCall : Prop :=
  ∀ (B Lb address value : Word) (data : List Byte) (s : State),
    (B.toNat % 2 = 1 →
      ∀ i ∈ [Instr.xferRd B Lb, .xferWr B Lb data], exec i s = .next (s.failed .invalidArgument 1)) ∧
    (B.toNat % 2 = 0 → Lb.toNat > 400 ∨ Lb.toNat = 0 ∨ Lb.toNat % 2 = 1 →
      ∀ i ∈ [Instr.xferRd B Lb, .xferWr B Lb data], exec i s = .next (s.failed .invalidArgument 2)) ∧
    (address.toNat > 0x1089 →
      ∀ i ∈ [Instr.get address, .set address value], exec i s = .next (s.failed .invalidArgument 1)) ∧
    (∀ (ops : Operands) (rest : List Request), s.port = .run (.hop 0x20 ops) :: rest → s.res.busy = false →
      ops.data.length ≠ ops.Lb.toNat →
      step s = .next ((s.setPort rest).failed .invalidArgument (if ops.B.toNat % 2 = 1 then 1 else 2)))

/-! ### One attempt -/

/-- `HS.RD` with a transport that completes all five transactions, whatever the firmware does before each, and a reply slot
that shows the new id and ACK in P5: the whole next state, with the transactions in the order and at the places of
20_memory.md R63 and the settle delay of 41_handshake.md R135 (R130, R140). That an attempt run alone ends like a host
operation (`status` 0, `info` 0, `busy` 0) is the model's choice (assumption 14), and so is what one of 0 words does
(assumption 22). -/
def Obligations.HsRdCompletes : Prop :=
  ∀ (i : BitVec 1) (a n : Word) (s : State) (e1 e2 e3 e4 e5 : EnvEvent) (rest : List EnvEvent),
    n.toNat ≤ 200 → s.eng.dbuf.length = 400 → s.env.script = e1 :: e2 :: e3 :: e4 :: e5 :: rest →
    (∀ e ∈ [e1, e2, e3, e4, e5], e.ok = true) →
    let p := s.par
    let found := (s.tag.acts p e1.tag).mailbox p (replyOffset p) 2
    let id := nextId (found.getD 0 0)
    let t3 := s.tag.afterReadTrigger p a n e1.tag e2.tag e3.tag
    let t4 := t3.acts p e4.tag
    let t5 := t4.acts p e5.tag
    let d := t5.mailbox p (dataOffset p) (2 * n.toNat)
    t4.mailbox p (replyOffset p) 2 = [id, 0xAC] →
    ∃ ignored, exec (.hsRd i a n) s = .next { s with
      eng := { s.eng with
        idmsg := id, phase := .idle, kind := .rd, a := a, n := n, dbuf := d ++ s.eng.dbuf.drop (2 * n.toNat) }
      res := { status := .ok, info := 0, warn := false, busy := false, result := .bytes d }
      tag := t5
      env := { script := rest, taken := s.env.taken + 5 }
      bus := .read p.miBank (p.miBase + 8) (2 * n.toNat) (some d) ::
        .read p.miBank (p.miBase + 6) 2 (some [id, 0xAC]) ::
        .wait (100 + 7 * (n.toNat / 2 + 1)) ::
        .read p.trigBank p.trigOffset 4 (some ignored) ::
        .write p.miBank p.miBase (paramBlock id p.cmdRead a n) true ::
        .read p.miBank (p.miBase + 6) 2 (some found) :: s.bus }

/-- `HS.WR` likewise: the parameter slot, then the data slot, then the trigger, 400 ms, one reply read, and nothing after
ACK (R130, R133, R141, 20_memory.md R63). That an attempt run alone ends like a host operation and leaves `result` as it was,
and what one of 0 words does, is the model's choice (assumptions 14, 12, 22). -/
def Obligations.HsWrCompletes : Prop :=
  ∀ (i : BitVec 1) (a n : Word) (data : List Byte) (s : State) (e1 e2 e3 e4 e5 : EnvEvent) (rest : List EnvEvent),
    n.toNat ≤ 200 → data.length = 2 * n.toNat → s.eng.dbuf.length = 400 →
    s.env.script = e1 :: e2 :: e3 :: e4 :: e5 :: rest → (∀ e ∈ [e1, e2, e3, e4, e5], e.ok = true) →
    let p := s.par
    let found := (s.tag.acts p e1.tag).mailbox p (replyOffset p) 2
    let id := nextId (found.getD 0 0)
    let t4 := s.tag.afterWriteTrigger p a n data e1.tag e2.tag e3.tag e4.tag
    let t5 := t4.acts p e5.tag
    t5.mailbox p (replyOffset p) 2 = [id, 0xAC] →
    ∃ ignored, exec (.hsWr i a n data) s = .next { s with
      eng := { s.eng with
        idmsg := id, phase := .idle, kind := .wr, a := a, n := n, dbuf := data ++ s.eng.dbuf.drop (2 * n.toNat) }
      res := { s.res with status := .ok, info := 0, warn := false, busy := false }
      tag := t5
      env := { script := rest, taken := s.env.taken + 5 }
      bus := .read p.miBank (p.miBase + 6) 2 (some [id, 0xAC]) ::
        .wait 400 ::
        .read p.trigBank p.trigOffset 4 (some ignored) ::
        .write p.miBank (p.miBase + 8) data true ::
        .write p.miBank p.miBase (paramBlock id p.cmdWrite a n) true ::
        .read p.miBank (p.miBase + 6) 2 (some found) :: s.bus }

/-- P5's verdict on a READ and on a WRITE whose transactions up to P5 complete: a wrong id byte is `ProtocolTimeout` 1 whatever
the code; the right id with a code that is neither `0xAC` nor `0xFC` is `ProtocolTimeout` 2; the right id with `0xFC` is
`TagRejected`. No result is produced and the data slot is not read (R136, R140, R141, 60_exceptions.md R209, R210, R214). That
an attempt run alone shows these errors in `status` is the model's choice (assumption 14); inside a transfer they are caught. -/
def Obligations.ReplyVerdict : Prop :=
  ∀ (i : BitVec 1) (a n : Word) (data : List Byte) (s : State) (e1 e2 e3 e4 e5 : EnvEvent) (rest : List EnvEvent)
    (b0 b1 : Byte),
    s.env.script = e1 :: e2 :: e3 :: e4 :: e5 :: rest → (∀ e ∈ [e1, e2, e3, e4, e5], e.ok = true) →
    data.length = 2 * n.toNat → n.toNat ≤ 200 →
    let p := s.par
    let id := nextId (((s.tag.acts p e1.tag).mailbox p (replyOffset p) 2).getD 0 0)
    let t4 := (s.tag.afterReadTrigger p a n e1.tag e2.tag e3.tag).acts p e4.tag
    let t5 := (s.tag.afterWriteTrigger p a n data e1.tag e2.tag e3.tag e4.tag).acts p e5.tag
    let verdict : ResultRegs :=
      { status := if b0 = id ∧ b1 = 0xFC then .tagRejected else .protocolTimeout
        info := if b0 ≠ id then 1 else if b1 = 0xFC then 0 else 2
        warn := false
        busy := false
        result := s.res.result }
    ¬ (b0 = id ∧ b1 = 0xAC) →
    (t4.mailbox p (replyOffset p) 2 = [b0, b1] →
      ∃ t, exec (.hsRd i a n) s = .next t ∧ t.eng.idmsg = id ∧ t.eng.phase = .idle ∧ t.tag = t4 ∧
        t.env = { script := e5 :: rest, taken := s.env.taken + 4 } ∧ t.res = verdict) ∧
    (t5.mailbox p (replyOffset p) 2 = [b0, b1] →
      ∃ t, exec (.hsWr i a n data) s = .next t ∧ t.eng.idmsg = id ∧ t.eng.phase = .idle ∧ t.tag = t5 ∧
        t.env = { script := rest, taken := s.env.taken + 5 } ∧ t.res = verdict)

/-- A reply slot that still shows the id byte found in P1 never passes P5, whatever its code: `ProtocolTimeout` 1, for a
READ and for a WRITE (R143). That an attempt run alone shows it in `status` and `info` is the model's choice (assumption 14). -/
def Obligations.StaleReplyIsTimeout : Prop :=
  ∀ (i : BitVec 1) (a n : Word) (data : List Byte) (s : State) (e1 e2 e3 e4 e5 : EnvEvent) (rest : List EnvEvent),
    s.env.script = e1 :: e2 :: e3 :: e4 :: e5 :: rest → (∀ e ∈ [e1, e2, e3, e4, e5], e.ok = true) →
    data.length = 2 * n.toNat → n.toNat ≤ 200 →
    let p := s.par
    let found := ((s.tag.acts p e1.tag).mailbox p (replyOffset p) 2).getD 0 0
    ((((s.tag.afterReadTrigger p a n e1.tag e2.tag e3.tag).acts p e4.tag).mailbox p (replyOffset p) 2).getD 0 0 = found →
      ∃ t, exec (.hsRd i a n) s = .next t ∧ t.res.status = .protocolTimeout ∧ t.res.info = 1 ∧
        t.res.result = s.res.result) ∧
    ((((s.tag.afterWriteTrigger p a n data e1.tag e2.tag e3.tag e4.tag).acts p e5.tag).mailbox p (replyOffset p) 2).getD
        0 0 = found →
      ∃ t, exec (.hsWr i a n data) s = .next t ∧ t.res.status = .protocolTimeout ∧ t.res.info = 1 ∧
        t.res.result = s.res.result)

/-- A transport failure ends an attempt in the phase that made the call, with that phase's code and no later call: for a
READ the 1st to 4th call are P1, P2, P3, P5, and after ACK the 5th is P6; for a WRITE the 1st to 5th are P1, P2, P2B, P3,
P5 (R138, 60_exceptions.md R206, R208, R216). That an attempt run alone shows the error in `status`, and that one of any size
runs, is the model's choice (assumptions 14, 22). -/
def Obligations.TransportFailureEndsAttempt : Prop :=
  ∀ (i : BitVec 1) (a n : Word) (data : List Byte) (s : State) (done : List EnvEvent) (bad : EnvEvent)
    (rest : List EnvEvent),
    s.env.script = done ++ bad :: rest → (∀ e ∈ done, e.ok = true) → bad.ok = false →
    (∀ k, done.length = k → k < 4 →
      ∃ t, exec (.hsRd i a n) s = .next t ∧ t.res.status = .transportError ∧
        t.res.info = [1, 2, 4, 5].getD k 0 ∧ t.res.result = s.res.result ∧ t.env.script = rest ∧
        busCalls t.bus = busCalls s.bus + k + 1) ∧
    (∀ e1 e2 e3 e4, done = [e1, e2, e3, e4] →
      ((s.tag.afterReadTrigger s.par a n e1.tag e2.tag e3.tag).acts s.par e4.tag).mailbox s.par (replyOffset s.par) 2 =
        [nextId (((s.tag.acts s.par e1.tag).mailbox s.par (replyOffset s.par) 2).getD 0 0), 0xAC] →
      ∃ t, exec (.hsRd i a n) s = .next t ∧ t.res.status = .transportError ∧
        t.res.info = 6 ∧ t.res.result = s.res.result ∧ t.env.script = rest ∧ busCalls t.bus = busCalls s.bus + 5) ∧
    (∀ k, done.length = k → k < 5 →
      ∃ t, exec (.hsWr i a n data) s = .next t ∧ t.res.status = .transportError ∧
        t.res.info = [1, 2, 3, 4, 5].getD k 0 ∧ t.res.result = s.res.result ∧ t.env.script = rest ∧
        busCalls t.bus = busCalls s.bus + k + 1)

/-- Two consecutive successful attempts never use the same message id, if the reply slot still shows the first one's id when
the second reads it in P1 (R142, whose premise on the tag this is). -/
def Obligations.ConsecutiveIdsAlternate : Prop :=
  ∀ (i j : BitVec 1) (a n b m : Word) (d d' : List Byte) (x y : Instr) (s t u : State),
    (x = .hsRd i a n ∨ x = .hsWr i a n d) → (y = .hsRd j b m ∨ y = .hsWr j b m d') →
    exec x s = .next t → t.res.status = .ok → exec y t = .next u → u.res.status = .ok →
    t.transact.replyId = t.eng.idmsg → u.eng.idmsg ≠ t.eng.idmsg

/-- What the firmware finds at the trigger read is the command the engine staged: code, address, size and, of a WRITE, the
data (20_memory.md R66 a, R71, 30_encoding.md R85, R89), the firmware having left the mailbox alone. -/
def Obligations.FirmwareFetchesStagedCommand : Prop :=
  ∀ (p : Params) (t : Tag) (a n : Word) (data : List Byte), p.valid = true → n.toNat ≤ 200 →
    data.length = 2 * n.toNat →
    (∃ old, (t.afterReadTrigger p a n [] [] []).pending = some { cmd := p.cmdRead, a := a, n := n, data := old }) ∧
    (t.afterWriteTrigger p a n data [] [] [] []).pending = some { cmd := p.cmdWrite, a := a, n := n, data := data }

/-- `RPL.ACK`: with another id it is `ProtocolTimeout` 1; with the attempt's id a WRITE is complete and a READ goes on to P6,
which fetches `2n` bytes (R136, R137, 30_encoding.md R87). That the word comes alone is the model's form
(assumption 16). -/
def Obligations.RplAckCompletes : Prop :=
  ∀ (id : Byte) (s : State), s.eng.n.toNat ≤ 200 → s.eng.dbuf.length = 400 →
    (id ≠ s.eng.idmsg → exec (.rplAck id) s = .next (s.failed .protocolTimeout 1)) ∧
    (id = s.eng.idmsg → s.eng.kind = .wr → exec (.rplAck id) s = .next (s.ended s.res.result)) ∧
    (id = s.eng.idmsg → s.eng.kind = .rd → ∀ e rest, s.env.script = e :: rest → e.ok = true →
      let t := s.tag.acts s.par e.tag
      let d := t.mailbox s.par (s.par.miBase + 8) (2 * s.eng.n.toNat)
      exec (.rplAck id) s = .next { s with
        eng := { s.eng with phase := .idle, dbuf := d ++ s.eng.dbuf.drop (2 * s.eng.n.toNat) }
        res := { status := .ok, info := 0, warn := false, busy := false, result := .bytes d }
        tag := t
        env := { script := rest, taken := s.env.taken + 1 }
        bus := .read s.par.miBank (s.par.miBase + 8) (2 * s.eng.n.toNat) (some d) :: s.bus })

/-- `RPL.NACK`: `TagRejected` for the attempt's id, `ProtocolTimeout` 1 for another; no transport call (R136, R210). That the word
comes alone is the model's form (assumption 16). -/
def Obligations.RplNackCompletes : Prop :=
  ∀ (id : Byte) (s : State),
    exec (.rplNack id) s = .next (if id = s.eng.idmsg then s.failed .tagRejected 0 else s.failed .protocolTimeout 1)

/-! ### The retry wrapper -/

/-- A transport that fails three times at P1 causes exactly three attempts of a READ or a WRITE, three reads of the reply slot
and no write, three log records, and `CommunicationExhausted` with the code of `TransportError` (42_transfer_retry.md R151,
R157, R158). That `RETRY` runs alone is the model's form (assumption 14). -/
def Obligations.DeadTransportExhausts : Prop :=
  ∀ (a n B Lb : Word) (data : List Byte) (i : Instr) (s : State) (rest : List EnvEvent),
    1 ≤ n.toNat → n.toNat ≤ 200 → B.toNat = 2 * a.toNat → Lb.toNat = 2 * n.toNat →
    s.env.script = deadEvent :: deadEvent :: deadEvent :: rest →
    i ∈ [Instr.xferRd B Lb, .xferWr B Lb data, .retry (.rd a n), .retry (.wr a n data)] →
    let miss : BusEvent := .read s.par.miBank (s.par.miBase + 6) 2 none
    ∃ t, exec i s = .next t ∧
      t.res = { status := .communicationExhausted, info := 2, warn := false, busy := false, result := s.res.result } ∧
      t.eng.phase = .idle ∧ t.eng.attempt = 3 ∧ t.eng.idmsg = s.eng.idmsg ∧ t.eng.a = a ∧ t.eng.n = n ∧
      t.bus = miss :: miss :: miss :: s.bus ∧
      t.log = .failure 3 .transportError 1 :: .failure 2 .transportError 1 :: .failure 1 .transportError 1 :: s.log ∧
      t.env = { script := rest, taken := s.env.taken + 3 } ∧ t.tag = s.tag ∧ t.cache = s.cache ∧ t.dec = s.dec ∧
      t.par = s.par ∧ t.port = s.port

/-- A transport that fails twice and then serves a firmware that answers gives the successful result with no error, at
attempt 3, and two log records: a READ of registers that exist their words, a WRITE to registers that exist its data in them
(R151, R158; what the firmware does is the premise of 20_memory.md R66). What the firmware does with registers that do not
exist is left open here; that `RETRY` runs alone and that a WRITE leaves `result` is the model's form (assumptions 14, 12). -/
def Obligations.TwoFailuresThenSuccess : Prop :=
  ∀ (a n B Lb : Word) (data : List Byte) (i : Instr) (s : State) (rest : List EnvEvent), s.par.valid = true →
    s.eng.dbuf.length = 400 → 1 ≤ n.toNat → n.toNat ≤ 200 → data.length = 2 * n.toNat → B.toNat = 2 * a.toNat →
    Lb.toNat = 2 * n.toNat →
    (s.env.script = deadEvent :: deadEvent :: (readScript (nextId s.replyId) 0xAC ++ rest) →
      i ∈ [Instr.xferRd B Lb, .retry (.rd a n)] →
      ∃ t d, exec i s = .next t ∧
        t.res = { status := .ok, info := 0, warn := false, busy := false, result := .bytes d } ∧
        (a.toNat + n.toNat ≤ 0x108A → d = bytesOf (readRegs s.par s.tag.regs a.toNat n.toNat)) ∧
        t.eng.attempt = 3 ∧ t.log.length = s.log.length + 2 ∧ t.env.script = rest) ∧
    (s.env.script = deadEvent :: deadEvent :: (writeScript (nextId s.replyId) 0xAC ++ rest) →
      i ∈ [Instr.xferWr B Lb data, .retry (.wr a n data)] →
      ∃ t, exec i s = .next t ∧ t.res = { s.res with status := .ok, info := 0, warn := false, busy := false } ∧
        (a.toNat + n.toNat ≤ 0x108A → readRegs t.par t.tag.regs a.toNat n.toNat = wordsOf data) ∧
        t.eng.attempt = 3 ∧ t.log.length = s.log.length + 2 ∧ t.env.script = rest)

/-- A transfer makes 1 to 3 attempts and at most 15 bank accesses (R158). -/
def Obligations.TransfersAreBounded : Prop :=
  ∀ (B Lb : Word) (data : List Byte) (i : Instr) (s t : State), (i = .xferRd B Lb ∨ i = .xferWr B Lb data) →
    exec i s = .next t → t.res.status ≠ .invalidArgument →
    1 ≤ t.eng.attempt ∧ t.eng.attempt ≤ 3 ∧ busCalls t.bus ≤ busCalls s.bus + 15

/-- `CommunicationExhausted` comes after three logged failures, numbered 1, 2, 3, and carries the code of the third
(R151, R157, 60_exceptions.md R211). -/
def Obligations.ExhaustionCarriesThirdError : Prop :=
  ∀ (B Lb : Word) (data : List Byte) (i : Instr) (s t : State), (i = .xferRd B Lb ∨ i = .xferWr B Lb data) →
    exec i s = .next t → t.res.status = .communicationExhausted →
    ∃ e1 e2 e3 : Err, e1.retried = true ∧ e2.retried = true ∧ e3.retried = true ∧ t.res.info = e3.status.code ∧
      t.log = .failure 3 e3.status e3.info :: .failure 2 e2.status e2.info :: .failure 1 e1.status e1.info :: s.log

/-- `XFER.RD` of an even address `2a` and length `2n`, and `RETRY` of the READ of `n` words at `a`, with a firmware that
answers ACK: `2n` bytes at the first attempt, the registers' words, high byte first, where the registers exist; the tag's
registers as they were (R150, R151, R152; premise 20_memory.md R66, which is about registers that exist). That `RETRY` run
alone ends like a host operation is the model's choice (assumption 14). -/
def Obligations.ReadTransferCompletes : Prop :=
  ∀ (a n : Word) (i : Instr) (s : State) (rest : List EnvEvent), s.par.valid = true → s.eng.dbuf.length = 400 →
    1 ≤ n.toNat → n.toNat ≤ 200 → s.env.script = readScript (nextId s.replyId) 0xAC ++ rest →
    (i = .retry (.rd a n) ∨
      ∃ B Lb : Word, B.toNat = 2 * a.toNat ∧ Lb.toNat = 2 * n.toNat ∧ i = .xferRd B Lb) →
    ∃ t d, exec i s = .next t ∧ d.length = 2 * n.toNat ∧
      (a.toNat + n.toNat ≤ 0x108A → d = bytesOf (readRegs s.par s.tag.regs a.toNat n.toNat)) ∧
      t.res = { status := .ok, info := 0, warn := false, busy := false, result := .bytes d } ∧
      t.eng = { idmsg := nextId s.replyId, phase := .idle, attempt := 1, kind := .rd, a := a, n := n,
                dbuf := d ++ s.eng.dbuf.drop (2 * n.toNat) } ∧
      t.tag.regs = s.tag.regs ∧ t.replyId = nextId s.replyId ∧ t.env = { script := rest, taken := s.env.taken + 5 } ∧
      t.cache = s.cache ∧ t.dec = s.dec ∧ t.log = s.log ∧ t.par = s.par ∧ t.port = s.port

/-- `XFER.WR` of an even address `2a` and length `2n`, and `RETRY` of the WRITE of `n` words at `a`, with a firmware that
answers ACK: register `a + k` holds word `k` of the data, every other register what it held, and no result is written
(R150, R151, R153, 41_handshake.md R141; premise 20_memory.md R66, which is about registers that exist). That `RETRY` run alone
ends like a host operation, and that `result` is left as it was, is the model's choice (assumptions 14, 12). -/
def Obligations.WriteTransferCompletes : Prop :=
  ∀ (a n : Word) (data : List Byte) (i : Instr) (s : State) (rest : List EnvEvent), s.par.valid = true →
    s.eng.dbuf.length = 400 → 1 ≤ n.toNat → n.toNat ≤ 200 → data.length = 2 * n.toNat →
    s.env.script = writeScript (nextId s.replyId) 0xAC ++ rest →
    (i = .retry (.wr a n data) ∨
      ∃ B Lb : Word, B.toNat = 2 * a.toNat ∧ Lb.toNat = 2 * n.toNat ∧ i = .xferWr B Lb data) →
    ∃ t, exec i s = .next t ∧ t.res = { s.res with status := .ok, info := 0, warn := false, busy := false } ∧
      (a.toNat + n.toNat ≤ 0x108A → readRegs s.par t.tag.regs a.toNat n.toNat = wordsOf data) ∧
      (∀ r, r < a.toNat ∨ a.toNat + n.toNat ≤ r → readReg s.par t.tag.regs r = readReg s.par s.tag.regs r) ∧
      t.eng = { idmsg := nextId s.replyId, phase := .idle, attempt := 1, kind := .wr, a := a, n := n,
                dbuf := data ++ s.eng.dbuf.drop (2 * n.toNat) } ∧
      t.replyId = nextId s.replyId ∧ t.env = { script := rest, taken := s.env.taken + 5 } ∧
      t.cache = s.cache ∧ t.dec = s.dec ∧ t.log = s.log ∧ t.par = s.par ∧ t.port = s.port

/-! ### The register cache -/

/-- `GET` of a cached register gives its value and changes nothing else (43_register_cache.md R166). -/
def Obligations.GetHit : Prop :=
  ∀ (address w : Word) (s : State), address.toNat ≤ 0x1089 → s.cached address.toNat = some w →
    exec (.get address) s = .next (s.ended (.word w))

/-- `GET` of a register not cached, with a firmware that answers: one READ of one word, the value is returned and cached, no
other entry changes (R166; premise 20_memory.md R66). -/
def Obligations.GetMissFillsEntry : Prop :=
  ∀ (address : Word) (s : State) (rest : List EnvEvent), s.par.valid = true → s.eng.dbuf.length = 400 →
    address.toNat ≤ 0x1089 → s.cached address.toNat = none →
    s.env.script = readScript (nextId s.replyId) 0xAC ++ rest →
    let value := readReg s.par s.tag.regs address.toNat
    ∃ t, exec (.get address) s = .next t ∧
      t.res = { status := .ok, info := 0, warn := false, busy := false, result := .word value } ∧
      t.cached address.toNat = some value ∧
      (∀ k, k ≠ address.toNat → t.cached k = s.cached k) ∧ t.env.script = rest ∧
      busCalls t.bus = busCalls s.bus + 5 ∧ t.tag.regs = s.tag.regs

/-- `SET` with a firmware that answers, and that may change the register before the read-back: one WRITE of the value, then the wait
of 1000 ms, then one READ and no second WRITE, both of the one register `address`; that register then holds the observed word and
every other one what it held; the observed word is cached whether it is the intended one or not, and only a mismatch sets
`warn`, with `info` the observed word; no other entry touched (R167, R171, 70_reset_and_hazards.md R249; premise 20_memory.md
R66). That `SET` leaves `result` as it was is the model's choice (assumption 12). -/
def Obligations.SetCachesObservedWord : Prop :=
  ∀ (address value observed : Word) (s : State) (rest : List EnvEvent), s.par.valid = true →
    s.eng.dbuf.length = 400 → address.toNat ≤ 0x1089 →
    let id := nextId s.replyId
    let changed : EnvEvent := { quietEvent with tag := [.setReg address observed] }
    s.env.script = writeScript id 0xAC ++ changed :: ((readScript (nextId id) 0xAC).tail ++ rest) →
    ∃ t, exec (.set address value) s = .next t ∧
      t.res = { status := .ok
                info := if observed = value then 0 else observed
                warn := decide (observed ≠ value)
                busy := false
                result := s.res.result } ∧
      t.cached address.toNat = some observed ∧ (∀ k, k ≠ address.toNat → t.cached k = s.cached k) ∧
      t.env.script = rest ∧ readReg s.par t.tag.regs address.toNat = observed ∧
      (∀ r, r ≠ address.toNat → readReg s.par t.tag.regs r = readReg s.par s.tag.regs r) ∧
      ∃ before after, t.bus = after ++ .wait 1000 :: (before ++ s.bus) ∧ busCalls before = 5 ∧ busCalls after = 5 ∧
        BusEvent.wait 1000 ∉ before ∧ BusEvent.wait 1000 ∉ after ∧
        BusEvent.write s.par.miBank s.par.miBase (paramBlock id s.par.cmdWrite address 1) true ∈ before ∧
        BusEvent.write s.par.miBank s.par.miBase (paramBlock (nextId id) s.par.cmdRead address 1) true ∈ after ∧
        BusEvent.write s.par.miBank (s.par.miBase + 8)
          [BitVec.ofNat 8 (value.toNat / 256), BitVec.ofNat 8 value.toNat] true ∈ before ∧
        (∀ bytes ok, BusEvent.write s.par.miBank (s.par.miBase + 8) bytes ok ∉ after) ∧
        BusEvent.read s.par.miBank (s.par.miBase + 8) 2
          (some [BitVec.ofNat 8 (observed.toNat / 256), BitVec.ofNat 8 observed.toNat]) ∈ after

/-- After a `SET` that succeeded with `warn` 0, `GET` of the same register returns the value with no transport call
(R171). -/
def Obligations.GetAfterVerifiedSet : Prop :=
  ∀ (address value : Word) (s t : State), exec (.set address value) s = .next t → t.res.status = .ok →
    t.res.warn = false → exec (.get address) t = .next (t.ended (.word value))

/-- A failed `GET` or `SET` leaves the cache as it was, and a successful one touches its own entry only (R166, R167, R172;
10_state.md R30). -/
def Obligations.GetSetTouchOneEntry : Prop :=
  ∀ (address value : Word) (i : Instr) (s t : State), (i = .get address ∨ i = .set address value) →
    exec i s = .next t →
    (t.res.status ≠ .ok → t.cache = s.cache) ∧ (∀ k, k ≠ address.toNat → t.cached k = s.cached k) ∧
    (t.res.status = .ok → (t.cached address.toNat).isSome = true)

/-- `PREFETCH` with a firmware that answers each of its 43 READs: every register of the space is cached with the word the tag
holds (R168, R173; premise 20_memory.md R66). That it leaves `result` as it was is the model's choice (assumption 12). -/
def Obligations.PrefetchCachesEveryRegister : Prop :=
  ∀ (s : State) (rest : List EnvEvent), s.par.valid = true → s.eng.dbuf.length = 400 →
    s.env.script = readScripts (nextId s.replyId) 43 ++ rest →
    ∃ t, exec .prefetch s = .next t ∧ t.res = { s.res with status := .ok, info := 0, warn := false, busy := false } ∧
      (∀ a, a ≤ 0x1089 → t.cached a = some (readReg s.par s.tag.regs a)) ∧ (∀ a, 0x1089 < a → t.cached a = s.cached a) ∧
      t.tag.regs = s.tag.regs ∧ t.env.script = rest

/-- A `PREFETCH` whose first `k` READs a firmware answers and whose next READ fails in all three attempts, the transport dead:
`CommunicationExhausted`, the registers of the `k` chunks cached with the words the tag holds, the failed chunk and the later
ones not touched. And whatever makes it fail, it fails with `CommunicationExhausted`, at a chunk from which on nothing is
touched and before which every register is cached (R168, R172, R173; premise 20_memory.md R66). That it leaves `result` as it
was is the model's choice (assumption 12). -/
def Obligations.FailedPrefetchKeepsChunks : Prop :=
  (∀ (s : State) (k : Nat) (rest : List EnvEvent), s.par.valid = true → s.eng.dbuf.length = 400 → k < 43 →
    s.env.script = readScripts (nextId s.replyId) k ++ deadEvent :: deadEvent :: deadEvent :: rest →
    ∃ t, exec .prefetch s = .next t ∧
      t.res = { s.res with status := .communicationExhausted, info := 2, warn := false, busy := false } ∧
      (∀ a, a < 100 * k → t.cached a = some (readReg s.par s.tag.regs a)) ∧
      (∀ a, 100 * k ≤ a → t.cached a = s.cached a) ∧ t.env.script = rest) ∧
  ∀ s t : State, s.par.valid = true → s.eng.dbuf.length = 400 → exec .prefetch s = .next t → t.res.status ≠ .ok →
    t.res.status = .communicationExhausted ∧
    ∃ k < 43, (∀ a, a < 100 * k → (t.cached a).isSome = true) ∧ (∀ a, 100 * k ≤ a → t.cached a = s.cached a)

/-- `CRESET` empties the cache and changes nothing else but the result registers, of which it leaves `result` (43_register_cache.md
R169; the last is the model's choice, assumption 12); `NOP` sets `status` and `warn` to 0 and changes nothing else
(30_encoding.md R101). -/
def Obligations.CresetAndNopComplete : Prop :=
  ∀ s : State,
    (∃ t, exec .creset s = .next t ∧ (∀ a, t.cached a = none) ∧
      { t with cache := s.cache } = s.ended s.res.result) ∧
    exec .nop s = .next { s with res := { s.res with status := .ok, warn := false } }

/-! ### Frames -/

/-- The instructions that work on the block alone leave the tag, the environment's events, the bus trace, the log, the
parameters and the port as they were, and of the engine all but `phase` and `CHK`'s `a` and `n` (40_codec.md R110,
43_register_cache.md R169, 44_log_decoder.md R190, 42_transfer_retry.md R150). -/
def Obligations.LocalOperationsFrame : Prop :=
  ∀ (i : Instr) (s t : State), localOp i = true → exec i s = .next t →
    t.tag = s.tag ∧ t.env = s.env ∧ t.bus = s.bus ∧ t.log = s.log ∧ t.par = s.par ∧ t.port = s.port ∧
    t.eng.idmsg = s.eng.idmsg ∧ t.eng.attempt = s.eng.attempt ∧ t.eng.kind = s.eng.kind ∧ t.eng.dbuf = s.eng.dbuf ∧
    ((∀ B Lb, i ≠ .chk B Lb) → t.eng.a = s.eng.a ∧ t.eng.n = s.eng.n) ∧
    (i ≠ .creset → t.cache = s.cache) ∧
    ((∀ ch m c ws, i ≠ .dec ch m c ws) → (∀ x y, i ≠ .mode x y) → t.dec = s.dec)

/-- The transfers, attempts, `RETRY` and the cache operations leave the parameters, the port and the decoder as they were, and
the transfers, attempts, `RETRY` and reply words leave the cache (41_handshake.md R140, R141; 10_state.md R30). -/
def Obligations.TransferFrame : Prop :=
  ∀ (i : Instr) (s t : State), localOp i = false → exec i s = .next t →
    t.par = s.par ∧ t.port = s.port ∧ ((∀ ch, i ≠ .declog ch) → t.dec = s.dec) ∧
    (cacheOp i = false → t.cache = s.cache)

/-- What `XFER.RD`, `XFER.WR`, `HS.RD`, `HS.WR` and `RETRY` leave of bank memory, whether their attempts succeed or fail, with a
firmware that may answer commands and change registers and writes nothing else: every byte reads as before that lies outside
the parameter slot and, for a WRITE, the `2n` bytes of the data slot, and, if the firmware answers, outside the reply slot and
the words of a READ it serves, this one's `n` or those of a READ still in flight from before (20_memory.md R50, R53, R63, R66,
30_encoding.md R90). -/
def Obligations.TransferMemoryFrame : Prop :=
  ∀ (kind : Kind) (i : BitVec 1) (a n B Lb : Word) (data : List Byte) (x : Instr) (m : Nat) (s t : State),
    s.par.valid = true → 1 ≤ n.toNat → n.toNat ≤ 200 → data.length = 2 * n.toNat → B.toNat = 2 * a.toNat →
    Lb.toNat = 2 * n.toNat → 15 ≤ s.env.script.length → ¬ pokesIn s.env.script →
    ((kind = .rd ∧ (x = .xferRd B Lb ∨ x = .hsRd i a n ∨ x = .retry (.rd a n))) ∨
      (kind = .wr ∧ (x = .xferWr B Lb data ∨ x = .hsWr i a n data ∨ x = .retry (.wr a n data)))) →
    (kind = .rd → n.toNat ≤ m) →
    (∀ c, s.tag.pending = some c → c.cmd = s.par.cmdRead → min c.n.toNat 200 ≤ m) →
    exec x s = .next t →
    ∀ addr, outsideWrites s.par kind n addr → (answersIn s.env.script → outsideAnswers s.par m addr) →
      readByte t.tag.mem addr = readByte s.tag.mem addr

/-- No instruction changes a byte of bank memory outside the mailbox's 408 bytes, nor does the firmware in answering: such a
byte changes only where the firmware pokes it (20_memory.md R50, R56, R63). The script covers the whole run, so that what
the firmware does is known. -/
def Obligations.OnlyTheMailboxIsWritten : Prop :=
  ∀ (i : Instr) (s t : State) (addr : Nat), i.wf = true → s.par.valid = true → exec i s = .next t →
    t.env.taken ≤ s.env.taken + s.env.script.length →
    (∀ e ∈ s.env.script, ∀ bank offset value, TagAction.poke bank offset value ∈ e.tag → bankAddr bank offset ≠ addr) →
    (∀ k < 408, addr ≠ bankAddr s.par.miBank s.par.miBase + k) →
    readByte t.tag.mem addr = readByte s.tag.mem addr

/-! ### The log decoder -/

/-- `MODE` for every setting of the twelve flags: bit 0 is 1 exactly when a bin stores times, bit 1 exactly when a bin stores
samples (44_log_decoder.md R181, 30_encoding.md R98). That `MODE` run alone ends like a host operation with its value in the
decoder's `mode`, and leaves `result`, is the model's choice (assumptions 14, 12). -/
def Obligations.ModeReduction : Prop :=
  ∀ (time sample : BitVec 6) (s : State), ∃ m : BitVec 2,
    exec (.mode time sample) s = .next { s.ended s.res.result with dec := { s.dec with mode := m } } ∧
    (m.getLsbD 0 = true ↔ ∃ k < 6, time.getLsbD k = true) ∧ (m.getLsbD 1 = true ↔ ∃ k < 6, sample.getLsbD k = true)

/-- `DEC` with mode 0 is `ConfigurationError` 1, with another mode and a count of 0 or less `ConfigurationError` 2, whatever
the words, with nothing else changed but the result registers and `phase` (R182, 60_exceptions.md R205, R213, R214, R215). That
the decoder's registers are left as they were, too, is the model's choice (assumption 28). -/
def Obligations.DecConfigurationErrors : Prop :=
  ∀ (ch : Channel) (mode : BitVec 2) (count : Int) (words : List Word) (s : State),
    (mode = 0 → exec (.dec ch mode count words) s = .next (s.failed .configurationError 1)) ∧
    (mode ≠ 0 → count ≤ 0 → exec (.dec ch mode count words) s = .next (s.failed .configurationError 2))

/-- A `0xFFFF` word at any index ends the scan, whatever stands behind it: `DEC` of the words before it leaves the same state,
nothing in the accumulator, and it is no error (R184). -/
def Obligations.SentinelEndsScan : Prop :=
  ∀ (ch : Channel) (mode : BitVec 2) (count : Int) (words rest : List Word) (s : State),
    exec (.dec ch mode count (words ++ 0xFFFF :: rest)) s = exec (.dec ch mode count words) s ∧
    (mode ≠ 0 → 0 < count → ∃ t, exec (.dec ch mode count (words ++ 0xFFFF :: rest)) s = .next t ∧ t.res.status = .ok ∧
      t.dec.acc = { lo := none, hi := none, ts := none, val := none })

/-- `DEC` returns at most `count` points and at most one for each whole group of words (R185, R190 g). -/
def Obligations.DecResultBounded : Prop :=
  ∀ (ch : Channel) (mode : BitVec 2) (count : Int) (words : List Word) (s : State), mode ≠ 0 → 0 < count →
    ∃ t points, exec (.dec ch mode count words) s = .next t ∧ t.res.status = .ok ∧ t.res.result = .points points ∧
      (points.length : Int) ≤ count ∧ points.length ≤ words.length / groupLength mode

/-- In the modes with timestamps the result is the points in the order they were completed, sorted by timestamp: every point has
one, they rise as unsigned integers, and points with equal timestamps stay in their order (R189, R190 h). -/
def Obligations.DecSortsStably : Prop :=
  ∀ (ch : Channel) (mode : BitVec 2) (count : Int) (words : List Word) (s : State), mode.getLsbD 0 = true → 0 < count →
    ∃ t points, exec (.dec ch mode count words) s = .next t ∧ t.res.result = .points points ∧
      SortedFrom ((Decoder.start ch mode count).scan words).points points

/-- `DEC` of a used log area: whole records without sentinel words, then a cut record, then the end of the area or a
sentinel and anything. The result is the points of the first `count` records, sorted by timestamp in the modes with
timestamps; the cut record yields none. A point's timestamp is `high * 65536 + low` and its value that of `DEC.T` or `DEC.H`
by channel (R180, R183 to R190). -/
def Obligations.DecRebuildsPoints : Prop :=
  ∀ (ch : Channel) (mode : BitVec 2) (count : Int) (groups : List LogGroup) (cut tail : List Word) (s : State),
    mode ≠ 0 → 0 < count → (∀ g ∈ groups, 0xFFFF ∉ g.words mode) →
    cut.length < groupLength mode → (tail = [] ∨ ∃ rest, tail = 0xFFFF :: rest) →
    let found := (groups.map (fun g => g.point ch mode)).take count.toNat
    ∃ t points, exec (.dec ch mode count (groups.flatMap (fun g => g.words mode) ++ cut ++ tail)) s = .next t ∧
      t.res = { status := .ok, info := 0, warn := false, busy := false, result := .points points } ∧
      (mode = 2 → points = found) ∧ (mode ≠ 2 → SortedFrom found points) ∧
      { t with dec := s.dec, res := s.res } = { s with eng := { s.eng with phase := .idle } }

/-- `DECLOG` whose registers are all cached makes no transport call and is `DEC` of the cached words: of `W[j]` at
`LOG_BASE + j`, with the mode whose bits are the OR of the cached flags words' `TIME_STORE_BIT` and `SAMPLE_STORE_BIT`, and
the count the channel's registers give (R191; the count is a free function of the words of a fixed list of registers, the
model's choice, assumption 19). -/
def Obligations.DeclogOfCachedArea : Prop :=
  ∀ (ch : Channel) (word : Word → Word) (s : State), s.par.valid = true →
    (∀ a ∈ (s.par.map ch).binFlags ++ (s.par.map ch).countRegs, s.cached a.toNat = some (word a)) →
    (∀ j < (s.par.map ch).logLen, s.cached ((s.par.map ch).logBase.toNat + j) =
      some (word (BitVec.ofNat 16 ((s.par.map ch).logBase.toNat + j)))) →
    let count := s.par.sampleCount ch ((s.par.map ch).countRegs.map word)
    ∃ mode, flagsMode s.par ch word mode ∧
      exec (.declog ch) s = exec (.dec ch mode count (areaWords (s.par.map ch) word)) s ∧
      (mode ≠ 0 → 0 < count → ∃ t points, exec (.declog ch) s = .next t ∧ t.res.status = .ok ∧
        t.res.result = .points points ∧ t.bus = s.bus ∧ t.cache = s.cache)

/-- A `DECLOG` that succeeds has every register it needs in the cache, and its result is that of `DEC` on the words the
cache now holds, with mode, count and words as in the statement before; what was cached before was not read again and is as it
was (R191, 43_register_cache.md R166; the count is a free function of the words of a fixed list of registers, the model's
choice, assumption 19). -/
def Obligations.DeclogDecodesTheCache : Prop :=
  ∀ (ch : Channel) (s t : State), s.par.valid = true → exec (.declog ch) s = .next t → t.res.status = .ok →
    let m := s.par.map ch
    let word := fun a : Word => (t.cached a.toNat).getD 0
    let count := s.par.sampleCount ch (m.countRegs.map word)
    (∀ a ∈ m.binFlags ++ m.countRegs, (t.cached a.toNat).isSome = true) ∧
    (∀ j < m.logLen, (t.cached (m.logBase.toNat + j)).isSome = true) ∧
    (∀ k w, s.cached k = some w → t.cached k = some w) ∧
    ∃ mode u, flagsMode s.par ch word mode ∧ exec (.dec ch mode count (areaWords m word)) s = .next u ∧ t.res = u.res ∧
      t.dec = u.dec

/-! ### The codec -/

/-- `ENC.T` and `ENC.H` of every real in their domain: the clamps, `round(32 v)`, and for a negative temperature
`round(32 v) + 8192`, `round` to the nearest with ties up (40_codec.md R112, R113, R114). -/
def Obligations.EncodeReals : Prop :=
  ∀ (q : Rat) (s : State),
    (∃ w : Word, exec (.encT (.real q)) s = .next (s.ended (.word w)) ∧
      (70 < q → w = 0x08C0) ∧ (q < -30 → w = 0x1C40) ∧
      (0 ≤ q → q ≤ 70 → (w.toNat : Int) = ⌊q * 32 + 1 / 2⌋) ∧
      (-30 ≤ q → q < 0 → (w.toNat : Int) = ⌊q * 32 + 1 / 2⌋ + 8192)) ∧
    (0 ≤ q → ∃ w : Word, exec (.encH (.real q)) s = .next (s.ended (.word w)) ∧
      (100 < q → w = 0x0C80) ∧ (q ≤ 100 → (w.toNat : Int) = ⌊q * 32 + 1 / 2⌋))

/-- Operands that are no reals of the domain: a negative humidity, a NaN, an infinity no clamp covers are `InvalidArgument` 3 and
give no code and no verdict; the infinities a clamp covers encode as the bound (93_implementation_defined.md U4, U5; the
model's choice among what they allow, assumption 17). -/
def Obligations.CodecDomain : Prop :=
  ∀ (q : Rat) (s : State), q < 0 →
    (∀ i ∈ [Instr.encH (.real q), .encH .negInf, .encH .nan, .encT .nan, .validT .nan, .validH .nan, .validT .posInf,
        .validT .negInf, .validH .posInf, .validH .negInf],
      exec i s = .next (s.failed .invalidArgument 3)) ∧
    exec (.encT .posInf) s = .next (s.ended (.word 2240)) ∧ exec (.encT .negInf) s = .next (s.ended (.word 7232)) ∧
    exec (.encH .posInf) s = .next (s.ended (.word 3200))

/-- `DEC.T` and `DEC.H` of every code, by band (R115, R116). -/
def Obligations.DecodeBands : Prop :=
  ∀ (raw : Word) (s : State),
    (∃ v : Rat, exec (.decT raw) s = .next (s.ended (.real v)) ∧
      (raw.toNat ≤ 2240 → v = (raw.toNat : Rat) / 32) ∧
      (2240 < raw.toNat → raw.toNat < 7232 → v = 70) ∧
      (7232 ≤ raw.toNat → raw.toNat < 8192 → v = ((raw.toNat : Int) - 8192 : Int) / 32) ∧
      (8192 ≤ raw.toNat → v = 0)) ∧
    (∃ v : Rat, exec (.decH raw) s = .next (s.ended (.real v)) ∧
      (raw.toNat ≤ 3200 → v = (raw.toNat : Rat) / 32) ∧ (3200 < raw.toNat → v = 0))

/-- `VALID.T` and `VALID.H` of every real: the closed ranges (R117, R118). -/
def Obligations.ValidRanges : Prop :=
  ∀ (q : Rat) (s : State), ∃ bT bH : Bool,
    exec (.validT (.real q)) s = .next (s.ended (.bool bT)) ∧ (bT = true ↔ -30 ≤ q ∧ q ≤ 70) ∧
    exec (.validH (.real q)) s = .next (s.ended (.bool bH)) ∧ (bH = true ↔ 0 ≤ q ∧ q ≤ 100)

/-- The round trip of a value in the channel's range errs by at most 1/64 (R119). -/
def Obligations.CodecRoundTripError : Prop :=
  ∀ q : Rat,
    (-30 ≤ q → q ≤ 70 → |decodeTemp (encodeTempReal q) - q| ≤ 1 / 64) ∧
    (0 ≤ q → q ≤ 100 → ∃ w, encodeHumReal q = some w ∧ |decodeHum w - q| ≤ 1 / 64)

/-- Values at or beyond a bound encode as the bound: 2240, 7232 and 3200 (R120). -/
def Obligations.EncodeClamps : Prop :=
  ∀ (q : Rat) (s : State),
    (70 ≤ q → exec (.encT (.real q)) s = .next (s.ended (.word 2240))) ∧
    (q ≤ -30 → exec (.encT (.real q)) s = .next (s.ended (.word 7232))) ∧
    (100 ≤ q → exec (.encH (.real q)) s = .next (s.ended (.word 3200)))

/-- Every decoded value is valid for its channel (R121), and encoding it gives the code back exactly for the codes of the two
linear bands (R122). -/
def Obligations.DecodeRangeAndCodes : Prop :=
  ∀ raw : Word,
    validTemp (decodeTemp raw) = true ∧ validHum (decodeHum raw) = true ∧
    (encodeTempReal (decodeTemp raw) = raw ↔ raw.toNat ≤ 2240 ∨ (7232 ≤ raw.toNat ∧ raw.toNat ≤ 8191))
end

