-- ==== Sys2Proof/Laws/Encoding.lean ====
section
/-! SUPPORT. What the byte-order functions and the frames built from them come to. -/

namespace Sys2Proof

/-! ### Byte order -/

theorem unbe16_toNat (hi lo : Byte) : (unbe16 hi lo).toNat = hi.toNat * 256 + lo.toNat := by
  have hh := hi.isLt
  have hl := lo.isLt
  have h : (hi.setWidth 16 <<< 8 : Word).toNat = hi.toNat <<< 8 := by
    simp [BitVec.toNat_shiftLeft, Nat.shiftLeft_eq]
    omega
  have l : (lo.setWidth 16 : Word).toNat = lo.toNat := by
    simp
    omega
  unfold unbe16
  rw [BitVec.toNat_or, h, l, ← Nat.shiftLeft_add_eq_or_of_lt hl, Nat.shiftLeft_eq]

theorem highByte_toNat (w : Word) : (w.extractLsb' 8 8).toNat = w.toNat / 256 := by
  have := w.isLt
  simp [BitVec.extractLsb'_toNat, Nat.shiftRight_eq_div_pow]
  omega

theorem lowByte_toNat (w : Word) : (w.extractLsb' 0 8).toNat = w.toNat % 256 := by
  simp [BitVec.extractLsb'_toNat]

/-- The two bytes of a word make the word (20_memory.md R59). -/
theorem unbe16_be16 (w : Word) : unbe16 (w.extractLsb' 8 8) (w.extractLsb' 0 8) = w := by
  apply BitVec.eq_of_toNat_eq
  rw [unbe16_toNat, highByte_toNat, lowByte_toNat]
  omega

/-- The word of two bytes has those bytes. -/
theorem be16_unbe16 (hi lo : Byte) : be16 (unbe16 hi lo) = [hi, lo] := by
  have hh := hi.isLt
  have hl := lo.isLt
  unfold be16
  congr 1
  · apply BitVec.eq_of_toNat_eq
    rw [highByte_toNat, unbe16_toNat]
    omega
  · congr 1
    apply BitVec.eq_of_toNat_eq
    rw [lowByte_toNat, unbe16_toNat]
    omega

theorem bytesOf_cons (w : Word) (ws : List Word) :
    bytesOf (w :: ws) = w.extractLsb' 8 8 :: w.extractLsb' 0 8 :: bytesOf ws := rfl

@[simp] theorem bytesOf_length (ws : List Word) : (bytesOf ws).length = 2 * ws.length := by
  induction ws with
  | nil => rfl
  | cons w ws ih =>
    rw [bytesOf_cons]
    simp only [List.length_cons, ih]
    omega

@[simp] theorem wordsOf_bytesOf (ws : List Word) : wordsOf (bytesOf ws) = ws := by
  induction ws with
  | nil => rfl
  | cons w ws ih => rw [bytesOf_cons, wordsOf, unbe16_be16, ih]

theorem wordsOf_length (bs : List Byte) : (wordsOf bs).length = bs.length / 2 := by
  induction bs using wordsOf.induct with
  | case1 hi lo rest ih =>
    simp only [wordsOf, List.length_cons, ih]
    omega
  | case2 bs h =>
    match bs with
    | [] => rfl
    | [_] => simp [wordsOf]
    | hi :: lo :: rest => exact absurd rfl (h hi lo rest)

theorem bytesOf_wordsOf {bs : List Byte} (h : bs.length % 2 = 0) : bytesOf (wordsOf bs) = bs := by
  induction bs using wordsOf.induct with
  | case1 hi lo rest ih =>
    have : be16 (unbe16 hi lo) ++ bytesOf (wordsOf rest) = hi :: lo :: rest := by
      rw [be16_unbe16, ih (by simp only [List.length_cons] at h; omega)]
      rfl
    exact this
  | case2 bs k =>
    match bs with
    | [] => rfl
    | [_] => simp at h
    | hi :: lo :: rest => exact absurd rfl (k hi lo rest)

/-! ### The parameter block -/

/-- The parameter block's six bytes (30_encoding.md R85). -/
theorem paramBlock_bytes (id cmd : Byte) (a n : Word) :
    paramBlock id cmd a n =
      [id, cmd, a.extractLsb' 8 8, a.extractLsb' 0 8, n.extractLsb' 8 8, n.extractLsb' 0 8] := by
  have h : commandWord id cmd = unbe16 id cmd := rfl
  rw [paramBlock, h, be16_unbe16]
  rfl

@[simp] theorem paramBlock_length (id cmd : Byte) (a n : Word) : (paramBlock id cmd a n).length = 6 := by
  rw [paramBlock_bytes]
  rfl

/-! ### The HOP word -/

/-- A HOP word whose bits 3 to 1 are zero is made of its `op` and its `ch` (R80). -/
theorem hopWord_fields : ∀ w : Byte, w.extractLsb' 1 3 = 0#3 → hopWord (w.extractLsb' 4 4) (w.getLsbD 0) = w := by
  decide

/-- An id byte of 0 or 1 is made of its lowest bit (R81, R88). -/
theorem idByte_bit : ∀ id : Byte, id.extractLsb' 1 7 = 0#7 → (id.setWidth 1).setWidth 8 = id := by
  decide

theorem idBit_byte : ∀ id : BitVec 1,
    (id.setWidth 8).extractLsb' 1 7 = 0#7 ∧ (id.setWidth 8).setWidth 1 = id := by
  decide

end Sys2Proof
end

