-- ==== Sys2Proof/Laws/Memory.lean ====
section
/-! SUPPORT. Laws of the maps and of bank memory: what a read finds after a write, and that every memory operation keeps
the canonical form. -/

namespace Sys2Proof.Machine

/-! ### Maps -/

theorem mapFind_mapPut_same {α : Type} (k : Nat) (v : α) (m : List (Nat × α)) : mapFind k (mapPut k v m) = some v := by
  induction m with
  | nil => simp [mapPut, mapFind]
  | cons c m ih =>
    obtain ⟨a, w⟩ := c
    by_cases h1 : k < a
    · simp [mapPut, h1, mapFind]
    · by_cases h2 : k = a
      · simp [mapPut, h2, mapFind]
      · simp [mapPut, h1, h2, mapFind, Ne.symm h2, ih]

theorem mapFind_mapPut_other {α : Type} {k k' : Nat} (h : k' ≠ k) (v : α) (m : List (Nat × α)) :
    mapFind k' (mapPut k v m) = mapFind k' m := by
  induction m with
  | nil => simp [mapPut, mapFind, Ne.symm h]
  | cons c m ih =>
    obtain ⟨a, w⟩ := c
    by_cases h1 : k < a
    · simp [mapPut, h1, mapFind, Ne.symm h]
    · by_cases h2 : k = a
      · subst h2; simp [mapPut, mapFind, Ne.symm h]
      · simp [mapPut, h1, h2, mapFind, ih]

theorem mapFind_mapErase_same {α : Type} (k : Nat) (m : List (Nat × α)) : mapFind k (mapErase k m) = none := by
  induction m with
  | nil => simp [mapErase, mapFind]
  | cons c m ih =>
    by_cases h : c.1 = k
    · simpa [mapErase, h] using ih
    · simpa [mapErase, h, mapFind] using ih

theorem mapFind_mapErase_other {α : Type} {k k' : Nat} (h : k' ≠ k) (m : List (Nat × α)) :
    mapFind k' (mapErase k m) = mapFind k' m := by
  induction m with
  | nil => simp [mapErase, mapFind]
  | cons c m ih =>
    by_cases h1 : c.1 = k
    · have : c.1 ≠ k' := by omega
      simpa [mapErase, h1, mapFind, Ne.symm h] using ih
    · by_cases h2 : c.1 = k'
      · simp [mapErase, h2, mapFind, h]
      · simpa [mapErase, h1, mapFind, h2] using ih

theorem mem_mapPut {α : Type} {k : Nat} {v : α} {m : List (Nat × α)} {c : Nat × α} (h : c ∈ mapPut k v m) :
    c = (k, v) ∨ c ∈ m := by
  induction m with
  | nil => simpa [mapPut] using h
  | cons d m ih =>
    obtain ⟨a, w⟩ := d
    by_cases h1 : k < a
    · simpa [mapPut, h1] using h
    · by_cases h2 : k = a
      · simp only [mapPut, h2, lt_irrefl, if_false, if_true, List.mem_cons] at h
        rcases h with h | h
        · exact .inl (by rw [h, h2])
        · exact .inr (List.mem_cons_of_mem _ h)
      · simp only [mapPut, h1, h2, if_false, List.mem_cons] at h
        rcases h with h | h
        · exact .inr (by simp [h])
        · rcases ih h with h | h
          · exact .inl h
          · exact .inr (List.mem_cons_of_mem _ h)

theorem mapPut_rises {α : Type} (k : Nat) (v : α) {m : List (Nat × α)}
    (h : m.Pairwise (fun c d => c.1 < d.1)) : (mapPut k v m).Pairwise (fun c d => c.1 < d.1) := by
  induction m with
  | nil => simp [mapPut]
  | cons d m ih =>
    obtain ⟨a, w⟩ := d
    rw [List.pairwise_cons] at h
    by_cases h1 : k < a
    · simp only [mapPut, h1, if_true]
      refine List.pairwise_cons.mpr ⟨?_, List.pairwise_cons.mpr h⟩
      intro c hc
      rcases List.mem_cons.mp hc with hc | hc
      · simpa [hc] using h1
      · exact lt_trans h1 (h.1 c hc)
    · by_cases h2 : k = a
      · simp only [mapPut, h2, lt_irrefl, if_false, if_true]
        exact List.pairwise_cons.mpr ⟨h.1, h.2⟩
      · simp only [mapPut, h1, h2, if_false]
        refine List.pairwise_cons.mpr ⟨?_, ih h.2⟩
        intro c hc
        rcases mem_mapPut hc with hc | hc
        · simp only [hc]; omega
        · exact h.1 c hc

theorem mem_mapErase {α : Type} {k : Nat} {m : List (Nat × α)} {c : Nat × α} (h : c ∈ mapErase k m) : c ∈ m :=
  (List.mem_filter.mp h).1

theorem mapErase_rises {α : Type} (k : Nat) {m : List (Nat × α)}
    (h : m.Pairwise (fun c d => c.1 < d.1)) : (mapErase k m).Pairwise (fun c d => c.1 < d.1) :=
  h.sublist List.filter_sublist

/-! ### Bank addresses -/

theorem bankAddr_lt (bank : Byte) (offset : Word) : bankAddr bank offset < 2 ^ 24 := by
  have h1 := bank.isLt
  have h2 := offset.isLt
  simp only [bankAddr]
  omega

theorem bankAddr_add (bank : Byte) {offset : Word} {k : Nat} (h : offset.toNat + k < 65536) :
    bankAddr bank (offset + BitVec.ofNat 16 k) = bankAddr bank offset + k := by
  simp only [bankAddr, BitVec.toNat_add, BitVec.toNat_ofNat]
  omega

theorem toNat_succ {offset : Word} (h : offset.toNat + 1 < 65536) : (offset + 1).toNat = offset.toNat + 1 := by
  rw [BitVec.toNat_add]
  simp
  omega

theorem bankAddr_succ (bank : Byte) {offset : Word} (h : offset.toNat + 1 < 65536) :
    bankAddr bank (offset + 1) = bankAddr bank offset + 1 := by
  simp only [bankAddr, toNat_succ h]
  omega

/-! ### One byte -/

@[simp] theorem readByte_writeByte_same (m : Memory) (a : Nat) (b : Byte) : readByte (writeByte m a b) a = b := by
  unfold readByte writeByte
  split
  · rename_i h; rw [mapFind_mapErase_same]; exact h.symm
  · rw [mapFind_mapPut_same]; rfl

theorem readByte_writeByte_other (m : Memory) {a a' : Nat} (h : a' ≠ a) (b : Byte) :
    readByte (writeByte m a b) a' = readByte m a' := by
  unfold readByte writeByte
  split
  · rw [mapFind_mapErase_other h]
  · rw [mapFind_mapPut_other h]

theorem writeByte_wf {m : Memory} (h : Memory.wf m) {a : Nat} (ha : a < 2 ^ 24) (b : Byte) : Memory.wf (writeByte m a b) := by
  unfold writeByte
  split
  · exact ⟨mapErase_rises a h.1, fun c hc => h.2 c (mem_mapErase hc)⟩
  · rename_i hb
    refine ⟨mapPut_rises a b h.1, fun c hc => ?_⟩
    rcases mem_mapPut hc with hc | hc
    · rw [hc]; exact ⟨ha, hb⟩
    · exact h.2 c hc

/-! ### Several bytes -/

@[simp] theorem readBytes_length (m : Memory) (bank : Byte) (offset : Word) (n : Nat) :
    (readBytes m bank offset n).length = n := by
  induction n generalizing offset with
  | zero => rfl
  | succ n ih => simp [readBytes, ih]

theorem writeBytes_wf {m : Memory} (h : Memory.wf m) (bank : Byte) (offset : Word) (bs : List Byte) :
    Memory.wf (writeBytes m bank offset bs) := by
  induction bs generalizing m offset with
  | nil => exact h
  | cons b bs ih => exact ih (writeByte_wf h (bankAddr_lt bank offset) b) _

/-- A byte outside the range written reads as before. -/
theorem readByte_writeBytes_outside {m : Memory} {bank : Byte} {offset : Word} {bs : List Byte} {addr : Nat}
    (hfit : offset.toNat + bs.length ≤ 65536) (h : ∀ k < bs.length, addr ≠ bankAddr bank offset + k) :
    readByte (writeBytes m bank offset bs) addr = readByte m addr := by
  induction bs generalizing m offset with
  | nil => rfl
  | cons b bs ih =>
    simp only [List.length_cons] at hfit h
    have h0 : addr ≠ bankAddr bank offset := by simpa using h 0 (by omega)
    simp only [writeBytes]
    rcases Nat.eq_zero_or_pos bs.length with hz | hz
    · have : bs = [] := List.length_eq_zero_iff.mp hz
      subst this
      exact readByte_writeByte_other m h0 b
    · have h1 : bankAddr bank (offset + 1) = bankAddr bank offset + 1 := bankAddr_succ bank (by omega)
      have h2 : (offset + 1).toNat = offset.toNat + 1 := toNat_succ (by omega)
      rw [ih (by omega), readByte_writeByte_other m h0 b]
      intro k hk
      have := h (k + 1) (by omega)
      omega

/-- What was written is read back. -/
theorem readBytes_writeBytes_same {m : Memory} {bank : Byte} {offset : Word} {bs : List Byte}
    (hfit : offset.toNat + bs.length ≤ 65536) :
    readBytes (writeBytes m bank offset bs) bank offset bs.length = bs := by
  induction bs generalizing m offset with
  | nil => rfl
  | cons b bs ih =>
    simp only [List.length_cons] at hfit
    simp only [writeBytes, List.length_cons, readBytes]
    rcases Nat.eq_zero_or_pos bs.length with hz | hz
    · have : bs = [] := List.length_eq_zero_iff.mp hz
      subst this
      simp [writeBytes, readBytes]
    · have h1 : bankAddr bank (offset + 1) = bankAddr bank offset + 1 := bankAddr_succ bank (by omega)
      have h2 : (offset + 1).toNat = offset.toNat + 1 := toNat_succ (by omega)
      rw [ih (by omega), readByte_writeBytes_outside (by omega) (by intro k _; omega), readByte_writeByte_same]

/-- Two memories that agree on a range read the same there. -/
theorem readBytes_congr {m m' : Memory} {bank : Byte} {offset : Word} {n : Nat} (hfit : offset.toNat + n ≤ 65536)
    (h : ∀ k < n, readByte m (bankAddr bank offset + k) = readByte m' (bankAddr bank offset + k)) :
    readBytes m bank offset n = readBytes m' bank offset n := by
  induction n generalizing offset with
  | zero => rfl
  | succ n ih =>
    simp only [readBytes]
    have h0 := h 0 (by omega)
    simp only [Nat.add_zero] at h0
    rw [h0]
    congr 1
    rcases Nat.eq_zero_or_pos n with hz | hz
    · subst hz; rfl
    · have h1 : bankAddr bank (offset + 1) = bankAddr bank offset + 1 := bankAddr_succ bank (by omega)
      have h2 : (offset + 1).toNat = offset.toNat + 1 := toNat_succ (by omega)
      refine ih (by omega) fun k hk => ?_
      rw [h1, Nat.add_assoc, Nat.add_comm 1 k]
      exact h (k + 1) (by omega)

/-- A write elsewhere in the same bank is not seen. -/
theorem readBytes_writeBytes_disjoint {m : Memory} {bank : Byte} {o o' : Word} {bs : List Byte} {n : Nat}
    (hr : o.toNat + n ≤ 65536) (hw : o'.toNat + bs.length ≤ 65536)
    (h : o.toNat + n ≤ o'.toNat ∨ o'.toNat + bs.length ≤ o.toNat) :
    readBytes (writeBytes m bank o' bs) bank o n = readBytes m bank o n := by
  refine readBytes_congr hr fun k hk => readByte_writeBytes_outside hw fun j hj => ?_
  simp only [bankAddr]
  omega

/-- A longer read is two reads. -/
theorem readBytes_add (m : Memory) (bank : Byte) (offset : Word) (j n : Nat) :
    readBytes m bank offset (j + n) =
      readBytes m bank offset j ++ readBytes m bank (offset + BitVec.ofNat 16 j) n := by
  induction j generalizing offset with
  | zero => simp [readBytes]
  | succ j ih =>
    rw [Nat.add_right_comm]
    simp only [readBytes, List.cons_append, ih]
    congr 3
    apply BitVec.eq_of_toNat_eq
    have h1 : (1 : Word).toNat = 1 := rfl
    simp only [BitVec.toNat_add, BitVec.toNat_ofNat, h1]
    omega

/-! ### The tag's registers -/

variable {p : Params}

theorem writeReg_wf {r : WordMap} (h : WordMap.regsWf p r) (a : Nat) (w : Word) : WordMap.regsWf p (writeReg p r a w) := by
  unfold writeReg
  split
  · rename_i ha
    split
    · exact ⟨⟨mapErase_rises a h.1.1, fun c hc => h.1.2 c (mem_mapErase hc)⟩, fun c hc => h.2 c (mem_mapErase hc)⟩
    · rename_i hw
      refine ⟨⟨mapPut_rises a w h.1.1, fun c hc => ?_⟩, fun c hc => ?_⟩
      · rcases mem_mapPut hc with hc | hc
        · rw [hc]; exact ha
        · exact h.1.2 c hc
      · rcases mem_mapPut hc with hc | hc
        · rw [hc]; exact hw
        · exact h.2 c hc
  · exact h

theorem writeRegs_wf {r : WordMap} (h : WordMap.regsWf p r) (a : Nat) (ws : List Word) : WordMap.regsWf p (writeRegs p r a ws) := by
  induction ws generalizing r a with
  | nil => exact h
  | cons w ws ih => exact ih (writeReg_wf h a w) _

theorem readReg_writeReg_same (r : WordMap) {a : Nat} (ha : a ≤ regEnd) (w : Word) : readReg p (writeReg p r a w) a = w := by
  unfold readReg writeReg
  rw [if_pos ha]
  split
  · rename_i h; rw [mapFind_mapErase_same]; exact h.symm
  · rw [mapFind_mapPut_same]; rfl

theorem readReg_writeReg_other (r : WordMap) {a a' : Nat} (h : a' ≠ a) (w : Word) :
    readReg p (writeReg p r a w) a' = readReg p r a' := by
  unfold readReg writeReg
  split
  · split
    · rw [mapFind_mapErase_other h]
    · rw [mapFind_mapPut_other h]
  · rfl

theorem readReg_writeRegs_outside (r : WordMap) {a a' : Nat} (ws : List Word) (h : ∀ k < ws.length, a' ≠ a + k) :
    readReg p (writeRegs p r a ws) a' = readReg p r a' := by
  induction ws generalizing r a with
  | nil => rfl
  | cons w ws ih =>
    simp only [List.length_cons] at h
    rw [writeRegs, ih]
    · exact readReg_writeReg_other r (by simpa using h 0 (by omega)) w
    · intro k hk; have := h (k + 1) (by omega); omega

theorem readRegs_writeRegs_same (r : WordMap) (a : Nat) (ws : List Word) (h : a + ws.length ≤ regEnd + 1) :
    readRegs p (writeRegs p r a ws) a ws.length = ws := by
  induction ws generalizing r a with
  | nil => rfl
  | cons w ws ih =>
    simp only [List.length_cons] at h
    simp only [writeRegs, List.length_cons, readRegs]
    rw [ih _ _ (by omega), readReg_writeRegs_outside _ _ (by intro k _; omega), readReg_writeReg_same r (by omega)]

@[simp] theorem readRegs_length (r : WordMap) (a n : Nat) : (readRegs p r a n).length = n := by
  induction n generalizing a with
  | zero => rfl
  | succ n ih => simp [readRegs, ih]

/-! ### The tag keeps its canonical forms -/

/-- Both of the tag's stores are in canonical form. -/
def Tag.wf (p : Params) (t : Tag) : Prop := Memory.wf t.mem ∧ WordMap.regsWf p t.regs

theorem Tag.answer_wf {t : Tag} (h : t.wf p) (id code : Byte) : (t.answer p id code).wf p := by
  unfold Tag.answer
  split
  · exact h
  · constructor
    · refine writeBytes_wf ?_ _ _ _
      split
      · exact writeBytes_wf h.1 _ _ _
      · exact h.1
    · dsimp only
      split
      · exact writeRegs_wf h.2 _ _
      · exact h.2

theorem Tag.act_wf {t : Tag} (h : t.wf p) (a : TagAction) : (t.act p a).wf p := by
  cases a with
  | poke bank offset value => exact ⟨writeByte_wf h.1 (bankAddr_lt _ _) _, h.2⟩
  | setReg address value => exact ⟨h.1, writeReg_wf h.2 _ _⟩
  | run id code => exact Tag.answer_wf h id code

theorem Tag.acts_wf {t : Tag} (h : t.wf p) (as : List TagAction) : (t.acts p as).wf p := by
  induction as generalizing t with
  | nil => exact h
  | cons a as ih => exact ih (Tag.act_wf h a)

@[simp] theorem Tag.acts_nil (t : Tag) (p : Params) : t.acts p [] = t := rfl

theorem reset_mem_wf : Memory.wf State.reset.tag.mem := by decide

end Sys2Proof.Machine
end

