-- ==== Sys2Proof/Laws/State.lean ====
section
/-! SUPPORT. What every named update of State leaves in every field: one lemma per field per update, so that no proof unfolds a
record update. -/

namespace Sys2Proof.Machine

variable (s : State)

@[simp] theorem State.setPort_par (p : List Request) : (s.setPort p).par = s.par := rfl
@[simp] theorem State.setPort_port (p : List Request) : (s.setPort p).port = p := rfl
@[simp] theorem State.setPort_eng (p : List Request) : (s.setPort p).eng = s.eng := rfl
@[simp] theorem State.setPort_cache (p : List Request) : (s.setPort p).cache = s.cache := rfl
@[simp] theorem State.setPort_dec (p : List Request) : (s.setPort p).dec = s.dec := rfl
@[simp] theorem State.setPort_res (p : List Request) : (s.setPort p).res = s.res := rfl
@[simp] theorem State.setPort_tag (p : List Request) : (s.setPort p).tag = s.tag := rfl
@[simp] theorem State.setPort_env (p : List Request) : (s.setPort p).env = s.env := rfl
@[simp] theorem State.setPort_bus (p : List Request) : (s.setPort p).bus = s.bus := rfl
@[simp] theorem State.setPort_log (p : List Request) : (s.setPort p).log = s.log := rfl

@[simp] theorem State.setEng_par (e : Engine) : (s.setEng e).par = s.par := rfl
@[simp] theorem State.setEng_port (e : Engine) : (s.setEng e).port = s.port := rfl
@[simp] theorem State.setEng_eng (e : Engine) : (s.setEng e).eng = e := rfl
@[simp] theorem State.setEng_cache (e : Engine) : (s.setEng e).cache = s.cache := rfl
@[simp] theorem State.setEng_dec (e : Engine) : (s.setEng e).dec = s.dec := rfl
@[simp] theorem State.setEng_res (e : Engine) : (s.setEng e).res = s.res := rfl
@[simp] theorem State.setEng_tag (e : Engine) : (s.setEng e).tag = s.tag := rfl
@[simp] theorem State.setEng_env (e : Engine) : (s.setEng e).env = s.env := rfl
@[simp] theorem State.setEng_bus (e : Engine) : (s.setEng e).bus = s.bus := rfl
@[simp] theorem State.setEng_log (e : Engine) : (s.setEng e).log = s.log := rfl

@[simp] theorem State.setCache_par (c : WordMap) : (s.setCache c).par = s.par := rfl
@[simp] theorem State.setCache_port (c : WordMap) : (s.setCache c).port = s.port := rfl
@[simp] theorem State.setCache_eng (c : WordMap) : (s.setCache c).eng = s.eng := rfl
@[simp] theorem State.setCache_cache (c : WordMap) : (s.setCache c).cache = c := rfl
@[simp] theorem State.setCache_dec (c : WordMap) : (s.setCache c).dec = s.dec := rfl
@[simp] theorem State.setCache_res (c : WordMap) : (s.setCache c).res = s.res := rfl
@[simp] theorem State.setCache_tag (c : WordMap) : (s.setCache c).tag = s.tag := rfl
@[simp] theorem State.setCache_env (c : WordMap) : (s.setCache c).env = s.env := rfl
@[simp] theorem State.setCache_bus (c : WordMap) : (s.setCache c).bus = s.bus := rfl
@[simp] theorem State.setCache_log (c : WordMap) : (s.setCache c).log = s.log := rfl

@[simp] theorem State.setDec_par (d : Decoder) : (s.setDec d).par = s.par := rfl
@[simp] theorem State.setDec_port (d : Decoder) : (s.setDec d).port = s.port := rfl
@[simp] theorem State.setDec_eng (d : Decoder) : (s.setDec d).eng = s.eng := rfl
@[simp] theorem State.setDec_cache (d : Decoder) : (s.setDec d).cache = s.cache := rfl
@[simp] theorem State.setDec_dec (d : Decoder) : (s.setDec d).dec = d := rfl
@[simp] theorem State.setDec_res (d : Decoder) : (s.setDec d).res = s.res := rfl
@[simp] theorem State.setDec_tag (d : Decoder) : (s.setDec d).tag = s.tag := rfl
@[simp] theorem State.setDec_env (d : Decoder) : (s.setDec d).env = s.env := rfl
@[simp] theorem State.setDec_bus (d : Decoder) : (s.setDec d).bus = s.bus := rfl
@[simp] theorem State.setDec_log (d : Decoder) : (s.setDec d).log = s.log := rfl

@[simp] theorem State.setRes_par (r : ResultRegs) : (s.setRes r).par = s.par := rfl
@[simp] theorem State.setRes_port (r : ResultRegs) : (s.setRes r).port = s.port := rfl
@[simp] theorem State.setRes_eng (r : ResultRegs) : (s.setRes r).eng = s.eng := rfl
@[simp] theorem State.setRes_cache (r : ResultRegs) : (s.setRes r).cache = s.cache := rfl
@[simp] theorem State.setRes_dec (r : ResultRegs) : (s.setRes r).dec = s.dec := rfl
@[simp] theorem State.setRes_res (r : ResultRegs) : (s.setRes r).res = r := rfl
@[simp] theorem State.setRes_tag (r : ResultRegs) : (s.setRes r).tag = s.tag := rfl
@[simp] theorem State.setRes_env (r : ResultRegs) : (s.setRes r).env = s.env := rfl
@[simp] theorem State.setRes_bus (r : ResultRegs) : (s.setRes r).bus = s.bus := rfl
@[simp] theorem State.setRes_log (r : ResultRegs) : (s.setRes r).log = s.log := rfl

@[simp] theorem State.setTag_par (t : Tag) : (s.setTag t).par = s.par := rfl
@[simp] theorem State.setTag_port (t : Tag) : (s.setTag t).port = s.port := rfl
@[simp] theorem State.setTag_eng (t : Tag) : (s.setTag t).eng = s.eng := rfl
@[simp] theorem State.setTag_cache (t : Tag) : (s.setTag t).cache = s.cache := rfl
@[simp] theorem State.setTag_dec (t : Tag) : (s.setTag t).dec = s.dec := rfl
@[simp] theorem State.setTag_res (t : Tag) : (s.setTag t).res = s.res := rfl
@[simp] theorem State.setTag_tag (t : Tag) : (s.setTag t).tag = t := rfl
@[simp] theorem State.setTag_env (t : Tag) : (s.setTag t).env = s.env := rfl
@[simp] theorem State.setTag_bus (t : Tag) : (s.setTag t).bus = s.bus := rfl
@[simp] theorem State.setTag_log (t : Tag) : (s.setTag t).log = s.log := rfl

@[simp] theorem State.setEnv_par (e : Environment) : (s.setEnv e).par = s.par := rfl
@[simp] theorem State.setEnv_port (e : Environment) : (s.setEnv e).port = s.port := rfl
@[simp] theorem State.setEnv_eng (e : Environment) : (s.setEnv e).eng = s.eng := rfl
@[simp] theorem State.setEnv_cache (e : Environment) : (s.setEnv e).cache = s.cache := rfl
@[simp] theorem State.setEnv_dec (e : Environment) : (s.setEnv e).dec = s.dec := rfl
@[simp] theorem State.setEnv_res (e : Environment) : (s.setEnv e).res = s.res := rfl
@[simp] theorem State.setEnv_tag (e : Environment) : (s.setEnv e).tag = s.tag := rfl
@[simp] theorem State.setEnv_env (e : Environment) : (s.setEnv e).env = e := rfl
@[simp] theorem State.setEnv_bus (e : Environment) : (s.setEnv e).bus = s.bus := rfl
@[simp] theorem State.setEnv_log (e : Environment) : (s.setEnv e).log = s.log := rfl

@[simp] theorem State.emit_par (e : BusEvent) : (s.emit e).par = s.par := rfl
@[simp] theorem State.emit_port (e : BusEvent) : (s.emit e).port = s.port := rfl
@[simp] theorem State.emit_eng (e : BusEvent) : (s.emit e).eng = s.eng := rfl
@[simp] theorem State.emit_cache (e : BusEvent) : (s.emit e).cache = s.cache := rfl
@[simp] theorem State.emit_dec (e : BusEvent) : (s.emit e).dec = s.dec := rfl
@[simp] theorem State.emit_res (e : BusEvent) : (s.emit e).res = s.res := rfl
@[simp] theorem State.emit_tag (e : BusEvent) : (s.emit e).tag = s.tag := rfl
@[simp] theorem State.emit_env (e : BusEvent) : (s.emit e).env = s.env := rfl
@[simp] theorem State.emit_bus (e : BusEvent) : (s.emit e).bus = e :: s.bus := rfl
@[simp] theorem State.emit_log (e : BusEvent) : (s.emit e).log = s.log := rfl

@[simp] theorem State.record_par (r : LogRecord) : (s.record r).par = s.par := rfl
@[simp] theorem State.record_port (r : LogRecord) : (s.record r).port = s.port := rfl
@[simp] theorem State.record_eng (r : LogRecord) : (s.record r).eng = s.eng := rfl
@[simp] theorem State.record_cache (r : LogRecord) : (s.record r).cache = s.cache := rfl
@[simp] theorem State.record_dec (r : LogRecord) : (s.record r).dec = s.dec := rfl
@[simp] theorem State.record_res (r : LogRecord) : (s.record r).res = s.res := rfl
@[simp] theorem State.record_tag (r : LogRecord) : (s.record r).tag = s.tag := rfl
@[simp] theorem State.record_env (r : LogRecord) : (s.record r).env = s.env := rfl
@[simp] theorem State.record_bus (r : LogRecord) : (s.record r).bus = s.bus := rfl
@[simp] theorem State.record_log (r : LogRecord) : (s.record r).log = r :: s.log := rfl

@[simp] theorem State.setPhase_par (ph : Phase) : (s.setPhase ph).par = s.par := rfl
@[simp] theorem State.setPhase_port (ph : Phase) : (s.setPhase ph).port = s.port := rfl
@[simp] theorem State.setPhase_eng (ph : Phase) : (s.setPhase ph).eng = { s.eng with phase := ph } := rfl
@[simp] theorem State.setPhase_cache (ph : Phase) : (s.setPhase ph).cache = s.cache := rfl
@[simp] theorem State.setPhase_dec (ph : Phase) : (s.setPhase ph).dec = s.dec := rfl
@[simp] theorem State.setPhase_res (ph : Phase) : (s.setPhase ph).res = s.res := rfl
@[simp] theorem State.setPhase_tag (ph : Phase) : (s.setPhase ph).tag = s.tag := rfl
@[simp] theorem State.setPhase_env (ph : Phase) : (s.setPhase ph).env = s.env := rfl
@[simp] theorem State.setPhase_bus (ph : Phase) : (s.setPhase ph).bus = s.bus := rfl
@[simp] theorem State.setPhase_log (ph : Phase) : (s.setPhase ph).log = s.log := rfl

@[simp] theorem State.setIdmsg_par (id : Byte) : (s.setIdmsg id).par = s.par := rfl
@[simp] theorem State.setIdmsg_port (id : Byte) : (s.setIdmsg id).port = s.port := rfl
@[simp] theorem State.setIdmsg_eng (id : Byte) : (s.setIdmsg id).eng = { s.eng with idmsg := id } := rfl
@[simp] theorem State.setIdmsg_cache (id : Byte) : (s.setIdmsg id).cache = s.cache := rfl
@[simp] theorem State.setIdmsg_dec (id : Byte) : (s.setIdmsg id).dec = s.dec := rfl
@[simp] theorem State.setIdmsg_res (id : Byte) : (s.setIdmsg id).res = s.res := rfl
@[simp] theorem State.setIdmsg_tag (id : Byte) : (s.setIdmsg id).tag = s.tag := rfl
@[simp] theorem State.setIdmsg_env (id : Byte) : (s.setIdmsg id).env = s.env := rfl
@[simp] theorem State.setIdmsg_bus (id : Byte) : (s.setIdmsg id).bus = s.bus := rfl
@[simp] theorem State.setIdmsg_log (id : Byte) : (s.setIdmsg id).log = s.log := rfl

@[simp] theorem State.setAttempt_par (k : Nat) : (s.setAttempt k).par = s.par := rfl
@[simp] theorem State.setAttempt_port (k : Nat) : (s.setAttempt k).port = s.port := rfl
@[simp] theorem State.setAttempt_eng (k : Nat) : (s.setAttempt k).eng = { s.eng with attempt := k } := rfl
@[simp] theorem State.setAttempt_cache (k : Nat) : (s.setAttempt k).cache = s.cache := rfl
@[simp] theorem State.setAttempt_dec (k : Nat) : (s.setAttempt k).dec = s.dec := rfl
@[simp] theorem State.setAttempt_res (k : Nat) : (s.setAttempt k).res = s.res := rfl
@[simp] theorem State.setAttempt_tag (k : Nat) : (s.setAttempt k).tag = s.tag := rfl
@[simp] theorem State.setAttempt_env (k : Nat) : (s.setAttempt k).env = s.env := rfl
@[simp] theorem State.setAttempt_bus (k : Nat) : (s.setAttempt k).bus = s.bus := rfl
@[simp] theorem State.setAttempt_log (k : Nat) : (s.setAttempt k).log = s.log := rfl

@[simp] theorem State.setKind_par (k : Kind) : (s.setKind k).par = s.par := rfl
@[simp] theorem State.setKind_port (k : Kind) : (s.setKind k).port = s.port := rfl
@[simp] theorem State.setKind_eng (k : Kind) : (s.setKind k).eng = { s.eng with kind := k } := rfl
@[simp] theorem State.setKind_cache (k : Kind) : (s.setKind k).cache = s.cache := rfl
@[simp] theorem State.setKind_dec (k : Kind) : (s.setKind k).dec = s.dec := rfl
@[simp] theorem State.setKind_res (k : Kind) : (s.setKind k).res = s.res := rfl
@[simp] theorem State.setKind_tag (k : Kind) : (s.setKind k).tag = s.tag := rfl
@[simp] theorem State.setKind_env (k : Kind) : (s.setKind k).env = s.env := rfl
@[simp] theorem State.setKind_bus (k : Kind) : (s.setKind k).bus = s.bus := rfl
@[simp] theorem State.setKind_log (k : Kind) : (s.setKind k).log = s.log := rfl

@[simp] theorem State.setOperands_par (a n : Word) : (s.setOperands a n).par = s.par := rfl
@[simp] theorem State.setOperands_port (a n : Word) : (s.setOperands a n).port = s.port := rfl
@[simp] theorem State.setOperands_eng (a n : Word) : (s.setOperands a n).eng = { s.eng with a := a, n := n } := rfl
@[simp] theorem State.setOperands_cache (a n : Word) : (s.setOperands a n).cache = s.cache := rfl
@[simp] theorem State.setOperands_dec (a n : Word) : (s.setOperands a n).dec = s.dec := rfl
@[simp] theorem State.setOperands_res (a n : Word) : (s.setOperands a n).res = s.res := rfl
@[simp] theorem State.setOperands_tag (a n : Word) : (s.setOperands a n).tag = s.tag := rfl
@[simp] theorem State.setOperands_env (a n : Word) : (s.setOperands a n).env = s.env := rfl
@[simp] theorem State.setOperands_bus (a n : Word) : (s.setOperands a n).bus = s.bus := rfl
@[simp] theorem State.setOperands_log (a n : Word) : (s.setOperands a n).log = s.log := rfl

@[simp] theorem State.fillDbuf_par (bs : List Byte) : (s.fillDbuf bs).par = s.par := rfl
@[simp] theorem State.fillDbuf_port (bs : List Byte) : (s.fillDbuf bs).port = s.port := rfl
@[simp] theorem State.fillDbuf_eng (bs : List Byte) : (s.fillDbuf bs).eng = { s.eng with dbuf := (bs ++ s.eng.dbuf.drop bs.length).take maxBytes } := rfl
@[simp] theorem State.fillDbuf_cache (bs : List Byte) : (s.fillDbuf bs).cache = s.cache := rfl
@[simp] theorem State.fillDbuf_dec (bs : List Byte) : (s.fillDbuf bs).dec = s.dec := rfl
@[simp] theorem State.fillDbuf_res (bs : List Byte) : (s.fillDbuf bs).res = s.res := rfl
@[simp] theorem State.fillDbuf_tag (bs : List Byte) : (s.fillDbuf bs).tag = s.tag := rfl
@[simp] theorem State.fillDbuf_env (bs : List Byte) : (s.fillDbuf bs).env = s.env := rfl
@[simp] theorem State.fillDbuf_bus (bs : List Byte) : (s.fillDbuf bs).bus = s.bus := rfl
@[simp] theorem State.fillDbuf_log (bs : List Byte) : (s.fillDbuf bs).log = s.log := rfl

@[simp] theorem State.begin_par : s.begin.par = s.par := rfl
@[simp] theorem State.begin_port : s.begin.port = s.port := rfl
@[simp] theorem State.begin_eng : s.begin.eng = s.eng := rfl
@[simp] theorem State.begin_cache : s.begin.cache = s.cache := rfl
@[simp] theorem State.begin_dec : s.begin.dec = s.dec := rfl
@[simp] theorem State.begin_res : s.begin.res = s.res.start := rfl
@[simp] theorem State.begin_tag : s.begin.tag = s.tag := rfl
@[simp] theorem State.begin_env : s.begin.env = s.env := rfl
@[simp] theorem State.begin_bus : s.begin.bus = s.bus := rfl
@[simp] theorem State.begin_log : s.begin.log = s.log := rfl

@[simp] theorem State.raise_par (e : Err) : (s.raise e).par = s.par := rfl
@[simp] theorem State.raise_port (e : Err) : (s.raise e).port = s.port := rfl
@[simp] theorem State.raise_eng (e : Err) : (s.raise e).eng = { s.eng with phase := .idle } := rfl
@[simp] theorem State.raise_cache (e : Err) : (s.raise e).cache = s.cache := rfl
@[simp] theorem State.raise_dec (e : Err) : (s.raise e).dec = s.dec := rfl
@[simp] theorem State.raise_res (e : Err) : (s.raise e).res = s.res.fail e := rfl
@[simp] theorem State.raise_tag (e : Err) : (s.raise e).tag = s.tag := rfl
@[simp] theorem State.raise_env (e : Err) : (s.raise e).env = s.env := rfl
@[simp] theorem State.raise_bus (e : Err) : (s.raise e).bus = s.bus := rfl
@[simp] theorem State.raise_log (e : Err) : (s.raise e).log = s.log := rfl

@[simp] theorem State.succeed_par (v : Option OpResult) : (s.succeed v).par = s.par := rfl
@[simp] theorem State.succeed_port (v : Option OpResult) : (s.succeed v).port = s.port := rfl
@[simp] theorem State.succeed_eng (v : Option OpResult) : (s.succeed v).eng = { s.eng with phase := .idle } := rfl
@[simp] theorem State.succeed_cache (v : Option OpResult) : (s.succeed v).cache = s.cache := rfl
@[simp] theorem State.succeed_dec (v : Option OpResult) : (s.succeed v).dec = s.dec := rfl
@[simp] theorem State.succeed_res (v : Option OpResult) : (s.succeed v).res = s.res.done v := rfl
@[simp] theorem State.succeed_tag (v : Option OpResult) : (s.succeed v).tag = s.tag := rfl
@[simp] theorem State.succeed_env (v : Option OpResult) : (s.succeed v).env = s.env := rfl
@[simp] theorem State.succeed_bus (v : Option OpResult) : (s.succeed v).bus = s.bus := rfl
@[simp] theorem State.succeed_log (v : Option OpResult) : (s.succeed v).log = s.log := rfl

@[simp] theorem State.reenter_par (e : Err) : (s.reenter e).par = s.par := rfl
@[simp] theorem State.reenter_port (e : Err) : (s.reenter e).port = s.port := rfl
@[simp] theorem State.reenter_eng (e : Err) : (s.reenter e).eng = { s.eng with attempt := s.eng.attempt + 1, phase := .p1 } := rfl
@[simp] theorem State.reenter_cache (e : Err) : (s.reenter e).cache = s.cache := rfl
@[simp] theorem State.reenter_dec (e : Err) : (s.reenter e).dec = s.dec := rfl
@[simp] theorem State.reenter_res (e : Err) : (s.reenter e).res = s.res := rfl
@[simp] theorem State.reenter_tag (e : Err) : (s.reenter e).tag = s.tag := rfl
@[simp] theorem State.reenter_env (e : Err) : (s.reenter e).env = s.env := rfl
@[simp] theorem State.reenter_bus (e : Err) : (s.reenter e).bus = s.bus := rfl
@[simp] theorem State.reenter_log (e : Err) : (s.reenter e).log = .failure s.eng.attempt e.status e.info :: s.log := rfl

@[simp] theorem State.transact_par : s.transact.par = s.par := rfl
@[simp] theorem State.transact_port : s.transact.port = s.port := rfl
@[simp] theorem State.transact_eng : s.transact.eng = s.eng := rfl
@[simp] theorem State.transact_cache : s.transact.cache = s.cache := rfl
@[simp] theorem State.transact_dec : s.transact.dec = s.dec := rfl
@[simp] theorem State.transact_res : s.transact.res = s.res := rfl
@[simp] theorem State.transact_tag : s.transact.tag = s.tag.acts s.par s.event.tag := rfl
@[simp] theorem State.transact_env : s.transact.env = { script := s.env.script.tail, taken := s.env.taken + 1 } := rfl
@[simp] theorem State.transact_bus : s.transact.bus = s.bus := rfl
@[simp] theorem State.transact_log : s.transact.log = s.log := rfl

@[simp] theorem State.latchRd_par (a n : Word) : (s.latchRd a n).par = s.par := rfl
@[simp] theorem State.latchRd_port (a n : Word) : (s.latchRd a n).port = s.port := rfl
@[simp] theorem State.latchRd_eng (a n : Word) : (s.latchRd a n).eng = { s.eng with kind := .rd, a := a, n := n } := rfl
@[simp] theorem State.latchRd_cache (a n : Word) : (s.latchRd a n).cache = s.cache := rfl
@[simp] theorem State.latchRd_dec (a n : Word) : (s.latchRd a n).dec = s.dec := rfl
@[simp] theorem State.latchRd_res (a n : Word) : (s.latchRd a n).res = s.res := rfl
@[simp] theorem State.latchRd_tag (a n : Word) : (s.latchRd a n).tag = s.tag := rfl
@[simp] theorem State.latchRd_env (a n : Word) : (s.latchRd a n).env = s.env := rfl
@[simp] theorem State.latchRd_bus (a n : Word) : (s.latchRd a n).bus = s.bus := rfl
@[simp] theorem State.latchRd_log (a n : Word) : (s.latchRd a n).log = s.log := rfl

@[simp] theorem State.latchWr_par (a n : Word) (data : List Byte) : (s.latchWr a n data).par = s.par := rfl
@[simp] theorem State.latchWr_port (a n : Word) (data : List Byte) : (s.latchWr a n data).port = s.port := rfl
@[simp] theorem State.latchWr_eng (a n : Word) (data : List Byte) : (s.latchWr a n data).eng = { s.eng with kind := .wr, a := a, n := n, dbuf := (data ++ s.eng.dbuf.drop data.length).take maxBytes } := rfl
@[simp] theorem State.latchWr_cache (a n : Word) (data : List Byte) : (s.latchWr a n data).cache = s.cache := rfl
@[simp] theorem State.latchWr_dec (a n : Word) (data : List Byte) : (s.latchWr a n data).dec = s.dec := rfl
@[simp] theorem State.latchWr_res (a n : Word) (data : List Byte) : (s.latchWr a n data).res = s.res := rfl
@[simp] theorem State.latchWr_tag (a n : Word) (data : List Byte) : (s.latchWr a n data).tag = s.tag := rfl
@[simp] theorem State.latchWr_env (a n : Word) (data : List Byte) : (s.latchWr a n data).env = s.env := rfl
@[simp] theorem State.latchWr_bus (a n : Word) (data : List Byte) : (s.latchWr a n data).bus = s.bus := rfl
@[simp] theorem State.latchWr_log (a n : Word) (data : List Byte) : (s.latchWr a n data).log = s.log := rfl

@[simp] theorem State.cacheWord_par (k : Nat) (w : Word) : (s.cacheWord k w).par = s.par := rfl
@[simp] theorem State.cacheWord_port (k : Nat) (w : Word) : (s.cacheWord k w).port = s.port := rfl
@[simp] theorem State.cacheWord_eng (k : Nat) (w : Word) : (s.cacheWord k w).eng = s.eng := rfl
@[simp] theorem State.cacheWord_cache (k : Nat) (w : Word) : (s.cacheWord k w).cache = mapPut k w s.cache := rfl
@[simp] theorem State.cacheWord_dec (k : Nat) (w : Word) : (s.cacheWord k w).dec = s.dec := rfl
@[simp] theorem State.cacheWord_res (k : Nat) (w : Word) : (s.cacheWord k w).res = s.res := rfl
@[simp] theorem State.cacheWord_tag (k : Nat) (w : Word) : (s.cacheWord k w).tag = s.tag := rfl
@[simp] theorem State.cacheWord_env (k : Nat) (w : Word) : (s.cacheWord k w).env = s.env := rfl
@[simp] theorem State.cacheWord_bus (k : Nat) (w : Word) : (s.cacheWord k w).bus = s.bus := rfl
@[simp] theorem State.cacheWord_log (k : Nat) (w : Word) : (s.cacheWord k w).log = s.log := rfl

@[simp] theorem waitMs_par (ms : Nat) : (waitMs ms s).par = s.par := rfl
@[simp] theorem waitMs_port (ms : Nat) : (waitMs ms s).port = s.port := rfl
@[simp] theorem waitMs_eng (ms : Nat) : (waitMs ms s).eng = s.eng := rfl
@[simp] theorem waitMs_cache (ms : Nat) : (waitMs ms s).cache = s.cache := rfl
@[simp] theorem waitMs_dec (ms : Nat) : (waitMs ms s).dec = s.dec := rfl
@[simp] theorem waitMs_res (ms : Nat) : (waitMs ms s).res = s.res := rfl
@[simp] theorem waitMs_tag (ms : Nat) : (waitMs ms s).tag = s.tag := rfl
@[simp] theorem waitMs_env (ms : Nat) : (waitMs ms s).env = s.env := rfl
@[simp] theorem waitMs_bus (ms : Nat) : (waitMs ms s).bus = .wait ms :: s.bus := rfl
@[simp] theorem waitMs_log (ms : Nat) : (waitMs ms s).log = s.log := rfl

@[simp] theorem hardReset_par : (hardReset s).par = s.par := rfl
@[simp] theorem hardReset_port : (hardReset s).port = s.port := rfl
@[simp] theorem hardReset_eng : (hardReset s).eng = Engine.reset := rfl
@[simp] theorem hardReset_cache : (hardReset s).cache = [] := rfl
@[simp] theorem hardReset_dec : (hardReset s).dec = Decoder.reset := rfl
@[simp] theorem hardReset_res : (hardReset s).res = ResultRegs.reset := rfl
@[simp] theorem hardReset_tag : (hardReset s).tag = s.tag := rfl
@[simp] theorem hardReset_env : (hardReset s).env = s.env := rfl
@[simp] theorem hardReset_bus : (hardReset s).bus = s.bus := rfl
@[simp] theorem hardReset_log : (hardReset s).log = s.log := rfl

end Sys2Proof.Machine
end

