-- ==== Sys2Proof/Laws/Io.lean ====
section
/-! SUPPORT. What the primitives, the phases, an attempt, the retry wrapper and a transfer can do to the state, said once: a
relation they all keep, and how each primitive ends. -/

namespace Sys2Proof.Machine

/-! ### Sequencing -/

@[simp] theorem Res.ok_andThen {α β : Type} (v : α) (s : State) (f : α → State → Res β) :
    (Res.ok v s).andThen f = f v s := rfl

@[simp] theorem Res.err_andThen {α β : Type} (e : Err) (s : State) (f : α → State → Res β) :
    (Res.err e s).andThen f = .err e s := rfl

@[simp] theorem Res.ok_state {α : Type} (v : α) (s : State) : (Res.ok v s).state = s := rfl

@[simp] theorem Res.err_state {α : Type} (e : Err) (s : State) : (Res.err e s : Res α).state = s := rfl

@[simp] theorem Res.inState_ok {α : Type} (f : State → State) (v : α) (s : State) :
    (Res.ok v s).inState f = .ok v (f s) := rfl

@[simp] theorem Res.inState_err {α : Type} (f : State → State) (e : Err) (s : State) :
    (Res.err e s : Res α).inState f = .err e (f s) := rfl

@[simp] theorem Res.inState_state {α : Type} (f : State → State) (r : Res α) : (r.inState f).state = f r.state := by
  cases r <;> rfl

/-- A relation that composes is kept by a sequence if each part keeps it. -/
theorem Res.andThen_keeps {α β : Type} {R : State → State → Prop} (trans : ∀ {a b c}, R a b → R b c → R a c) {s : State}
    {r : Res α} {f : α → State → Res β} (h : R s r.state) (hf : ∀ v t, R t (f v t).state) : R s (r.andThen f).state := by
  cases r with
  | ok v t => exact trans h (hf v t)
  | err e t => exact h

/-! ### What transport traffic keeps -/

/-- What an attempt and everything built of attempts keeps: the parameters, the port, the cache, the decoder and the result
registers are as before, and the canonical forms and register ranges are kept. -/
structure Traffic (s t : State) : Prop where
  par : t.par = s.par
  port : t.port = s.port
  cache : t.cache = s.cache
  dec : t.dec = s.dec
  res : t.res = s.res
  tag : s.tag.wf s.par → t.tag.wf t.par
  dbuf : s.eng.dbuf.length = 400 → t.eng.dbuf.length = 400
  idmsg : s.eng.idmsg = 0 ∨ s.eng.idmsg = 1 → t.eng.idmsg = 0 ∨ t.eng.idmsg = 1

theorem Traffic.refl (s : State) : Traffic s s := ⟨rfl, rfl, rfl, rfl, rfl, id, id, id⟩

theorem Traffic.trans {a b c : State} (h : Traffic a b) (k : Traffic b c) : Traffic a c :=
  ⟨k.par.trans h.par, k.port.trans h.port, k.cache.trans h.cache, k.dec.trans h.dec, k.res.trans h.res,
    k.tag ∘ h.tag, k.dbuf ∘ h.dbuf, k.idmsg ∘ h.idmsg⟩

theorem Traffic.andThen {α β : Type} {s : State} {r : Res α} {f : α → State → Res β} (h : Traffic s r.state)
    (hf : ∀ v t, Traffic t (f v t).state) : Traffic s (r.andThen f).state :=
  Res.andThen_keeps (R := Traffic) (fun h k => h.trans k) h hf

theorem fillDbuf_length {bs old : List Byte} (h : old.length = 400) :
    ((bs ++ old.drop bs.length).take maxBytes).length = 400 := by
  simp only [maxBytes, List.length_take, List.length_append, List.length_drop, h]
  omega

theorem nextId_bit (b : Byte) : nextId b = 0 ∨ nextId b = 1 := by
  unfold nextId
  split
  · exact .inr rfl
  · exact .inl rfl

/-- The id chosen is never the one found (R131, R143). -/
theorem nextId_ne (b : Byte) : nextId b ≠ b := by
  unfold nextId
  split
  · rename_i h; rw [h]; decide
  · rename_i h; exact fun k => h k.symm

theorem Traffic.setPhase (s : State) (ph : Phase) : Traffic s (s.setPhase ph) := ⟨rfl, rfl, rfl, rfl, rfl, id, id, id⟩

theorem Traffic.setAttempt (s : State) (k : Nat) : Traffic s (s.setAttempt k) := ⟨rfl, rfl, rfl, rfl, rfl, id, id, id⟩

theorem Traffic.setKind (s : State) (k : Kind) : Traffic s (s.setKind k) := ⟨rfl, rfl, rfl, rfl, rfl, id, id, id⟩

theorem Traffic.setOperands (s : State) (a n : Word) : Traffic s (s.setOperands a n) :=
  ⟨rfl, rfl, rfl, rfl, rfl, id, id, id⟩

theorem Traffic.fillDbuf (s : State) (bs : List Byte) : Traffic s (s.fillDbuf bs) :=
  ⟨rfl, rfl, rfl, rfl, rfl, id, fillDbuf_length, id⟩

theorem Traffic.setIdmsg (s : State) (b : Byte) : Traffic s (s.setIdmsg (nextId b)) :=
  ⟨rfl, rfl, rfl, rfl, rfl, id, id, fun _ => nextId_bit b⟩

theorem Traffic.emit (s : State) (e : BusEvent) : Traffic s (s.emit e) := ⟨rfl, rfl, rfl, rfl, rfl, id, id, id⟩

theorem Traffic.record (s : State) (r : LogRecord) : Traffic s (s.record r) := ⟨rfl, rfl, rfl, rfl, rfl, id, id, id⟩

theorem Traffic.reenter (s : State) (e : Err) : Traffic s (s.reenter e) := ⟨rfl, rfl, rfl, rfl, rfl, id, id, id⟩

theorem Traffic.transact (s : State) : Traffic s s.transact :=
  ⟨rfl, rfl, rfl, rfl, rfl, fun h => Tag.acts_wf h _, id, id⟩

/-! ### How the primitives end -/

/-- `MemRead` answers with the bytes memory holds after the firmware's actions, or raises `TransportError`. -/
theorem memRead_ends (bank : Byte) (offset : Word) (len : Nat) (s : State) :
    (s.event.ok = true ∧ memRead bank offset len s =
      .ok (readBytes s.transact.tag.mem bank offset len)
        (s.transact.emit (.read bank offset len (some (readBytes s.transact.tag.mem bank offset len))))) ∨
    (s.event.ok = false ∧ memRead bank offset len s =
      .err (.transportError s.eng.phase) (s.transact.emit (.read bank offset len none))) := by
  unfold memRead
  cases h : s.event.ok
  · exact .inr ⟨rfl, rfl⟩
  · exact .inl ⟨rfl, rfl⟩

theorem memRead_traffic (bank : Byte) (offset : Word) (len : Nat) (s : State) :
    Traffic s (memRead bank offset len s).state := by
  obtain ⟨-, h⟩ | ⟨-, h⟩ := memRead_ends bank offset len s <;>
  · rw [h]
    exact (Traffic.transact s).trans (Traffic.emit _ _)

/-- A read answers exactly the length asked (R52, D32). -/
theorem memRead_length {bank : Byte} {offset : Word} {len : Nat} {s t : State} {bs : List Byte}
    (h : memRead bank offset len s = .ok bs t) : bs.length = len := by
  obtain ⟨-, k⟩ | ⟨-, k⟩ := memRead_ends bank offset len s
  · rw [k] at h
    cases h
    exact readBytes_length _ _ _ _
  · rw [k] at h
    cases h

theorem memWrite_traffic (bank : Byte) (offset : Word) (bytes : List Byte) (s : State) :
    Traffic s (memWrite bank offset bytes s).state := by
  have h : ∀ l : List Byte, Traffic s ((s.transact.setTag
      { s.transact.tag with mem := writeBytes s.transact.tag.mem bank offset l }).emit
        (.write bank offset bytes s.event.ok)) := fun l =>
    (Traffic.transact s).trans ⟨rfl, rfl, rfl, rfl, rfl, fun h => ⟨writeBytes_wf h.1 _ _ _, h.2⟩, id, id⟩
  unfold memWrite
  cases hok : s.event.ok
  · have := h (s.event.landed.take bytes.length)
    rw [hok] at this
    exact this
  · have := h bytes
    rw [hok] at this
    exact this

theorem triggerRead_traffic (s : State) : Traffic s (triggerRead s).state := by
  have h : ∀ e, Traffic s ((s.transact.setTag (s.transact.tag.trigger s.par)).emit e) := fun e =>
    (Traffic.transact s).trans ⟨rfl, rfl, rfl, rfl, rfl, fun h => h, id, id⟩
  have k : ∀ e, Traffic s (s.transact.emit e) := fun e => (Traffic.transact s).trans (Traffic.emit _ _)
  unfold triggerRead
  cases hok : s.event.ok <;> cases hr : s.event.reached
  · exact k _
  · exact h _
  · exact h _
  · exact h _

/-! ### Phases and attempts -/

theorem phaseP1_traffic (s : State) : Traffic s (phaseP1 s).state :=
  Traffic.andThen ((Traffic.setPhase s .p1).trans (memRead_traffic _ _ _ _))
    fun _ _ => Traffic.setIdmsg _ _

theorem phaseP2_traffic (s : State) : Traffic s (phaseP2 s).state :=
  (Traffic.setPhase s .p2).trans (memWrite_traffic _ _ _ _)

theorem phaseP2B_traffic (s : State) : Traffic s (phaseP2B s).state := by
  unfold phaseP2B
  cases s.eng.kind
  · exact Traffic.refl s
  · exact (Traffic.setPhase s .p2b).trans (memWrite_traffic _ _ _ _)

theorem phaseP3_traffic (s : State) : Traffic s (phaseP3 s).state :=
  Traffic.andThen ((Traffic.setPhase s .p3).trans (triggerRead_traffic _)) fun _ t => Traffic.refl t

theorem phaseP4_traffic (s : State) : Traffic s (phaseP4 s).state :=
  (Traffic.setPhase s .p4).trans (Traffic.emit _ _)

theorem phaseP6_traffic (s : State) : Traffic s (phaseP6 s).state := by
  unfold phaseP6
  cases s.eng.kind
  · exact Traffic.andThen ((Traffic.setPhase s .p6).trans (memRead_traffic _ _ _ _))
      fun _ _ => Traffic.fillDbuf _ _
  · exact Traffic.refl s

theorem afterReply_traffic (id code : Byte) (s : State) : Traffic s (afterReply id code s).state := by
  unfold afterReply
  cases replyVerdict s.eng.idmsg id code
  · exact phaseP6_traffic s
  · exact Traffic.refl s

theorem phaseP5_traffic (s : State) : Traffic s (phaseP5 s).state :=
  Traffic.andThen ((Traffic.setPhase s .p5).trans (memRead_traffic _ _ _ _))
    fun _ t => afterReply_traffic _ _ t

theorem attempt_traffic (s : State) : Traffic s (attempt s).state := by
  unfold attempt
  rw [Res.inState_state]
  refine Traffic.trans ?_ (Traffic.setPhase _ _)
  refine Traffic.andThen (phaseP1_traffic s) fun _ t => ?_
  refine Traffic.andThen (phaseP2_traffic t) fun _ t => ?_
  refine Traffic.andThen (phaseP2B_traffic t) fun _ t => ?_
  refine Traffic.andThen (phaseP3_traffic t) fun _ t => ?_
  exact Traffic.andThen (phaseP4_traffic t) fun _ t => phaseP5_traffic t

theorem retryLoop_traffic (left : Nat) (s : State) : Traffic s (retryLoop left s).state := by
  induction left generalizing s with
  | zero =>
    have h := attempt_traffic s
    unfold retryLoop
    cases hr : attempt s with
    | ok d t => rw [hr] at h; exact h
    | err e t =>
      rw [hr] at h
      dsimp only
      split
      · exact h.trans (Traffic.record _ _)
      · exact h
  | succ left ih =>
    have h := attempt_traffic s
    unfold retryLoop
    cases hr : attempt s with
    | ok d t => rw [hr] at h; exact h
    | err e t =>
      rw [hr] at h
      dsimp only
      split
      · exact (h.trans (Traffic.reenter t e)).trans (ih _)
      · exact h

theorem retry_traffic (s : State) : Traffic s (retry s).state :=
  (Traffic.setAttempt s 1).trans (retryLoop_traffic _ _)

theorem check_traffic (B Lb : Word) (s : State) : Traffic s (check B Lb s).state := by
  unfold check
  cases chkVerdict B Lb
  · exact (Traffic.setPhase s .chk).trans (Traffic.setOperands _ _ _)
  · exact Traffic.setPhase s .chk

theorem transferRd_traffic (B Lb : Word) (s : State) : Traffic s (transferRd B Lb s).state :=
  Traffic.andThen (check_traffic B Lb s) fun _ t => (Traffic.setKind t .rd).trans (retry_traffic _)

theorem transferWr_traffic (B Lb : Word) (data : List Byte) (s : State) : Traffic s (transferWr B Lb data s).state :=
  Traffic.andThen (check_traffic B Lb s) fun _ t =>
    ((Traffic.setKind t .wr).trans (Traffic.fillDbuf _ _)).trans (retry_traffic _)

end Sys2Proof.Machine
end

