-- ==== Sys2Proof/Laws/Attempt.lean ====
section
/-! SUPPORT. How an attempt, the retry wrapper and a transfer end: what they leave in the engine and on the bus, and which errors
they raise. -/

namespace Sys2Proof.Machine

/-! ### Errors a piece of an operation can raise -/

/-- Every error this piece raises has the property. -/
def Res.Raises {α : Type} (P : Err → Prop) : Res α → Prop
  | .ok _ _ => True
  | .err e _ => P e

theorem Res.Raises.andThen {α β : Type} {P : Err → Prop} {r : Res α} {f : α → State → Res β} (h : r.Raises P)
    (hf : ∀ v t, (f v t).Raises P) : (r.andThen f).Raises P := by
  cases r with
  | ok v t => exact hf v t
  | err e t => exact h

theorem Res.Raises.inState {α : Type} {P : Err → Prop} {r : Res α} (h : r.Raises P) (f : State → State) :
    (r.inState f).Raises P := by
  cases r with
  | ok v t => trivial
  | err e t => exact h

theorem Res.Raises.mono {α : Type} {P Q : Err → Prop} {r : Res α} (h : r.Raises P) (k : ∀ e, P e → Q e) : r.Raises Q := by
  cases r with
  | ok v t => trivial
  | err e t => exact k e h

/-- An attempt raises only what the retry wrapper catches (42_transfer_retry.md R154). -/
abbrev Retried (e : Err) : Prop := e.retried = true

theorem memRead_raises (bank : Byte) (offset : Word) (len : Nat) (s : State) :
    (memRead bank offset len s).Raises Retried := by
  obtain ⟨-, h⟩ | ⟨-, h⟩ := memRead_ends bank offset len s <;> rw [h]
  · trivial
  · rfl

theorem memWrite_raises (bank : Byte) (offset : Word) (bytes : List Byte) (s : State) :
    (memWrite bank offset bytes s).Raises Retried := by
  unfold memWrite
  cases s.event.ok
  · rfl
  · trivial

theorem triggerRead_raises (s : State) : (triggerRead s).Raises Retried := by
  unfold triggerRead
  cases s.event.ok
  · rfl
  · trivial

theorem phaseP6_raises (s : State) : (phaseP6 s).Raises Retried := by
  unfold phaseP6
  cases s.eng.kind
  · exact (memRead_raises _ _ _ _).andThen fun _ _ => trivial
  · trivial

theorem afterReply_raises (id code : Byte) (s : State) : (afterReply id code s).Raises Retried := by
  unfold afterReply replyVerdict
  split
  · rename_i e h
    revert h
    repeat' split
    all_goals intro h; cases h
    all_goals rfl
  · exact phaseP6_raises s

theorem attempt_raises (s : State) : (attempt s).Raises Retried := by
  unfold attempt
  refine Res.Raises.inState (Res.Raises.andThen ?_ fun _ t => ?_) _
  · exact (memRead_raises _ _ _ _).andThen fun _ _ => trivial
  refine Res.Raises.andThen (memWrite_raises _ _ _ _) fun _ t => ?_
  refine Res.Raises.andThen ?_ fun _ t => ?_
  · unfold phaseP2B
    cases t.eng.kind
    · trivial
    · exact memWrite_raises _ _ _ _
  refine Res.Raises.andThen ((triggerRead_raises _).andThen fun _ _ => trivial) fun _ t => ?_
  exact (memRead_raises _ _ _ _).andThen fun _ _ => afterReply_raises _ _ _

/-- The errors a transfer raises (R152): its own check's, or exhaustion. -/
def Err.ofTransfer : Err → Prop
  | .invalidArgument _ | .communicationExhausted _ => True
  | .transportError _ | .protocolTimeout _ | .tagRejected | .configurationError _ => False

/-- The retry loop raises `CommunicationExhausted` and nothing else (R157). -/
theorem retryLoop_raises (left : Nat) (s : State) :
    (retryLoop left s).Raises fun e => ∃ c : Err, c.retried = true ∧ e = .communicationExhausted c.status := by
  induction left generalizing s with
  | zero =>
    have h := attempt_raises s
    unfold retryLoop
    cases hr : attempt s with
    | ok d t => trivial
    | err e t =>
      rw [hr] at h
      have h : e.retried = true := h
      simp only [h, if_true]
      exact ⟨e, h, rfl⟩
  | succ left ih =>
    have h := attempt_raises s
    unfold retryLoop
    cases hr : attempt s with
    | ok d t => trivial
    | err e t =>
      rw [hr] at h
      have h : e.retried = true := h
      simp only [h, if_true]
      exact ih _

theorem retry_raises (s : State) : (retry s).Raises fun e => ∃ c : Err, c.retried = true ∧ e = .communicationExhausted c.status :=
  retryLoop_raises _ _

theorem chkVerdict_raises {B Lb : Word} {e : Err} (h : chkVerdict B Lb = some e) :
    e = .invalidArgument 1 ∨ e = .invalidArgument 2 := by
  unfold chkVerdict at h
  split at h
  · exact .inl (Option.some.inj h).symm
  · repeat' split at h
    all_goals first
      | exact .inr (Option.some.inj h).symm
      | cases h

theorem check_raises (B Lb : Word) (s : State) : (check B Lb s).Raises Err.ofTransfer := by
  unfold check
  cases h : chkVerdict B Lb with
  | none => trivial
  | some e => obtain h | h := chkVerdict_raises h <;> subst h <;> trivial

theorem transferRd_raises (B Lb : Word) (s : State) : (transferRd B Lb s).Raises Err.ofTransfer :=
  (check_raises B Lb s).andThen fun _ _ => (retry_raises _).mono fun _ ⟨_, _, h⟩ => h ▸ trivial

theorem transferWr_raises (B Lb : Word) (data : List Byte) (s : State) : (transferWr B Lb data s).Raises Err.ofTransfer :=
  (check_raises B Lb s).andThen fun _ _ => (retry_raises _).mono fun _ ⟨_, _, h⟩ => h ▸ trivial

/-! ### What traffic leaves in the engine and on the bus -/

/-- What traffic of at most `k` transport calls and `j` re-entries leaves: the parameters and the attempt's latched command
and operands, at most `j` more attempts, and only allowed events on the bus (20_memory.md R63). -/
structure Carries (j k : Nat) (s t : State) : Prop where
  par : t.par = s.par
  kind : t.eng.kind = s.eng.kind
  a : t.eng.a = s.eng.a
  n : t.eng.n = s.eng.n
  attempt_le : t.eng.attempt ≤ s.eng.attempt + j
  le_attempt : s.eng.attempt ≤ t.eng.attempt
  bus : ∃ events, t.bus = events ++ s.bus ∧ busCalls events ≤ k ∧
    (s.eng.n.toNat ≤ 200 → ∀ e ∈ events, e.allowed s.par)

theorem busCalls_append (b c : List BusEvent) : busCalls (b ++ c) = busCalls b + busCalls c := by
  simp only [busCalls, List.filter_append, List.length_append]

/-- An update that touches none of what `Carries` speaks of. -/
theorem Carries.still {s t : State} (hp : t.par = s.par) (hk : t.eng.kind = s.eng.kind) (ha : t.eng.a = s.eng.a)
    (hn : t.eng.n = s.eng.n) (hc : t.eng.attempt = s.eng.attempt) (hb : t.bus = s.bus) : Carries 0 0 s t :=
  ⟨hp, hk, ha, hn, hc.le, hc.ge, [], hb, Nat.le_refl 0, fun _ _ h => absurd h List.not_mem_nil⟩

theorem Carries.refl (s : State) : Carries 0 0 s s := Carries.still rfl rfl rfl rfl rfl rfl

theorem Carries.setPhase (s : State) (ph : Phase) : Carries 0 0 s (s.setPhase ph) := Carries.still rfl rfl rfl rfl rfl rfl

theorem Carries.setIdmsg (s : State) (id : Byte) : Carries 0 0 s (s.setIdmsg id) := Carries.still rfl rfl rfl rfl rfl rfl

theorem Carries.fillDbuf (s : State) (bs : List Byte) : Carries 0 0 s (s.fillDbuf bs) :=
  Carries.still rfl rfl rfl rfl rfl rfl

theorem Carries.record (s : State) (r : LogRecord) : Carries 0 0 s (s.record r) := Carries.still rfl rfl rfl rfl rfl rfl

theorem Carries.reenter (s : State) (e : Err) : Carries 1 0 s (s.reenter e) :=
  ⟨rfl, rfl, rfl, rfl, Nat.le_refl _, Nat.le_succ _, [], rfl, Nat.le_refl 0, fun _ _ h => absurd h List.not_mem_nil⟩

theorem Carries.trans {i j k l : Nat} {a b c : State} (h : Carries i k a b) (g : Carries j l b c) :
    Carries (i + j) (k + l) a c := by
  obtain ⟨x, hx, hxl, hxa⟩ := h.bus
  obtain ⟨y, hy, hyl, hya⟩ := g.bus
  refine ⟨g.par.trans h.par, g.kind.trans h.kind, g.a.trans h.a, g.n.trans h.n, ?_, ?_, y ++ x, ?_, ?_, fun hn e he => ?_⟩
  · have := h.attempt_le
    have := g.attempt_le
    omega
  · exact h.le_attempt.trans g.le_attempt
  · rw [hy, hx, List.append_assoc]
  · rw [busCalls_append]
    omega
  · obtain he | he := List.mem_append.mp he
    · have := hya (h.n ▸ hn) e he
      rwa [h.par] at this
    · exact hxa hn e he

theorem Carries.mono {i j k l : Nat} {a b : State} (h : Carries i k a b) (hj : i ≤ j) (hl : k ≤ l) : Carries j l a b := by
  obtain ⟨x, hx, hxl, hxa⟩ := h.bus
  exact ⟨h.par, h.kind, h.a, h.n, h.attempt_le.trans (Nat.add_le_add_left hj _), h.le_attempt, x, hx, hxl.trans hl, hxa⟩

theorem Carries.andThen {k l : Nat} {α β : Type} {s : State} {r : Res α} {f : α → State → Res β}
    (h : Carries 0 k s r.state) (hf : ∀ v t, t.eng.kind = s.eng.kind → Carries 0 l t (f v t).state) :
    Carries 0 (k + l) s (r.andThen f).state := by
  cases r with
  | ok v t => exact h.trans (hf v t h.kind)
  | err e t => exact h.mono (Nat.le_refl 0) (Nat.le_add_right _ _)

/-- One transport call: the engine as it was, one event more on the bus. -/
theorem Carries.call {s t : State} {e : BusEvent} (hp : t.par = s.par) (he : t.eng = s.eng) (hb : t.bus = e :: s.bus)
    (ha : s.eng.n.toNat ≤ 200 → e.allowed s.par) : Carries 0 1 s t := by
  refine ⟨hp, by rw [he], by rw [he], by rw [he], by rw [he]; omega, by rw [he], [e], hb, ?_, fun hn x hx => ?_⟩
  · exact List.length_filter_le _ _
  · rw [List.mem_singleton.mp hx]
    exact ha hn

theorem memRead_carries {bank : Byte} {offset : Word} {len : Nat} {s : State}
    (h : s.eng.n.toNat ≤ 200 → ∀ r, (BusEvent.read bank offset len r).allowed s.par) :
    Carries 0 1 s (memRead bank offset len s).state := by
  obtain ⟨-, k⟩ | ⟨-, k⟩ := memRead_ends bank offset len s <;> rw [k] <;>
  exact Carries.call rfl rfl rfl fun hn => h hn _

theorem memWrite_carries {bank : Byte} {offset : Word} {bytes : List Byte} {s : State}
    (h : s.eng.n.toNat ≤ 200 → ∀ r, (BusEvent.write bank offset bytes r).allowed s.par) :
    Carries 0 1 s (memWrite bank offset bytes s).state := by
  unfold memWrite
  cases s.event.ok <;> exact Carries.call rfl rfl rfl fun hn => h hn _

theorem triggerRead_carries (s : State) : Carries 0 1 s (triggerRead s).state := by
  unfold triggerRead
  cases s.event.ok <;> cases s.event.reached <;>
  exact Carries.call rfl rfl rfl fun _ => .inr (.inl ⟨rfl, rfl, rfl⟩)

theorem phaseP1_carries (s : State) : Carries 0 1 s (phaseP1 s).state :=
  Carries.andThen (l := 0) ((Carries.setPhase s .p1).trans (memRead_carries fun _ _ => .inl ⟨rfl, rfl, rfl⟩))
    fun _ t _ => Carries.setIdmsg t _

theorem phaseP2_carries (s : State) : Carries 0 1 s (phaseP2 s).state :=
  (Carries.setPhase s .p2).trans (memWrite_carries fun _ _ => .inl ⟨rfl, rfl, paramBlock_length _ _ _ _⟩)

/-- The calls P2B makes (R130). -/
def callsP2B : Kind → Nat
  | .rd => 0
  | .wr => 1

theorem phaseP2B_carries (s : State) : Carries 0 (callsP2B s.eng.kind) s (phaseP2B s).state := by
  unfold phaseP2B
  cases s.eng.kind
  · exact Carries.refl s
  · refine (Carries.setPhase s .p2b).trans (memWrite_carries fun hn _ => .inr ⟨rfl, rfl, ?_⟩)
    have hn : s.eng.n.toNat ≤ 200 := hn
    simp only [byteCount, List.length_take]
    simp only [State.setPhase_eng]
    omega

theorem phaseP3_carries (s : State) : Carries 0 1 s (phaseP3 s).state :=
  Carries.andThen (l := 0) ((Carries.setPhase s .p3).trans (triggerRead_carries _)) fun _ t _ => Carries.refl t

theorem phaseP4_carries (s : State) : Carries 0 0 s (phaseP4 s).state :=
  ⟨rfl, rfl, rfl, rfl, Nat.le_refl _, Nat.le_refl _, [_], rfl, Nat.le_refl 0, fun _ e he => by
    rw [List.mem_singleton.mp he]
    trivial⟩

/-- The calls P6 makes (R130). -/
def callsP6 : Kind → Nat
  | .rd => 1
  | .wr => 0

theorem phaseP6_carries (s : State) : Carries 0 (callsP6 s.eng.kind) s (phaseP6 s).state := by
  unfold phaseP6
  cases s.eng.kind
  · refine Carries.andThen (k := 1) (l := 0) ((Carries.setPhase s .p6).trans
      (memRead_carries fun hn _ => .inr (.inr ⟨rfl, rfl, ?_, ?_⟩))) fun _ t _ => Carries.fillDbuf t _
    · have hn : s.eng.n.toNat ≤ 200 := hn
      simp only [byteCount, State.setPhase_eng]
      omega
    · exact Nat.mul_mod_right 2 _
  · exact Carries.refl s

theorem afterReply_carries (id code : Byte) (s : State) :
    Carries 0 (callsP6 s.eng.kind) s (afterReply id code s).state := by
  unfold afterReply
  cases replyVerdict s.eng.idmsg id code
  · exact phaseP6_carries s
  · exact (Carries.refl s).mono (Nat.le_refl 0) (Nat.zero_le _)

theorem phaseP5_carries (s : State) : Carries 0 (1 + callsP6 s.eng.kind) s (phaseP5 s).state :=
  Carries.andThen ((Carries.setPhase s .p5).trans (memRead_carries fun _ _ => .inl ⟨rfl, rfl, rfl⟩))
    fun _ t h => by
      have h : t.eng.kind = s.eng.kind := h
      rw [← h]
      exact afterReply_carries _ _ t

/-- An attempt makes at most five transport calls (42_transfer_retry.md R158). -/
theorem attempt_carries (s : State) : Carries 0 5 s (attempt s).state := by
  unfold attempt
  rw [Res.inState_state]
  refine Carries.trans (i := 0) ?_ (Carries.setPhase _ _)
  have h : 1 + (1 + (callsP2B s.eng.kind + (1 + (0 + (1 + callsP6 s.eng.kind))))) = 5 := by
    cases s.eng.kind <;> rfl
  refine Carries.mono ?_ (Nat.le_refl 0) h.le
  refine (phaseP1_carries s).andThen fun _ t h1 => ?_
  refine (phaseP2_carries t).andThen fun _ t h2 => ?_
  rw [← h1, ← h2]
  refine (phaseP2B_carries t).andThen fun _ t h3 => ?_
  refine (phaseP3_carries t).andThen fun _ t h4 => ?_
  refine (phaseP4_carries t).andThen fun _ t h5 => ?_
  rw [← h3, ← h4, ← h5]
  exact phaseP5_carries t

/-- An attempt writes no diagnostic record. -/
theorem attempt_log (s : State) : (attempt s).state.log = s.log := by
  have mr : ∀ bank offset len (s : State), (memRead bank offset len s).state.log = s.log := fun bank offset len s => by
    obtain ⟨-, k⟩ | ⟨-, k⟩ := memRead_ends bank offset len s <;> rw [k] <;> rfl
  have mw : ∀ bank offset bytes (s : State), (memWrite bank offset bytes s).state.log = s.log := fun _ _ _ s => by
    unfold memWrite
    cases s.event.ok <;> rfl
  have tr : ∀ s : State, (triggerRead s).state.log = s.log := fun s => by
    unfold triggerRead
    cases s.event.ok <;> cases s.event.reached <;> rfl
  have keep : ∀ {α β : Type} {s : State} {r : Res α} {f : α → State → Res β}, r.state.log = s.log →
      (∀ v t, (f v t).state.log = t.log) → (r.andThen f).state.log = s.log := fun {_ _ s r f} h hf =>
    Res.andThen_keeps (R := fun a b => b.log = a.log) (fun h k => k.trans h) h hf
  have p6 : ∀ s : State, (phaseP6 s).state.log = s.log := fun s => by
    unfold phaseP6
    cases s.eng.kind
    · exact keep (s := s.setPhase .p6) (mr _ _ _ _) fun _ _ => rfl
    · rfl
  unfold attempt
  rw [Res.inState_state]
  refine keep (keep (s := s.setPhase .p1) (mr _ _ _ _) fun _ _ => rfl) fun _ t => ?_
  refine keep (mw _ _ _ (t.setPhase .p2)) fun _ t => ?_
  refine keep ?_ fun _ t => ?_
  · unfold phaseP2B
    cases t.eng.kind
    · rfl
    · exact mw _ _ _ (t.setPhase .p2b)
  refine keep (keep (s := t.setPhase .p3) (tr _) fun _ _ => rfl) fun _ t => ?_
  refine keep (s := t) rfl fun _ t => ?_
  refine keep (s := t.setPhase .p5) (mr _ _ _ _) fun _ t => ?_
  unfold afterReply
  cases replyVerdict t.eng.idmsg _ _
  · exact p6 t
  · rfl

/-- An attempt ends in IDLE (41_handshake.md R140, 60_exceptions.md R216). -/
theorem attempt_idle (s : State) : (attempt s).state.eng.phase = .idle := by
  unfold attempt
  rw [Res.inState_state]
  rfl

/-! ### The retry wrapper and the transfers -/

/-- A retry loop that may make `left + 1` attempts makes at most `left` re-entries. -/
theorem retryLoop_carries (left : Nat) (s : State) : Carries left (5 * (left + 1)) s (retryLoop left s).state := by
  induction left generalizing s with
  | zero =>
    have h := attempt_carries s
    unfold retryLoop
    cases hr : attempt s with
    | ok d t => rw [hr] at h; exact h
    | err e t =>
      rw [hr] at h
      dsimp only
      split
      · exact Carries.trans (i := 0) (j := 0) (k := 5) (l := 0) h (Carries.record _ _)
      · exact h
  | succ left ih =>
    have h := attempt_carries s
    unfold retryLoop
    cases hr : attempt s with
    | ok d t => rw [hr] at h; exact h.mono (by omega) (by omega)
    | err e t =>
      rw [hr] at h
      dsimp only
      split
      · exact ((h.trans (Carries.reenter t e)).trans (ih _)).mono (by omega) (by omega)
      · exact h.mono (by omega) (by omega)

/-- A transfer leaves between 1 and 3 attempts, its operands latched, at most 15 calls (R158); one whose operands fail the
check leaves all but the phase. -/
theorem retry_carries (s : State) : Carries 2 15 (s.setAttempt 1) (retry s).state := retryLoop_carries 2 _

theorem retry_attempt (s : State) : 1 ≤ (retry s).state.eng.attempt ∧ (retry s).state.eng.attempt ≤ 3 :=
  ⟨(retry_carries s).le_attempt, (retry_carries s).attempt_le⟩

theorem check_fails {B Lb : Word} {e : Err} (h : chkVerdict B Lb = some e) (s : State) :
    check B Lb s = .err e (s.setPhase .chk) := by
  unfold check
  rw [h]

theorem check_passes {B Lb : Word} (h : chkVerdict B Lb = none) (s : State) :
    check B Lb s = .ok () ((s.setPhase .chk).setOperands (wordForm B) (wordForm Lb)) := by
  unfold check
  rw [h]

/-- The operands `CHK` accepts (R150). -/
theorem chkVerdict_none {B Lb : Word} (h : chkVerdict B Lb = none) :
    B.toNat % 2 = 0 ∧ Lb.toNat % 2 = 0 ∧ 0 < Lb.toNat ∧ Lb.toNat ≤ 400 := by
  unfold chkVerdict maxBytes at h
  repeat' split at h
  all_goals first
    | cases h; done
    | omega

theorem chkVerdict_accepts {B Lb : Word} (hB : B.toNat % 2 = 0) (hL : Lb.toNat % 2 = 0) (h0 : 0 < Lb.toNat)
    (h4 : Lb.toNat ≤ 400) : chkVerdict B Lb = none := by
  unfold chkVerdict maxBytes
  rw [if_neg (by omega), if_neg (by omega), if_neg (by omega), if_neg (by omega)]

theorem wordForm_toNat (v : Word) : (wordForm v).toNat = v.toNat / 2 := by
  have := v.isLt
  simp only [wordForm, BitVec.toNat_ofNat]
  omega

end Sys2Proof.Machine
end

