-- ==== Sys2Proof/Laws/Codec.lean ====
section
/-! SUPPORT. The codec band by band: what each function comes to on each part of its range (spec/40_codec.md). -/

namespace Sys2Proof.Machine

variable {q : Rat}

/-! ### `round` (R112) -/

/-- `round` of what lies between two integers lies between them. -/
theorem roundHalfUp_mem {x : Rat} {lo hi : Int} (hlo : (lo : Rat) ≤ x) (hhi : x ≤ hi) :
    lo ≤ roundHalfUp x ∧ roundHalfUp x ≤ hi := by
  unfold roundHalfUp
  have a : lo ≤ (x + 1 / 2).floor := Rat.le_floor_iff.mpr (by linarith)
  have b : (x + 1 / 2).floor < hi + 1 := Rat.floor_lt_iff.mpr (by push_cast; linarith)
  omega

theorem roundHalfUp_intCast (z : Int) : roundHalfUp (z : Rat) = z := by
  have a : roundHalfUp (z : Rat) ≥ z := (roundHalfUp_mem (le_refl _) (le_refl _)).1
  have b : roundHalfUp (z : Rat) ≤ z := (roundHalfUp_mem (le_refl _) (le_refl _)).2
  omega

/-- A code that fits in 16 bits is stored whole. -/
theorem ofInt_toNat {z : Int} (h0 : 0 ≤ z) (h1 : z < 65536) : ((BitVec.ofInt 16 z).toNat : Int) = z := by
  rw [BitVec.toNat_ofInt]
  omega

/-! ### `ENC` (R113, R114, R120) -/

theorem encodeTempReal_above (h : 70 < q) : encodeTempReal q = encodeTempReal 70 := by
  unfold encodeTempReal
  dsimp only
  rw [if_pos (show q > 70 from h), if_neg (show ¬ (70 : Rat) > 70 by norm_num),
    if_neg (show ¬ (70 : Rat) < -30 by norm_num)]

theorem encodeTempReal_below (h : q < -30) : encodeTempReal q = encodeTempReal (-30) := by
  unfold encodeTempReal
  dsimp only
  rw [if_neg (show ¬ q > 70 by linarith), if_pos h, if_neg (show ¬ (-30 : Rat) > 70 by norm_num),
    if_neg (show ¬ (-30 : Rat) < -30 by norm_num)]

theorem encodeTempReal_nonneg (h0 : 0 ≤ q) (h1 : q ≤ 70) :
    encodeTempReal q = BitVec.ofInt 16 (roundHalfUp (q * 32)) := by
  unfold encodeTempReal
  dsimp only
  rw [if_neg (show ¬ q > 70 by linarith), if_neg (show ¬ q < -30 by linarith), if_pos (show q ≥ 0 from h0)]

theorem encodeTempReal_neg (h0 : -30 ≤ q) (h1 : q < 0) :
    encodeTempReal q = BitVec.ofInt 16 (roundHalfUp (q * 32) + 8192) := by
  unfold encodeTempReal
  dsimp only
  rw [if_neg (show ¬ q > 70 by linarith), if_neg (show ¬ q < -30 by linarith), if_neg (show ¬ q ≥ 0 by linarith)]

theorem encodeHumReal_above (h : 100 < q) : encodeHumReal q = encodeHumReal 100 := by
  unfold encodeHumReal
  dsimp only
  rw [if_pos (show q > 100 from h), if_neg (show ¬ (100 : Rat) > 100 by norm_num)]

theorem encodeHumReal_mem (h0 : 0 ≤ q) (h1 : q ≤ 100) :
    encodeHumReal q = some (BitVec.ofInt 16 (roundHalfUp (q * 32))) := by
  unfold encodeHumReal
  dsimp only
  rw [if_neg (show ¬ q > 100 by linarith), if_pos (show q ≥ 0 from h0)]

theorem encodeHumReal_neg (h : q < 0) : encodeHumReal q = none := by
  unfold encodeHumReal
  dsimp only
  rw [if_neg (show ¬ q > 100 by linarith), if_neg (show ¬ q ≥ 0 by linarith)]

/-! ### `DEC` (R115, R116) -/

variable {raw : Word}

theorem decodeTemp_positive (h : raw.toNat ≤ 2240) : decodeTemp raw = (raw.toNat : Rat) / 32 := if_pos h

theorem decodeTemp_clamped (h0 : 2240 < raw.toNat) (h1 : raw.toNat < 7232) : decodeTemp raw = 70 := by
  unfold decodeTemp
  rw [if_neg (by omega), if_pos h1]

theorem decodeTemp_negative (h0 : 7232 ≤ raw.toNat) (h1 : raw.toNat < 8192) :
    decodeTemp raw = ((raw.toNat : Rat) - 8192) / 32 := by
  unfold decodeTemp
  rw [if_neg (by omega), if_neg (by omega), if_pos h1]

theorem decodeTemp_beyond (h : 8192 ≤ raw.toNat) : decodeTemp raw = 0 := by
  unfold decodeTemp
  rw [if_neg (by omega), if_neg (by omega), if_neg (by omega)]

theorem decodeHum_linear (h : raw.toNat ≤ 3200) : decodeHum raw = (raw.toNat : Rat) / 32 := if_pos h

theorem decodeHum_beyond (h : 3200 < raw.toNat) : decodeHum raw = 0 := if_neg (by omega)

end Sys2Proof.Machine
end

