-- ==== Sys2Proof/Laws/Operation.lean ====
section
/-! SUPPORT. What the body of an operation keeps, said once for the transfers, the cache and the log decoder; and what the end of
an operation leaves. -/

namespace Sys2Proof.Machine

/-! ### The end of an operation -/

/-- An error reaches the host by the one error entry (60_exceptions.md R215). -/
@[simp] theorem Res.finish_err (e : Err) (s : State) : Res.finish (.err e s) = s.raise e := rfl

@[simp] theorem Res.finish_ok (v : Option OpResult) (s : State) : Res.finish (.ok v s) = s.succeed v := rfl

@[simp] theorem Res.finish_par (r : Res (Option OpResult)) : r.finish.par = r.state.par := by cases r <;> rfl
@[simp] theorem Res.finish_port (r : Res (Option OpResult)) : r.finish.port = r.state.port := by cases r <;> rfl
@[simp] theorem Res.finish_cache (r : Res (Option OpResult)) : r.finish.cache = r.state.cache := by cases r <;> rfl
@[simp] theorem Res.finish_dec (r : Res (Option OpResult)) : r.finish.dec = r.state.dec := by cases r <;> rfl
@[simp] theorem Res.finish_tag (r : Res (Option OpResult)) : r.finish.tag = r.state.tag := by cases r <;> rfl
@[simp] theorem Res.finish_env (r : Res (Option OpResult)) : r.finish.env = r.state.env := by cases r <;> rfl
@[simp] theorem Res.finish_bus (r : Res (Option OpResult)) : r.finish.bus = r.state.bus := by cases r <;> rfl
@[simp] theorem Res.finish_log (r : Res (Option OpResult)) : r.finish.log = r.state.log := by cases r <;> rfl

/-- Every operation ends in IDLE, the rest of the engine as its body left it. -/
@[simp] theorem Res.finish_eng (r : Res (Option OpResult)) : r.finish.eng = { r.state.eng with phase := .idle } := by
  cases r <;> rfl

/-- Every operation ends with `busy` clear. -/
@[simp] theorem Res.finish_busy (r : Res (Option OpResult)) : r.finish.res.busy = false := by cases r <;> rfl

/-- An operation's end says `status` 0 exactly if its body raised nothing (R205). -/
theorem Res.finish_status (r : Res (Option OpResult)) : r.finish.res.status = .ok ↔ ∃ v t, r = .ok v t := by
  cases r with
  | ok v t => exact ⟨fun _ => ⟨v, t, rfl⟩, fun _ => rfl⟩
  | err e t =>
    refine ⟨fun h => ?_, fun h => ?_⟩
    · cases e <;> cases h
    · obtain ⟨_, _, h⟩ := h
      cases h

/-! ### What a body keeps -/

/-- What the body of every operation keeps: the parameters and the port, the host's `result`, the canonical forms and the
ranges of the registers. -/
structure Body (s t : State) : Prop where
  par : t.par = s.par
  port : t.port = s.port
  result : t.res.result = s.res.result
  tag : s.tag.wf s.par → t.tag.wf t.par
  cache : WordMap.wf s.cache → WordMap.wf t.cache
  dbuf : s.eng.dbuf.length = 400 → t.eng.dbuf.length = 400
  idmsg : s.eng.idmsg = 0 ∨ s.eng.idmsg = 1 → t.eng.idmsg = 0 ∨ t.eng.idmsg = 1
  attempt : s.eng.attempt ≤ 3 → t.eng.attempt ≤ 3

theorem Body.refl (s : State) : Body s s := ⟨rfl, rfl, rfl, id, id, id, id, id⟩

theorem Body.trans {a b c : State} (h : Body a b) (k : Body b c) : Body a c :=
  ⟨k.par.trans h.par, k.port.trans h.port, k.result.trans h.result, k.tag ∘ h.tag, k.cache ∘ h.cache, k.dbuf ∘ h.dbuf,
    k.idmsg ∘ h.idmsg, k.attempt ∘ h.attempt⟩

theorem Body.andThen {α β : Type} {s : State} {r : Res α} {f : α → State → Res β} (h : Body s r.state)
    (hf : ∀ v t, Body t (f v t).state) : Body s (r.andThen f).state :=
  Res.andThen_keeps (R := Body) (fun h k => h.trans k) h hf

theorem Traffic.body {s t : State} (h : Traffic s t) (k : s.eng.attempt ≤ 3 → t.eng.attempt ≤ 3) : Body s t :=
  ⟨h.par, h.port, by rw [h.res], h.tag, fun w => h.cache ▸ w, h.dbuf, h.idmsg, k⟩

theorem attempt_body (s : State) : Body s (attempt s).state :=
  (attempt_traffic s).body fun h => (attempt_carries s).attempt_le.trans h

theorem retry_body (s : State) : Body s (retry s).state :=
  (retry_traffic s).body fun _ => (retry_attempt s).2

theorem check_body (B Lb : Word) (s : State) : Body s (check B Lb s).state :=
  (check_traffic B Lb s).body fun h => by
    unfold check
    cases chkVerdict B Lb <;> exact h

theorem transferRd_body (B Lb : Word) (s : State) : Body s (transferRd B Lb s).state :=
  (check_body B Lb s).andThen fun _ t => ((Traffic.setKind t .rd).body id).trans (retry_body _)

theorem transferWr_body (B Lb : Word) (data : List Byte) (s : State) : Body s (transferWr B Lb data s).state :=
  (check_body B Lb s).andThen fun _ t =>
    (((Traffic.setKind t .wr).body id).trans ((Traffic.fillDbuf _ _).body id)).trans (retry_body _)

/-! ### The cache (43_register_cache.md) -/

theorem mapPut_cacheWf {m : WordMap} (h : WordMap.wf m) {k : Nat} (hk : k ≤ 0x1089) (w : Word) :
    WordMap.wf (mapPut k w m) := by
  refine ⟨mapPut_rises k w h.1, fun c hc => ?_⟩
  obtain hc | hc := mem_mapPut hc
  · rw [hc]
    exact hk
  · exact h.2 c hc

@[simp] theorem State.cached_cacheWord_same (s : State) (a : Nat) (w : Word) : (s.cacheWord a w).cached a = some w :=
  mapFind_mapPut_same a w s.cache

theorem State.cached_cacheWord_other (s : State) {a k : Nat} (h : k ≠ a) (w : Word) :
    (s.cacheWord a w).cached k = s.cached k :=
  mapFind_mapPut_other h w s.cache

theorem State.cacheWord_body (s : State) {a : Nat} (ha : a ≤ 0x1089) (w : Word) : Body s (s.cacheWord a w) :=
  ⟨rfl, rfl, rfl, id, fun h => mapPut_cacheWf h ha w, id, id, id⟩

theorem State.cacheWords_body (s : State) {a : Nat} {ws : List Word} (h : a + ws.length ≤ 0x108A) :
    Body s (s.cacheWords a ws) := by
  induction ws generalizing s a with
  | nil => exact Body.refl s
  | cons w ws ih =>
    simp only [List.length_cons] at h
    exact (s.cacheWord_body (by omega) w).trans (ih _ (by omega))

/-- `n` words cached from an address up: the entries in the range are those words, the others are as before. -/
theorem State.cached_cacheWords (s : State) (a : Nat) (ws : List Word) (k : Nat) :
    (s.cacheWords a ws).cached k = if a ≤ k ∧ k < a + ws.length then ws[k - a]? else s.cached k := by
  induction ws generalizing s a with
  | nil =>
    rw [if_neg (by simp only [List.length_nil]; omega)]
    rfl
  | cons w ws ih =>
    rw [State.cacheWords, ih]
    simp only [List.length_cons]
    obtain h | rfl | h := Nat.lt_trichotomy k a
    · rw [if_neg (by omega), if_neg (by omega), s.cached_cacheWord_other (by omega)]
    · rw [if_neg (by omega), if_pos (by omega), s.cached_cacheWord_same, Nat.sub_self]
      rfl
    · by_cases hk : k < a + (ws.length + 1)
      · rw [if_pos (by omega), if_pos (by omega), show k - a = k - (a + 1) + 1 by omega]
        rfl
      · rw [if_neg (by omega), if_neg (by omega), s.cached_cacheWord_other (by omega)]

/-- `cacheWords` touches the cache only. -/
theorem State.cacheWords_fields (s : State) (a : Nat) (ws : List Word) :
    ∃ c, s.cacheWords a ws = s.setCache c := by
  induction ws generalizing s a with
  | nil => exact ⟨s.cache, rfl⟩
  | cons w ws ih =>
    obtain ⟨c, h⟩ := ih (s.cacheWord a w) (a + 1)
    exact ⟨c, h⟩

theorem getWord_body (address : Word) (s : State) : Body s (getWord address s).state := by
  unfold getWord
  split
  · rename_i ha
    have ha : address.toNat ≤ 0x1089 := of_decide_eq_true ha
    cases s.cached address.toNat with
    | some w => exact Body.refl s
    | none => exact (transferRd_body _ _ s).andThen fun _ t => t.cacheWord_body ha _
  · exact Body.refl s

theorem State.settleVerify_body (s : State) {address : Word} (ha : address.toNat ≤ 0x1089) (value observed : Word) :
    Body s (s.settleVerify address value observed) := by
  unfold State.settleVerify
  split
  · exact Body.trans (b := (s.setRes (s.res.integrity observed)).record (.integrity observed))
      ⟨rfl, rfl, rfl, id, id, id, id, id⟩ (State.cacheWord_body _ ha _)
  · exact s.cacheWord_body ha _

theorem setWord_body (address value : Word) (s : State) : Body s (setWord address value s).state := by
  unfold setWord
  split
  · rename_i ha
    have ha : address.toNat ≤ 0x1089 := of_decide_eq_true ha
    refine (transferWr_body _ _ _ s).andThen fun _ t => ?_
    refine Body.andThen (((Traffic.emit t _).body id).trans (transferRd_body _ _ _)) fun _ u => ?_
    exact u.settleVerify_body ha _ _
  · exact Body.refl s

/-! ### The data of a transfer -/

/-- A sequence that raises nothing: both its parts raise nothing. -/
theorem Res.andThen_ok {α β : Type} {r : Res α} {f : α → State → Res β} {b : β} {u : State} (h : r.andThen f = .ok b u) :
    ∃ v t, r = .ok v t ∧ f v t = .ok b u := by
  cases r with
  | ok v t => exact ⟨v, t, rfl, h⟩
  | err e t => cases h

/-- The data an attempt answers with: the first `2n` bytes of the buffer for a READ, none for a WRITE (R140, R141). -/
def attemptData (kind : Kind) (n : Word) (dbuf : List Byte) : List Byte :=
  match kind with
  | .rd => dbuf.take (byteCount n)
  | .wr => []

theorem phaseP6_data {s t : State} {d : List Byte} (h : phaseP6 s = .ok d t) :
    d = attemptData s.eng.kind s.eng.n t.eng.dbuf := by
  unfold phaseP6 at h
  cases hk : s.eng.kind <;> rw [hk] at h
  · obtain ⟨bs, u, hr, h⟩ := Res.andThen_ok h
    have hn : u.eng.n = s.eng.n := by
      have k := memRead_ends (s.setPhase .p6).par.miBank (dataOffset (s.setPhase .p6).par)
        (byteCount (s.setPhase .p6).eng.n) (s.setPhase .p6)
      rw [hr] at k
      obtain ⟨-, k⟩ | ⟨-, k⟩ := k <;> cases k
      rfl
    cases h
    simp only [attemptData, State.fillDbuf, State.setEng_eng, hn]
  · cases h
    rfl

/-- Whenever this piece raises nothing, its value and state are so related. -/
def Res.Yields {α : Type} (Q : α → State → Prop) : Res α → Prop
  | .ok v t => Q v t
  | .err _ _ => True

/-- A sequence yields what its second part yields in every state with the attempt's command and size. -/
theorem Carries.yields {k : Nat} {α β : Type} {Q : β → State → Prop} {s : State} {r : Res α} {f : α → State → Res β}
    (h : Carries 0 k s r.state)
    (hf : ∀ v t, t.eng.kind = s.eng.kind → t.eng.n = s.eng.n → (f v t).Yields Q) : (r.andThen f).Yields Q := by
  cases r with
  | ok v t => exact hf v t h.kind h.n
  | err e t => trivial

theorem attempt_yields (s : State) :
    (attempt s).Yields fun d t => d = attemptData s.eng.kind s.eng.n t.eng.dbuf := by
  have key : ((phaseP1 s).andThen fun _ s => (phaseP2 s).andThen fun _ s => (phaseP2B s).andThen fun _ s =>
      (phaseP3 s).andThen fun _ s => (phaseP4 s).andThen fun _ s => phaseP5 s).Yields
      fun d t => d = attemptData s.eng.kind s.eng.n t.eng.dbuf := by
    refine (phaseP1_carries s).yields fun _ t k1 n1 => ?_
    refine (phaseP2_carries t).yields fun _ t k2 n2 => ?_
    refine (phaseP2B_carries t).yields fun _ t k3 n3 => ?_
    refine (phaseP3_carries t).yields fun _ t k4 n4 => ?_
    refine (phaseP4_carries t).yields fun _ t k5 n5 => ?_
    have c6 : Carries 0 1 t (memRead t.par.miBank (replyOffset t.par) 2 (t.setPhase .p5)).state :=
      (Carries.setPhase t .p5).trans (memRead_carries fun _ _ => .inl ⟨rfl, rfl, rfl⟩)
    refine c6.yields (f := fun r s => afterReply (r.getD 0 0) (r.getD 1 0) s) fun r t k6 n6 => ?_
    rw [← k1, ← k2, ← k3, ← k4, ← k5, ← k6, ← n1, ← n2, ← n3, ← n4, ← n5, ← n6]
    unfold afterReply
    split
    · trivial
    · cases h : phaseP6 t with
      | ok d u => exact phaseP6_data h
      | err e u => trivial
  unfold attempt
  revert key
  cases (phaseP1 s).andThen _ with
  | ok v u => exact id
  | err e u => exact id

theorem attempt_data {s t : State} {d : List Byte} (h : attempt s = .ok d t) :
    d = attemptData s.eng.kind s.eng.n t.eng.dbuf := by
  have := attempt_yields s
  rwa [h] at this

/-- The retry loop answers with its last attempt's data. -/
theorem retryLoop_data {left : Nat} {s t : State} {d : List Byte} (h : retryLoop left s = .ok d t) :
    d = attemptData s.eng.kind s.eng.n t.eng.dbuf := by
  induction left generalizing s with
  | zero =>
    unfold retryLoop at h
    cases hr : attempt s with
    | ok d' t' =>
      rw [hr] at h
      cases h
      exact attempt_data hr
    | err e t' =>
      rw [hr] at h
      dsimp only at h
      split at h <;> cases h
  | succ left ih =>
    unfold retryLoop at h
    cases hr : attempt s with
    | ok d' t' =>
      rw [hr] at h
      cases h
      exact attempt_data hr
    | err e t' =>
      have c := attempt_carries s
      rw [hr] at h c
      dsimp only at h
      split at h
      · have hk : t'.eng.kind = s.eng.kind := c.kind
        have hn : t'.eng.n = s.eng.n := c.n
        rw [← hk, ← hn]
        exact ih (s := t'.reenter e) h
      · cases h

/-- A transfer that succeeds passed the check; its data come from the buffer, its operands are latched. -/
theorem transferRd_ok {B Lb : Word} {s t : State} {d : List Byte} (h : transferRd B Lb s = .ok d t) :
    chkVerdict B Lb = none ∧ d = t.eng.dbuf.take (byteCount (wordForm Lb)) := by
  obtain ⟨_, u, hc, h⟩ := Res.andThen_ok h
  cases hv : chkVerdict B Lb with
  | some e =>
    rw [check_fails hv] at hc
    cases hc
  | none =>
    rw [check_passes hv] at hc
    cases hc
    exact ⟨rfl, retryLoop_data h⟩

theorem transferRd_length_le {B Lb : Word} {s t : State} {d : List Byte} (h : transferRd B Lb s = .ok d t) :
    d.length ≤ Lb.toNat := by
  obtain ⟨-, rfl⟩ := transferRd_ok h
  simp only [List.length_take, byteCount, wordForm_toNat]
  omega

/-- A READ answers exactly `Lb` bytes (R152). -/
theorem transferRd_length {B Lb : Word} {s t : State} {d : List Byte} (h : transferRd B Lb s = .ok d t)
    (hb : s.eng.dbuf.length = 400) : d.length = Lb.toNat := by
  have ht := (transferRd_traffic B Lb s).dbuf hb
  rw [h] at ht
  have ht : t.eng.dbuf.length = 400 := ht
  obtain ⟨hv, rfl⟩ := transferRd_ok h
  have := chkVerdict_none hv
  simp only [List.length_take, byteCount, wordForm_toNat]
  omega

/-! ### `PREFETCH`'s loop, and several `GET`s -/

theorem prefetchFrom_body (turns start : Nat) (s : State) : Body s (prefetchFrom turns start s).state := by
  induction turns generalizing start s with
  | zero => exact Body.refl s
  | succ turns ih =>
    unfold prefetchFrom
    split
    · rename_i hs
      have hs : start ≤ 0x1089 := hs
      dsimp only
      have hb := transferRd_body (BitVec.ofNat 16 (2 * start)) (BitVec.ofNat 16 (2 * min chunk (regEnd - start + 1))) s
      cases hr : transferRd (BitVec.ofNat 16 (2 * start)) (BitVec.ofNat 16 (2 * min chunk (regEnd - start + 1))) s with
      | err e t =>
        rw [hr] at hb
        exact hb
      | ok d t =>
        rw [hr] at hb
        refine hb.trans (Body.trans (t.cacheWords_body ?_) (ih _ _))
        have hl := transferRd_length_le hr
        rw [wordsOf_length]
        simp only [BitVec.toNat_ofNat, chunk, regEnd] at hl
        omega
    · exact Body.refl s

theorem getWords_body (as : List Word) (s : State) : Body s (getWords as s).state := by
  induction as generalizing s with
  | nil => exact Body.refl s
  | cons a as ih => exact (getWord_body a s).andThen fun _ t => (ih t).andThen fun _ u => Body.refl u

/-! ### The log decoder -/

theorem decodeLog_body (ch : Channel) (mode : BitVec 2) (count : Int) (words : List Word) (s : State) :
    Body s (decodeLog ch mode count words s).state := by
  unfold decodeLog
  cases configVerdict mode count with
  | some e => exact Body.refl s
  | none => exact ⟨rfl, rfl, rfl, id, id, id, id, id⟩

theorem decodeArea_body (ch : Channel) (s : State) : Body s (decodeArea ch s).state := by
  refine (getWords_body _ s).andThen fun _ t => ?_
  refine (getWords_body _ t).andThen fun _ u => ?_
  dsimp only
  split
  · exact Body.refl u
  · exact (getWords_body _ u).andThen fun _ _ => decodeLog_body _ _ _ _ _

end Sys2Proof.Machine
end

