-- ==== Sys2Proof/Laws/Scripted.lean ====
section
/-! SUPPORT. How the primitives and the phases end when the next event is known. -/

namespace Sys2Proof.Machine

/-- `s` once the scripted event `e` is taken: the firmware has acted, `rest` is still to come. -/
def State.took (s : State) (e : EnvEvent) (rest : List EnvEvent) : State :=
  (s.setEnv { script := rest, taken := s.env.taken + 1 }).setTag (s.tag.acts s.par e.tag)

@[simp] theorem State.took_par (s : State) (e : EnvEvent) (rest : List EnvEvent) : (s.took e rest).par = s.par := rfl
@[simp] theorem State.took_port (s : State) (e : EnvEvent) (rest : List EnvEvent) : (s.took e rest).port = s.port := rfl
@[simp] theorem State.took_eng (s : State) (e : EnvEvent) (rest : List EnvEvent) : (s.took e rest).eng = s.eng := rfl
@[simp] theorem State.took_cache (s : State) (e : EnvEvent) (rest : List EnvEvent) : (s.took e rest).cache = s.cache := rfl
@[simp] theorem State.took_dec (s : State) (e : EnvEvent) (rest : List EnvEvent) : (s.took e rest).dec = s.dec := rfl
@[simp] theorem State.took_res (s : State) (e : EnvEvent) (rest : List EnvEvent) : (s.took e rest).res = s.res := rfl
@[simp] theorem State.took_tag (s : State) (e : EnvEvent) (rest : List EnvEvent) :
    (s.took e rest).tag = s.tag.acts s.par e.tag := rfl
@[simp] theorem State.took_env (s : State) (e : EnvEvent) (rest : List EnvEvent) :
    (s.took e rest).env = { script := rest, taken := s.env.taken + 1 } := rfl
@[simp] theorem State.took_bus (s : State) (e : EnvEvent) (rest : List EnvEvent) : (s.took e rest).bus = s.bus := rfl
@[simp] theorem State.took_log (s : State) (e : EnvEvent) (rest : List EnvEvent) : (s.took e rest).log = s.log := rfl

variable {s : State} {e : EnvEvent} {rest : List EnvEvent}

theorem State.event_scripted (h : s.env.script = e :: rest) : s.event = e := by
  unfold State.event
  rw [h]

theorem State.transact_scripted (h : s.env.script = e :: rest) : s.transact = s.took e rest := by
  unfold State.transact State.took
  rw [State.event_scripted h, h]
  rfl

theorem memRead_scripted (bank : Byte) (offset : Word) (len : Nat) (h : s.env.script = e :: rest) (ok : e.ok = true) :
    memRead bank offset len s =
      .ok (readBytes (s.tag.acts s.par e.tag).mem bank offset len)
        ((s.took e rest).emit (.read bank offset len (some (readBytes (s.tag.acts s.par e.tag).mem bank offset len)))) := by
  unfold memRead
  rw [State.event_scripted h, State.transact_scripted h, ok]
  rfl

theorem memRead_scripted_fails (bank : Byte) (offset : Word) (len : Nat) (h : s.env.script = e :: rest)
    (ok : e.ok = false) :
    memRead bank offset len s =
      .err (.transportError s.eng.phase) ((s.took e rest).emit (.read bank offset len none)) := by
  unfold memRead
  rw [State.event_scripted h, State.transact_scripted h, ok]
  rfl

theorem memWrite_scripted (bank : Byte) (offset : Word) (bytes : List Byte) (h : s.env.script = e :: rest)
    (ok : e.ok = true) :
    memWrite bank offset bytes s =
      .ok () (((s.took e rest).setTag
        { s.tag.acts s.par e.tag with mem := writeBytes (s.tag.acts s.par e.tag).mem bank offset bytes }).emit
          (.write bank offset bytes true)) := by
  unfold memWrite
  rw [State.event_scripted h, State.transact_scripted h, ok]
  rfl

theorem memWrite_scripted_fails (bank : Byte) (offset : Word) (bytes : List Byte) (h : s.env.script = e :: rest)
    (ok : e.ok = false) :
    memWrite bank offset bytes s =
      .err (.transportError s.eng.phase) (((s.took e rest).setTag
        { s.tag.acts s.par e.tag with
          mem := writeBytes (s.tag.acts s.par e.tag).mem bank offset (e.landed.take bytes.length) }).emit
          (.write bank offset bytes false)) := by
  unfold memWrite
  rw [State.event_scripted h, State.transact_scripted h, ok]
  rfl

theorem triggerRead_scripted (h : s.env.script = e :: rest) (ok : e.ok = true) :
    triggerRead s =
      .ok (readBytes (s.tag.acts s.par e.tag).mem s.par.trigBank s.par.trigOffset trigLen)
        (((s.took e rest).setTag ((s.tag.acts s.par e.tag).trigger s.par)).emit (.read s.par.trigBank s.par.trigOffset
          trigLen (some (readBytes (s.tag.acts s.par e.tag).mem s.par.trigBank s.par.trigOffset trigLen)))) := by
  unfold triggerRead
  rw [State.event_scripted h, State.transact_scripted h, ok]
  rfl

theorem triggerRead_scripted_fails (h : s.env.script = e :: rest) (ok : e.ok = false) :
    triggerRead s =
      .err (.transportError s.eng.phase) ((if e.reached then
        (s.took e rest).setTag ((s.tag.acts s.par e.tag).trigger s.par) else s.took e rest).emit
          (.read s.par.trigBank s.par.trigOffset trigLen none)) := by
  unfold triggerRead
  rw [State.event_scripted h, State.transact_scripted h, ok]
  cases e.reached <;> rfl

/-! ### The phases -/

/-- The id a P1 chooses when it finds this tag (R131). -/
def Tag.nextId (p : Params) (t : Tag) : Byte := Sys2Proof.Machine.nextId ((t.mailbox p (replyOffset p) 2).getD 0 0)

theorem phaseP1_scripted (h : s.env.script = e :: rest) (ok : e.ok = true) :
    phaseP1 s = .ok () { s with
      eng := { s.eng with idmsg := (s.tag.acts s.par e.tag).nextId s.par, phase := .p1 }
      tag := s.tag.acts s.par e.tag
      env := { script := rest, taken := s.env.taken + 1 }
      bus := .read s.par.miBank (replyOffset s.par) 2
        (some ((s.tag.acts s.par e.tag).mailbox s.par (replyOffset s.par) 2)) :: s.bus } := by
  unfold phaseP1
  dsimp only
  rw [memRead_scripted (s := s.setPhase .p1) _ _ _ h ok]
  rfl

theorem phaseP1_scripted_fails (h : s.env.script = e :: rest) (ok : e.ok = false) :
    phaseP1 s = .err (.transportError .p1) { s with
      eng := { s.eng with phase := .p1 }
      tag := s.tag.acts s.par e.tag
      env := { script := rest, taken := s.env.taken + 1 }
      bus := .read s.par.miBank (replyOffset s.par) 2 none :: s.bus } := by
  unfold phaseP1
  dsimp only
  rw [memRead_scripted_fails (s := s.setPhase .p1) _ _ _ h ok]
  rfl

theorem phaseP2_scripted (h : s.env.script = e :: rest) (ok : e.ok = true) :
    phaseP2 s = .ok () { s with
      eng := { s.eng with phase := .p2 }
      tag := (s.tag.acts s.par e.tag).staged s.par (paramOffset s.par) s.stagedBlock
      env := { script := rest, taken := s.env.taken + 1 }
      bus := .write s.par.miBank (paramOffset s.par) s.stagedBlock true :: s.bus } :=
  memWrite_scripted (s := s.setPhase .p2) _ _ _ h ok

theorem phaseP2_scripted_fails (h : s.env.script = e :: rest) (ok : e.ok = false) :
    phaseP2 s = .err (.transportError .p2) { s with
      eng := { s.eng with phase := .p2 }
      tag := (s.tag.acts s.par e.tag).staged s.par (paramOffset s.par) (e.landed.take 6)
      env := { script := rest, taken := s.env.taken + 1 }
      bus := .write s.par.miBank (paramOffset s.par) s.stagedBlock false :: s.bus } := by
  have hl : (s.setPhase .p2).stagedBlock.length = 6 := paramBlock_length _ _ _ _
  unfold phaseP2
  dsimp only
  rw [memWrite_scripted_fails (s := s.setPhase .p2) _ _ _ h ok, hl]
  rfl

theorem phaseP2B_skipped (h : s.eng.kind = .rd) : phaseP2B s = .ok () s := by
  unfold phaseP2B
  rw [h]

theorem phaseP2B_scripted (k : s.eng.kind = .wr) (h : s.env.script = e :: rest) (ok : e.ok = true) :
    phaseP2B s = .ok () { s with
      eng := { s.eng with phase := .p2b }
      tag := (s.tag.acts s.par e.tag).staged s.par (dataOffset s.par) (s.eng.dbuf.take (byteCount s.eng.n))
      env := { script := rest, taken := s.env.taken + 1 }
      bus := .write s.par.miBank (dataOffset s.par) (s.eng.dbuf.take (byteCount s.eng.n)) true :: s.bus } := by
  unfold phaseP2B
  rw [k]
  exact memWrite_scripted (s := s.setPhase .p2b) _ _ _ h ok

theorem phaseP2B_scripted_fails (k : s.eng.kind = .wr) (h : s.env.script = e :: rest) (ok : e.ok = false) :
    phaseP2B s = .err (.transportError .p2b) { s with
      eng := { s.eng with phase := .p2b }
      tag := (s.tag.acts s.par e.tag).staged s.par (dataOffset s.par)
        (e.landed.take (s.eng.dbuf.take (byteCount s.eng.n)).length)
      env := { script := rest, taken := s.env.taken + 1 }
      bus := .write s.par.miBank (dataOffset s.par) (s.eng.dbuf.take (byteCount s.eng.n)) false :: s.bus } := by
  unfold phaseP2B
  rw [k]
  exact memWrite_scripted_fails (s := s.setPhase .p2b) _ _ _ h ok

theorem phaseP3_scripted (h : s.env.script = e :: rest) (ok : e.ok = true) :
    phaseP3 s = .ok () { s with
      eng := { s.eng with phase := .p3 }
      tag := (s.tag.acts s.par e.tag).trigger s.par
      env := { script := rest, taken := s.env.taken + 1 }
      bus := .read s.par.trigBank s.par.trigOffset trigLen
        (some (readBytes (s.tag.acts s.par e.tag).mem s.par.trigBank s.par.trigOffset trigLen)) :: s.bus } := by
  unfold phaseP3
  rw [triggerRead_scripted (s := s.setPhase .p3) h ok]
  rfl

theorem phaseP3_scripted_fails (h : s.env.script = e :: rest) (ok : e.ok = false) :
    phaseP3 s = .err (.transportError .p3) { s with
      eng := { s.eng with phase := .p3 }
      tag := if e.reached then (s.tag.acts s.par e.tag).trigger s.par else s.tag.acts s.par e.tag
      env := { script := rest, taken := s.env.taken + 1 }
      bus := .read s.par.trigBank s.par.trigOffset trigLen none :: s.bus } := by
  unfold phaseP3
  rw [triggerRead_scripted_fails (s := s.setPhase .p3) h ok]
  cases e.reached <;> rfl

theorem phaseP4_ends (s : State) : phaseP4 s = .ok () { s with
    eng := { s.eng with phase := .p4 }
    bus := .wait (settleDelay s.eng.kind s.eng.n) :: s.bus } := rfl

theorem phaseP5_scripted (h : s.env.script = e :: rest) (ok : e.ok = true) :
    phaseP5 s =
      afterReply (((s.tag.acts s.par e.tag).mailbox s.par (replyOffset s.par) 2).getD 0 0)
        (((s.tag.acts s.par e.tag).mailbox s.par (replyOffset s.par) 2).getD 1 0) { s with
          eng := { s.eng with phase := .p5 }
          tag := s.tag.acts s.par e.tag
          env := { script := rest, taken := s.env.taken + 1 }
          bus := .read s.par.miBank (replyOffset s.par) 2
            (some ((s.tag.acts s.par e.tag).mailbox s.par (replyOffset s.par) 2)) :: s.bus } := by
  unfold phaseP5
  dsimp only
  rw [memRead_scripted (s := s.setPhase .p5) _ _ _ h ok]
  rfl

theorem phaseP5_scripted_fails (h : s.env.script = e :: rest) (ok : e.ok = false) :
    phaseP5 s = .err (.transportError .p5) { s with
      eng := { s.eng with phase := .p5 }
      tag := s.tag.acts s.par e.tag
      env := { script := rest, taken := s.env.taken + 1 }
      bus := .read s.par.miBank (replyOffset s.par) 2 none :: s.bus } := by
  unfold phaseP5
  dsimp only
  rw [memRead_scripted_fails (s := s.setPhase .p5) _ _ _ h ok]
  rfl

/-- The buffer with `bs` at its front, when `bs` fits (10_state.md R26). -/
theorem fillDbuf_fits {bs old : List Byte} (h : old.length = 400) (hb : bs.length ≤ 400) :
    (bs ++ old.drop bs.length).take maxBytes = bs ++ old.drop bs.length := by
  refine List.take_of_length_le ?_
  simp only [List.length_append, List.length_drop, maxBytes]
  omega

theorem phaseP6_scripted (k : s.eng.kind = .rd) (hn : s.eng.n.toNat ≤ 200) (hb : s.eng.dbuf.length = 400)
    (h : s.env.script = e :: rest) (ok : e.ok = true) :
    phaseP6 s = .ok ((s.tag.acts s.par e.tag).mailbox s.par (dataOffset s.par) (byteCount s.eng.n)) { s with
      eng := { s.eng with
        phase := .p6
        dbuf := (s.tag.acts s.par e.tag).mailbox s.par (dataOffset s.par) (byteCount s.eng.n) ++
          s.eng.dbuf.drop (byteCount s.eng.n) }
      tag := s.tag.acts s.par e.tag
      env := { script := rest, taken := s.env.taken + 1 }
      bus := .read s.par.miBank (dataOffset s.par) (byteCount s.eng.n)
        (some ((s.tag.acts s.par e.tag).mailbox s.par (dataOffset s.par) (byteCount s.eng.n))) :: s.bus } := by
  have hl : byteCount s.eng.n ≤ 400 := by
    unfold byteCount
    omega
  have key : ∀ (t : State) (d : List Byte), t.eng.dbuf = s.eng.dbuf → d.length = byteCount s.eng.n →
      t.fillDbuf d = t.setEng { t.eng with dbuf := d ++ s.eng.dbuf.drop (byteCount s.eng.n) } := fun t d ht hd => by
    unfold State.fillDbuf
    rw [ht, fillDbuf_fits hb (hd.symm ▸ hl), hd]
  unfold phaseP6
  rw [k]
  dsimp only
  rw [memRead_scripted (s := s.setPhase .p6) _ _ _ h ok, Res.ok_andThen, key _ _ (by rfl) (by exact readBytes_length _ _ _ _)]
  refine congrArg (fun d => Res.ok d _) ?_
  exact List.take_left' (readBytes_length _ _ _ _)

theorem phaseP6_scripted_fails (k : s.eng.kind = .rd) (h : s.env.script = e :: rest) (ok : e.ok = false) :
    phaseP6 s = .err (.transportError .p6) { s with
      eng := { s.eng with phase := .p6 }
      tag := s.tag.acts s.par e.tag
      env := { script := rest, taken := s.env.taken + 1 }
      bus := .read s.par.miBank (dataOffset s.par) (byteCount s.eng.n) none :: s.bus } := by
  unfold phaseP6
  rw [k]
  dsimp only
  rw [memRead_scripted_fails (s := s.setPhase .p6) _ _ _ h ok, Res.err_andThen]
  rfl

theorem phaseP6_skipped (k : s.eng.kind = .wr) : phaseP6 s = .ok [] s := by
  unfold phaseP6
  rw [k]

/-- P5's tests in their order (R136). -/
theorem afterReply_wrong_id {id code : Byte} (h : id ≠ s.eng.idmsg) :
    afterReply id code s = .err (.protocolTimeout 1) s := by
  unfold afterReply replyVerdict
  rw [if_pos h]

theorem afterReply_bad_code {id code : Byte} (h : id = s.eng.idmsg) (ha : code ≠ ackCode) (hn : code ≠ nackCode) :
    afterReply id code s = .err (.protocolTimeout 2) s := by
  unfold afterReply replyVerdict
  rw [if_neg (not_not.mpr h), if_pos ⟨ha, hn⟩]

theorem afterReply_nack {id : Byte} (h : id = s.eng.idmsg) : afterReply id nackCode s = .err .tagRejected s := by
  unfold afterReply replyVerdict
  rw [if_neg (not_not.mpr h), if_neg (fun k => k.2 rfl), if_pos rfl]

theorem afterReply_ack {id : Byte} (h : id = s.eng.idmsg) : afterReply id ackCode s = phaseP6 s := by
  have h1 : ¬ (ackCode ≠ ackCode ∧ ackCode ≠ nackCode) := fun k => k.1 rfl
  have h2 : ackCode ≠ nackCode := by decide
  unfold afterReply replyVerdict
  rw [if_neg (not_not.mpr h), if_neg h1, if_neg h2]

/-! ### Attempts up to P5's verdict -/

/-- A READ attempt whose first four transactions complete: P5's verdict on what the reply slot then shows. -/
theorem attempt_rd_reply {e1 e2 e3 e4 : EnvEvent} (k : s.eng.kind = .rd)
    (h : s.env.script = e1 :: e2 :: e3 :: e4 :: rest)
    (ok1 : e1.ok = true) (ok2 : e2.ok = true) (ok3 : e3.ok = true) (ok4 : e4.ok = true) :
    let p := s.par
    let t1 := s.tag.acts p e1.tag
    let block := paramBlock (t1.nextId p) p.cmdRead s.eng.a s.eng.n
    let t3 := ((t1.acts p e2.tag).staged p (paramOffset p) block).acts p e3.tag
    let t4 := (t3.trigger p).acts p e4.tag
    let r := t4.mailbox p (replyOffset p) 2
    attempt s = (afterReply (r.getD 0 0) (r.getD 1 0) { s with
      eng := { s.eng with idmsg := t1.nextId p, phase := .p5 }
      tag := t4
      env := { script := rest, taken := s.env.taken + 4 }
      bus := .read p.miBank (replyOffset p) 2 (some r) ::
        .wait (settleDelay .rd s.eng.n) ::
        .read p.trigBank p.trigOffset trigLen (some (readBytes t3.mem p.trigBank p.trigOffset trigLen)) ::
        .write p.miBank (paramOffset p) block true ::
        .read p.miBank (replyOffset p) 2 (some (t1.mailbox p (replyOffset p) 2)) :: s.bus }).inState
      (fun s => s.setPhase .idle) := by
  intro p t1 block t3 t4 r
  unfold attempt
  rw [phaseP1_scripted h ok1, Res.ok_andThen, phaseP2_scripted rfl ok2]
  dsimp only [Res.ok_andThen]
  rw [phaseP2B_skipped (by exact k), Res.ok_andThen, phaseP3_scripted rfl ok3]
  dsimp only [Res.ok_andThen, State.stagedBlock]
  rw [phaseP4_ends, Res.ok_andThen, phaseP5_scripted rfl ok4]
  dsimp only
  rw [k]
  rfl

/-- A WRITE attempt whose first five transactions complete: P5's verdict on what the reply slot then shows. -/
theorem attempt_wr_reply {e1 e2 e3 e4 e5 : EnvEvent} (k : s.eng.kind = .wr)
    (h : s.env.script = e1 :: e2 :: e3 :: e4 :: e5 :: rest)
    (ok1 : e1.ok = true) (ok2 : e2.ok = true) (ok3 : e3.ok = true) (ok4 : e4.ok = true) (ok5 : e5.ok = true) :
    let p := s.par
    let t1 := s.tag.acts p e1.tag
    let block := paramBlock (t1.nextId p) p.cmdWrite s.eng.a s.eng.n
    let data := s.eng.dbuf.take (byteCount s.eng.n)
    let t2 := (t1.acts p e2.tag).staged p (paramOffset p) block
    let t4 := ((t2.acts p e3.tag).staged p (dataOffset p) data).acts p e4.tag
    let t5 := (t4.trigger p).acts p e5.tag
    let r := t5.mailbox p (replyOffset p) 2
    attempt s = (afterReply (r.getD 0 0) (r.getD 1 0) { s with
      eng := { s.eng with idmsg := t1.nextId p, phase := .p5 }
      tag := t5
      env := { script := rest, taken := s.env.taken + 5 }
      bus := .read p.miBank (replyOffset p) 2 (some r) ::
        .wait 400 ::
        .read p.trigBank p.trigOffset trigLen (some (readBytes t4.mem p.trigBank p.trigOffset trigLen)) ::
        .write p.miBank (dataOffset p) data true ::
        .write p.miBank (paramOffset p) block true ::
        .read p.miBank (replyOffset p) 2 (some (t1.mailbox p (replyOffset p) 2)) :: s.bus }).inState
      (fun s => s.setPhase .idle) := by
  intro p t1 block data t2 t4 t5 r
  unfold attempt
  rw [phaseP1_scripted h ok1, Res.ok_andThen, phaseP2_scripted rfl ok2]
  dsimp only [Res.ok_andThen]
  rw [phaseP2B_scripted (by exact k) rfl ok3, Res.ok_andThen, phaseP3_scripted rfl ok4]
  dsimp only [Res.ok_andThen, State.stagedBlock]
  rw [phaseP4_ends, Res.ok_andThen, phaseP5_scripted rfl ok5]
  dsimp only
  rw [k]
  rfl

theorem getD_first (x y : Byte) : [x, y].getD 0 0 = x := rfl
theorem getD_second (x y : Byte) : [x, y].getD 1 0 = y := rfl

/-- A READ attempt answered with its id and ACK: its data, `2n` bytes (R140). -/
theorem attempt_rd_ack {e1 e2 e3 e4 e5 : EnvEvent} (k : s.eng.kind = .rd) (hn : s.eng.n.toNat ≤ 200)
    (hb : s.eng.dbuf.length = 400) (h : s.env.script = e1 :: e2 :: e3 :: e4 :: e5 :: rest)
    (ok1 : e1.ok = true) (ok2 : e2.ok = true) (ok3 : e3.ok = true) (ok4 : e4.ok = true) (ok5 : e5.ok = true)
    (hr : ((s.tag.afterReadTrigger s.par s.eng.a s.eng.n e1.tag e2.tag e3.tag).acts s.par e4.tag).mailbox s.par
      (replyOffset s.par) 2 = [(s.tag.acts s.par e1.tag).nextId s.par, ackCode]) :
    let p := s.par
    let t1 := s.tag.acts p e1.tag
    let block := paramBlock (t1.nextId p) p.cmdRead s.eng.a s.eng.n
    let t3 := ((t1.acts p e2.tag).staged p (paramOffset p) block).acts p e3.tag
    let t5 := ((t3.trigger p).acts p e4.tag).acts p e5.tag
    let d := t5.mailbox p (dataOffset p) (byteCount s.eng.n)
    attempt s = .ok d { s with
      eng := { s.eng with
        idmsg := t1.nextId p, phase := .idle, dbuf := d ++ s.eng.dbuf.drop (byteCount s.eng.n) }
      tag := t5
      env := { script := rest, taken := s.env.taken + 5 }
      bus := .read p.miBank (dataOffset p) (byteCount s.eng.n) (some d) ::
        .read p.miBank (replyOffset p) 2 (some [t1.nextId p, ackCode]) ::
        .wait (settleDelay .rd s.eng.n) ::
        .read p.trigBank p.trigOffset trigLen (some (readBytes t3.mem p.trigBank p.trigOffset trigLen)) ::
        .write p.miBank (paramOffset p) block true ::
        .read p.miBank (replyOffset p) 2 (some (t1.mailbox p (replyOffset p) 2)) :: s.bus } := by
  have key := attempt_rd_reply k h ok1 ok2 ok3 ok4
  have hr' : ((((((s.tag.acts s.par e1.tag).acts s.par e2.tag).staged s.par (paramOffset s.par)
      (paramBlock ((s.tag.acts s.par e1.tag).nextId s.par) s.par.cmdRead s.eng.a s.eng.n)).acts s.par e3.tag).trigger
        s.par).acts s.par e4.tag).mailbox s.par (replyOffset s.par) 2 =
          [(s.tag.acts s.par e1.tag).nextId s.par, ackCode] := hr
  dsimp only at key ⊢
  rw [hr'] at key
  rw [key]
  rw [getD_first, getD_second, afterReply_ack (by rfl), phaseP6_scripted (by exact k) (by exact hn) (by exact hb) (by rfl) ok5]
  rfl

/-- A WRITE attempt answered with its id and ACK: no data, and no transaction after the reply (R141). -/
theorem attempt_wr_ack {e1 e2 e3 e4 e5 : EnvEvent} (k : s.eng.kind = .wr)
    (h : s.env.script = e1 :: e2 :: e3 :: e4 :: e5 :: rest)
    (ok1 : e1.ok = true) (ok2 : e2.ok = true) (ok3 : e3.ok = true) (ok4 : e4.ok = true) (ok5 : e5.ok = true)
    (hr : ((s.tag.afterWriteTrigger s.par s.eng.a s.eng.n (s.eng.dbuf.take (byteCount s.eng.n)) e1.tag e2.tag e3.tag
      e4.tag).acts s.par e5.tag).mailbox s.par (replyOffset s.par) 2 =
        [(s.tag.acts s.par e1.tag).nextId s.par, ackCode]) :
    let p := s.par
    let t1 := s.tag.acts p e1.tag
    let block := paramBlock (t1.nextId p) p.cmdWrite s.eng.a s.eng.n
    let data := s.eng.dbuf.take (byteCount s.eng.n)
    let t2 := (t1.acts p e2.tag).staged p (paramOffset p) block
    let t4 := ((t2.acts p e3.tag).staged p (dataOffset p) data).acts p e4.tag
    attempt s = .ok [] { s with
      eng := { s.eng with idmsg := t1.nextId p, phase := .idle }
      tag := (t4.trigger p).acts p e5.tag
      env := { script := rest, taken := s.env.taken + 5 }
      bus := .read p.miBank (replyOffset p) 2 (some [t1.nextId p, ackCode]) ::
        .wait 400 ::
        .read p.trigBank p.trigOffset trigLen (some (readBytes t4.mem p.trigBank p.trigOffset trigLen)) ::
        .write p.miBank (dataOffset p) data true ::
        .write p.miBank (paramOffset p) block true ::
        .read p.miBank (replyOffset p) 2 (some (t1.mailbox p (replyOffset p) 2)) :: s.bus } := by
  have key := attempt_wr_reply k h ok1 ok2 ok3 ok4 ok5
  have hr' : (((((((s.tag.acts s.par e1.tag).acts s.par e2.tag).staged s.par (paramOffset s.par)
      (paramBlock ((s.tag.acts s.par e1.tag).nextId s.par) s.par.cmdWrite s.eng.a s.eng.n)).acts s.par e3.tag).staged
        s.par (dataOffset s.par) (s.eng.dbuf.take (byteCount s.eng.n))).acts s.par e4.tag).trigger s.par |>.acts s.par
          e5.tag).mailbox s.par (replyOffset s.par) 2 = [(s.tag.acts s.par e1.tag).nextId s.par, ackCode] := hr
  dsimp only at key ⊢
  rw [hr'] at key
  rw [key]
  rw [getD_first, getD_second, afterReply_ack (by rfl), phaseP6_skipped (by exact k)]
  rfl

/-! ### The retry loop, attempt by attempt (42_transfer_retry.md R151) -/

theorem retryLoop_succeeds {left : Nat} {s t : State} {d : List Byte} (h : attempt s = .ok d t) :
    retryLoop left s = .ok d t := by
  cases left <;> unfold retryLoop <;> rw [h]

theorem retryLoop_retries {left : Nat} {s t : State} {e : Err} (h : attempt s = .err e t) :
    retryLoop (left + 1) s = retryLoop left { t with
      eng := { t.eng with attempt := t.eng.attempt + 1, phase := .p1 }
      log := .failure t.eng.attempt e.status e.info :: t.log } := by
  have k := attempt_raises s
  rw [h] at k
  have k : e.retried = true := k
  rw [retryLoop, h]
  dsimp only
  rw [if_pos k]
  rfl

theorem retryLoop_gives_up {s t : State} {e : Err} (h : attempt s = .err e t) :
    retryLoop 0 s = .err (.communicationExhausted e.status) { t with
      log := .failure t.eng.attempt e.status e.info :: t.log } := by
  have k := attempt_raises s
  rw [h] at k
  have k : e.retried = true := k
  rw [retryLoop, h]
  dsimp only
  rw [if_pos k]
  rfl

/-- A transport that fails at once ends the attempt in P1 (41_handshake.md R138). -/
theorem attempt_dead (h : s.env.script = e :: rest) (ok : e.ok = false) :
    attempt s = .err (.transportError .p1) { s with
      eng := { s.eng with phase := .idle }
      tag := s.tag.acts s.par e.tag
      env := { script := rest, taken := s.env.taken + 1 }
      bus := .read s.par.miBank (replyOffset s.par) 2 none :: s.bus } := by
  unfold attempt
  rw [phaseP1_scripted_fails h ok]
  rfl

theorem transferRd_checked {B Lb : Word} (h : chkVerdict B Lb = none) (s : State) :
    transferRd B Lb s = retryLoop 2 { s with
      eng := { s.eng with phase := .chk, attempt := 1, kind := .rd, a := wordForm B, n := wordForm Lb } } := by
  unfold transferRd
  rw [check_passes h]
  rfl

theorem transferWr_checked {B Lb : Word} {data : List Byte} (h : chkVerdict B Lb = none) (hd : data.length = Lb.toNat)
    (hb : s.eng.dbuf.length = 400) :
    transferWr B Lb data s = retryLoop 2 { s with
      eng := { s.eng with
        phase := .chk, attempt := 1, kind := .wr, a := wordForm B, n := wordForm Lb
        dbuf := data ++ s.eng.dbuf.drop data.length } } := by
  have hf := fillDbuf_fits (bs := data) hb (by have := chkVerdict_none h; omega)
  unfold transferWr
  rw [check_passes h, Res.ok_andThen]
  unfold State.fillDbuf
  simp only [State.setKind_eng, State.setOperands_eng, State.setPhase_eng, hf]
  rfl

end Sys2Proof.Machine
end

