-- ==== Sys2Proof/Laws/Mailbox.lean ====
section
/-! SUPPORT. The mailbox under valid parameters: its three slots do not overlap, the firmware finds the staged command, and what a
READ or a WRITE answered with ACK leaves. -/

namespace Sys2Proof.Machine

variable {p : Params}

/-! ### The slots (20_memory.md R56, R57) -/

/-- The mailbox ends inside its bank. -/
theorem Params.valid_fits (h : p.valid = true) : p.miBase.toNat + 407 ≤ 0xFFFF := by
  unfold Params.valid at h
  simp only [Bool.and_eq_true, decide_eq_true_eq] at h
  omega

theorem paramOffset_toNat (p : Params) : (paramOffset p).toNat = p.miBase.toNat := rfl

theorem replyOffset_toNat (h : p.valid = true) : (replyOffset p).toNat = p.miBase.toNat + 6 := by
  have := Params.valid_fits h
  unfold replyOffset
  rw [BitVec.toNat_add]
  simp
  omega

theorem dataOffset_toNat (h : p.valid = true) : (dataOffset p).toNat = p.miBase.toNat + 8 := by
  have := Params.valid_fits h
  unfold dataOffset
  rw [BitVec.toNat_add]
  simp
  omega

/-! ### Staged bytes read back -/

/-- What the engine staged at an offset reads back. -/
theorem mailbox_staged_same (t : Tag) (offset : Word) {bytes : List Byte} (hfit : offset.toNat + bytes.length ≤ 65536) :
    (t.staged p offset bytes).mailbox p offset bytes.length = bytes :=
  readBytes_writeBytes_same hfit

/-- Staging at one offset leaves the bytes of another slot. -/
theorem mailbox_staged_disjoint (t : Tag) {o o' : Word} {bytes : List Byte} {len : Nat} (hr : o.toNat + len ≤ 65536)
    (hw : o'.toNat + bytes.length ≤ 65536) (h : o.toNat + len ≤ o'.toNat ∨ o'.toNat + bytes.length ≤ o.toNat) :
    (t.staged p o' bytes).mailbox p o len = t.mailbox p o len :=
  readBytes_writeBytes_disjoint hr hw h

/-- The command the firmware fetches from a mailbox whose parameter slot holds a parameter block (R66 a, R71). -/
theorem stagedCommand_of_block {m : Memory} {id cmd : Byte} {a n : Word}
    (h : readBytes m p.miBank (paramOffset p) 6 = paramBlock id cmd a n) (hn : n.toNat ≤ 200) :
    stagedCommand p m =
      { cmd := cmd, a := a, n := n, data := readBytes m p.miBank (dataOffset p) (2 * n.toNat) } := by
  have hl : min (2 * n.toNat) 400 = 2 * n.toNat := by omega
  have h4 : ([id, cmd, a.extractLsb' 8 8, a.extractLsb' 0 8, n.extractLsb' 8 8, n.extractLsb' 0 8] : List Byte).getD 4 0 =
    n.extractLsb' 8 8 := rfl
  have h5 : ([id, cmd, a.extractLsb' 8 8, a.extractLsb' 0 8, n.extractLsb' 8 8, n.extractLsb' 0 8] : List Byte).getD 5 0 =
    n.extractLsb' 0 8 := rfl
  have h2 : ([id, cmd, a.extractLsb' 8 8, a.extractLsb' 0 8, n.extractLsb' 8 8, n.extractLsb' 0 8] : List Byte).getD 2 0 =
    a.extractLsb' 8 8 := rfl
  have h3 : ([id, cmd, a.extractLsb' 8 8, a.extractLsb' 0 8, n.extractLsb' 8 8, n.extractLsb' 0 8] : List Byte).getD 3 0 =
    a.extractLsb' 0 8 := rfl
  unfold stagedCommand byteCount maxBytes
  dsimp only
  rw [h, paramBlock_bytes, h2, h3, h4, h5, unbe16_be16, unbe16_be16, hl]
  rfl

/-! ### The firmware's answer with ACK (R66 b, c) -/

/-- A READ answered: the registers' words in the data slot, id and ACK in the reply slot, the registers untouched. -/
theorem answer_read (hp : p.valid = true) (t : Tag) (id : Byte) {c : Staged} (h : t.pending = some c)
    (hc : c.cmd = p.cmdRead) (hn : c.n.toNat ≤ 200) :
    let u := t.answer p id ackCode
    u.regs = t.regs ∧ u.pending = none ∧ u.mailbox p (replyOffset p) 2 = [id, ackCode] ∧
      u.mailbox p (dataOffset p) (2 * c.n.toNat) = bytesOf (readRegs p t.regs c.a.toNat c.n.toNat) ∧
      u.mem = writeBytes (writeBytes t.mem p.miBank (dataOffset p) (bytesOf (readRegs p t.regs c.a.toNat c.n.toNat)))
        p.miBank (replyOffset p) [id, ackCode] := by
  have hf := Params.valid_fits hp
  have hr := replyOffset_toNat hp
  have hd := dataOffset_toNat hp
  have hne : p.cmdRead ≠ p.cmdWrite := by
    unfold Params.valid at hp
    simp only [Bool.and_eq_true, bne_iff_ne] at hp
    exact hp.1.1.1.2
  have hl : (bytesOf (readRegs p t.regs c.a.toNat c.n.toNat)).length = 2 * c.n.toNat := by
    rw [bytesOf_length, readRegs_length]
  have hu : t.answer p id ackCode =
      { mem := writeBytes (writeBytes t.mem p.miBank (dataOffset p) (bytesOf (readRegs p t.regs c.a.toNat c.n.toNat)))
          p.miBank (replyOffset p) [id, ackCode]
        regs := t.regs
        pending := none } := by
    unfold Tag.answer
    rw [h]
    dsimp only
    rw [if_pos ⟨rfl, hc⟩, if_neg (fun k => hne (hc.symm.trans k.2)), Nat.min_eq_left hn]
  intro u
  refine ⟨by rw [show u = _ from hu], by rw [show u = _ from hu], ?_, ?_, by rw [show u = _ from hu]⟩
  · rw [show u = _ from hu]
    exact readBytes_writeBytes_same (bs := [id, ackCode]) (by simp only [List.length_cons, List.length_nil]; omega)
  · rw [show u = _ from hu]
    unfold Tag.mailbox
    dsimp only
    rw [readBytes_writeBytes_disjoint (by omega) (by simp only [List.length_cons, List.length_nil]; omega)
      (.inr (by simp only [List.length_cons, List.length_nil]; omega)), ← hl]
    exact readBytes_writeBytes_same (by omega)

/-- A WRITE answered: the staged words in the registers, id and ACK in the reply slot, the rest of memory untouched. -/
theorem answer_write (hp : p.valid = true) (t : Tag) (id : Byte) {c : Staged} (h : t.pending = some c)
    (hc : c.cmd = p.cmdWrite) :
    let u := t.answer p id ackCode
    u.regs = writeRegs p t.regs c.a.toNat (wordsOf c.data) ∧ u.pending = none ∧
      u.mailbox p (replyOffset p) 2 = [id, ackCode] ∧
      u.mem = writeBytes t.mem p.miBank (replyOffset p) [id, ackCode] := by
  have hf := Params.valid_fits hp
  have hr := replyOffset_toNat hp
  have hne : p.cmdRead ≠ p.cmdWrite := by
    unfold Params.valid at hp
    simp only [Bool.and_eq_true, bne_iff_ne] at hp
    exact hp.1.1.1.2
  have hu : t.answer p id ackCode =
      { mem := writeBytes t.mem p.miBank (replyOffset p) [id, ackCode]
        regs := writeRegs p t.regs c.a.toNat (wordsOf c.data)
        pending := none } := by
    unfold Tag.answer
    rw [h]
    dsimp only
    rw [if_neg (fun k => hne (k.2.symm.trans hc)), if_pos ⟨rfl, hc⟩]
  intro u
  refine ⟨by rw [show u = _ from hu], by rw [show u = _ from hu], ?_, by rw [show u = _ from hu]⟩
  rw [show u = _ from hu]
  exact readBytes_writeBytes_same (bs := [id, ackCode]) (by simp only [List.length_cons, List.length_nil]; omega)

end Sys2Proof.Machine
end

