-- ==== Sys2Proof/Laws/PerInstr.lean ====
section
/-! SUPPORT. One fact per instruction as syntax: which of the encoding formats of spec/30_encoding.md section 1 its frame has. -/

namespace Sys2Proof.Laws.EncodingFormat

open Sys2Proof Sys2Proof.Machine

/-- A well-formed instruction's frame keeps to its format: a HOP word has zeros in bits 3 to 1 (R80), a command frame is a
parameter block with at most 400 data bytes (R85, R90), a reply word carries ACK or NACK (R87), and what has no frame
is no host operation (R100). -/
def Statement (i : Instr) : Prop :=
  ∀ p : Params, i.wf = true →
    match encode p i with
    | some (.hop w _) => w.extractLsb' 1 3 = 0#3 ∧ hostOp i = true
    | some (.command bytes) => 6 ≤ bytes.length ∧ bytes.length ≤ 406
    | some (.reply _ code) => code = ackCode ∨ code = nackCode
    | none => hostOp i = false

theorem nop : Statement .nop := fun _ _ => ⟨by decide, rfl⟩
theorem xferRd (B Lb : Word) : Statement (.xferRd B Lb) := fun _ _ => ⟨by decide, rfl⟩
theorem xferWr (B Lb : Word) (data : List Byte) : Statement (.xferWr B Lb data) := fun _ _ => ⟨by decide, rfl⟩
theorem get (address : Word) : Statement (.get address) := fun _ _ => ⟨by decide, rfl⟩
theorem set (address value : Word) : Statement (.set address value) := fun _ _ => ⟨by decide, rfl⟩
theorem prefetch : Statement .prefetch := fun _ _ => ⟨by decide, rfl⟩
theorem creset : Statement .creset := fun _ _ => ⟨by decide, rfl⟩
theorem declog (ch : Channel) : Statement (.declog ch) := fun _ _ => ⟨by cases ch <;> decide, rfl⟩
theorem dec (ch : Channel) (mode : BitVec 2) (count : Int) (words : List Word) : Statement (.dec ch mode count words) :=
  fun _ _ => ⟨by cases ch <;> decide, rfl⟩
theorem encT (value : HostReal) : Statement (.encT value) := fun _ _ => ⟨by decide, rfl⟩
theorem encH (value : HostReal) : Statement (.encH value) := fun _ _ => ⟨by decide, rfl⟩
theorem decT (raw : Word) : Statement (.decT raw) := fun _ _ => ⟨by decide, rfl⟩
theorem decH (raw : Word) : Statement (.decH raw) := fun _ _ => ⟨by decide, rfl⟩
theorem validT (value : HostReal) : Statement (.validT value) := fun _ _ => ⟨by decide, rfl⟩
theorem validH (value : HostReal) : Statement (.validH value) := fun _ _ => ⟨by decide, rfl⟩
theorem hsRd (id : BitVec 1) (a n : Word) : Statement (.hsRd id a n) := fun p _ => by
  simp only [encode, paramBlock_length]
  omega
theorem hsWr (id : BitVec 1) (a n : Word) (data : List Byte) : Statement (.hsWr id a n data) := fun p h => by
  simp only [Instr.wf, AttemptOp.wf, wordCountOk, Bool.and_eq_true, decide_eq_true_eq, beq_iff_eq] at h
  simp only [encode, List.length_append, paramBlock_length]
  omega
theorem rplAck (id : Byte) : Statement (.rplAck id) := fun _ _ => .inl rfl
theorem rplNack (id : Byte) : Statement (.rplNack id) := fun _ _ => .inr rfl
theorem chk (B Lb : Word) : Statement (.chk B Lb) := fun _ _ => rfl
theorem retry (op : AttemptOp) : Statement (.retry op) := fun _ _ => rfl
theorem mode (time sample : BitVec 6) : Statement (.mode time sample) := fun _ _ => rfl

end Sys2Proof.Laws.EncodingFormat
end

