-- ==== Sys2Proof/Laws/Step.lean ====
section
/-! SUPPORT. What a step can do, said once: what running any instruction keeps, what a reset in the middle of an operation
leaves, and the cases of `step`. -/

namespace Sys2Proof.Machine

/-! ### What an instruction keeps -/

/-- What running a frame keeps: the parameters and the port, the canonical forms and the ranges of the registers, and, between
operations, IDLE and a clear `busy`. -/
structure Ran (s t : State) : Prop where
  par : t.par = s.par
  port : t.port = s.port
  tag : s.tag.wf s.par → t.tag.wf t.par
  cache : WordMap.wf s.cache → WordMap.wf t.cache
  dbuf : s.eng.dbuf.length = 400 → t.eng.dbuf.length = 400
  idmsg : s.eng.idmsg = 0 ∨ s.eng.idmsg = 1 → t.eng.idmsg = 0 ∨ t.eng.idmsg = 1
  attempt : s.eng.attempt ≤ 3 → t.eng.attempt ≤ 3
  phase : s.eng.phase = .idle → t.eng.phase = .idle
  busy : s.res.busy = false → t.res.busy = false

theorem Ran.finish {s : State} {r : Res (Option OpResult)} (h : Body s r.state) : Ran s r.finish where
  par := by rw [r.finish_par, h.par]
  port := by rw [r.finish_port, h.port]
  tag := by
    rw [r.finish_tag, r.finish_par]
    exact h.tag
  cache := by
    rw [r.finish_cache]
    exact h.cache
  dbuf := by
    rw [r.finish_eng]
    exact h.dbuf
  idmsg := by
    rw [r.finish_eng]
    exact h.idmsg
  attempt := by
    rw [r.finish_eng]
    exact h.attempt
  phase _ := by rw [r.finish_eng]
  busy _ := r.finish_busy

theorem State.begin_body (s : State) : Body s s.begin := ⟨rfl, rfl, rfl, id, id, id, id, id⟩

/-- A whole operation keeps what its body keeps. -/
theorem operate_ran {r : Res (Option OpResult)} {s t : State}
    (h : (.next r.finish : Host.Outcome State Fault Refusal) = .next t) (hb : Body s.begin r.state) : Ran s t := by
  cases h
  exact Ran.finish (s.begin_body.trans hb)

theorem afterReply_body (id code : Byte) (s : State) : Body s (afterReply id code s).state :=
  (afterReply_traffic id code s).body fun h => (afterReply_carries id code s).attempt_le.trans h

theorem replyRead_body (id code : Byte) (s : State) : Body s (replyRead id code s).state :=
  Body.andThen (((Traffic.setPhase s .p5).body fun h => h).trans (afterReply_body id code (s.setPhase .p5))) fun _ t =>
    Body.refl t

theorem State.latchRd_body (s : State) (a n : Word) : Body s (s.latchRd a n) := ⟨rfl, rfl, rfl, id, id, id, id, id⟩

theorem State.latchWr_body (s : State) (a n : Word) (data : List Byte) : Body s (s.latchWr a n data) :=
  ⟨rfl, rfl, rfl, id, id, fillDbuf_length, id, id⟩

theorem domainResult_body (v : Option OpResult) (s : State) : Body s (domainResult v s).state := by
  cases v <;> exact Body.refl s

/-- Every instruction answers a next state. -/
theorem exec_next (i : Instr) (s : State) : ∃ t, exec i s = .next t := by
  cases i <;> exact ⟨_, rfl⟩

/-- What every instruction keeps. -/
theorem exec_ran {i : Instr} {s t : State} (h : exec i s = .next t) : Ran s t := by
  cases i with
  | nop =>
    cases h
    exact ⟨rfl, rfl, id, id, id, id, id, id, id⟩
  | xferRd B Lb => exact operate_ran h <| (transferRd_body _ _ _).andThen fun _ t => Body.refl t
  | xferWr B Lb d => exact operate_ran h <| (transferWr_body _ _ _ _).andThen fun _ t => Body.refl t
  | get a => exact operate_ran h <| (getWord_body _ _).andThen fun _ t => Body.refl t
  | set a v => exact operate_ran h <| (setWord_body _ _ _).andThen fun _ t => Body.refl t
  | prefetch => exact operate_ran h <| (prefetchFrom_body _ _ _).andThen fun _ t => Body.refl t
  | creset => exact operate_ran h ⟨rfl, rfl, rfl, id, fun _ => ⟨List.Pairwise.nil, fun _ h => nomatch h⟩, id, id, id⟩
  | declog ch => exact operate_ran h <| (decodeArea_body _ _).andThen fun _ t => Body.refl t
  | dec ch m c w => exact operate_ran h <| (decodeLog_body _ _ _ _ _).andThen fun _ t => Body.refl t
  | encT v => exact operate_ran h <| domainResult_body _ _
  | encH v => exact operate_ran h <| domainResult_body _ _
  | decT v => exact operate_ran h <| Body.refl _
  | decH v => exact operate_ran h <| Body.refl _
  | validT v => exact operate_ran h <| domainResult_body _ _
  | validH v => exact operate_ran h <| domainResult_body _ _
  | hsRd j a n =>
    exact operate_ran h <| ((State.latchRd_body _ _ _).trans (attempt_body _)).andThen fun _ t => Body.refl t
  | hsWr j a n d =>
    exact operate_ran h <| ((State.latchWr_body _ _ _ _).trans (attempt_body _)).andThen fun _ t => Body.refl t
  | rplAck id => exact operate_ran h <| replyRead_body _ _ _
  | rplNack id => exact operate_ran h <| replyRead_body _ _ _
  | chk B Lb => exact operate_ran h <| (check_body _ _ _).andThen fun _ t => Body.refl t
  | retry op =>
    cases op with
    | rd a n => exact operate_ran h <| ((State.latchRd_body _ _ _).trans (retry_body _)).andThen fun _ t => Body.refl t
    | wr a n d => exact operate_ran h <| ((State.latchWr_body _ _ _ _).trans (retry_body _)).andThen fun _ t => Body.refl t
  | mode x y => exact operate_ran h ⟨rfl, rfl, rfl, id, id, id, id, id⟩

theorem undecoded_ran {f : Frame} {e : DecodeError} {s t : State} (h : undecoded f e s = .next t) : Ran s t := by
  unfold undecoded at h
  split at h
  · exact operate_ran h <| replyRead_body _ _ _
  · cases h
  · exact operate_ran h <| Body.refl _
  · exact operate_ran h <| Body.refl _

/-- What running a frame keeps. -/
theorem runFrame_ran {f : Frame} {s t : State} (h : runFrame f s = .next t) : Ran s t := by
  unfold runFrame at h
  split at h
  · exact exec_ran h
  · exact undecoded_ran h

/-! ### A reset in the middle of an operation -/

@[simp] theorem State.cutOff_par (s : State) (k : Nat) : (s.cutOff k).par = s.par := rfl
@[simp] theorem State.cutOff_port (s : State) (k : Nat) : (s.cutOff k).port = s.port := rfl
@[simp] theorem State.cutOff_eng (s : State) (k : Nat) : (s.cutOff k).eng = s.eng := rfl
@[simp] theorem State.cutOff_cache (s : State) (k : Nat) : (s.cutOff k).cache = s.cache := rfl
@[simp] theorem State.cutOff_dec (s : State) (k : Nat) : (s.cutOff k).dec = s.dec := rfl
@[simp] theorem State.cutOff_res (s : State) (k : Nat) : (s.cutOff k).res = s.res := rfl
@[simp] theorem State.cutOff_tag (s : State) (k : Nat) : (s.cutOff k).tag = s.tag := rfl
@[simp] theorem State.cutOff_bus (s : State) (k : Nat) : (s.cutOff k).bus = s.bus := rfl
@[simp] theorem State.cutOff_log (s : State) (k : Nat) : (s.cutOff k).log = s.log := rfl
@[simp] theorem State.cutOff_taken (s : State) (k : Nat) : (s.cutOff k).env.taken = s.env.taken := rfl

/-- The events of an operation cut off inside the script: the script's first `k`, then dead ones. -/
theorem State.cutOff_script {s : State} {k : Nat} (h : k ≤ s.env.script.length) :
    (s.cutOff k).env.script = s.env.script.take k ++ List.replicate 3 deadEvent := by
  have e : (List.range k).map s.eventAt = s.env.script.take k := by
    apply List.ext_getElem
    · simp only [List.length_map, List.length_range, List.length_take, Nat.min_eq_left h]
    · intro j h1 h2
      rw [List.length_map, List.length_range] at h1
      rw [List.getElem_map, List.getElem_range, List.getElem_take, State.eventAt, List.getD_eq_getElem?_getD,
        List.getElem?_eq_getElem (Nat.lt_of_lt_of_le h1 h), Option.getD_some]
  show (List.range k).map s.eventAt ++ List.replicate 3 deadEvent = _
  rw [e]

/-- What an operation cut off after `k` transactions leaves: the block as after any hardware reset, the tag as the run with no
later transaction leaves it, at most `k` events taken. -/
theorem abandon_cases {f : Frame} {k : Nat} {s t : State} (h : abandon f k s = .next t) :
    ∃ u, runFrame f (s.cutOff k) = .next u ∧ t.par = s.par ∧ t.port = s.port ∧ t.tag = u.tag ∧ t.eng = Engine.reset ∧
      t.cache = [] ∧ t.dec = Decoder.reset ∧ t.res = ResultRegs.reset ∧ s.env.taken ≤ t.env.taken ∧
      t.env.taken ≤ s.env.taken + k := by
  unfold abandon at h
  cases hr : runFrame f (s.cutOff k) with
  | next u =>
    have r := runFrame_ran hr
    rw [hr] at h
    cases h
    exact ⟨u, rfl, r.par, r.port, rfl, rfl, rfl, rfl, rfl, Nat.le_add_right _ _, by
      show s.env.taken + _ ≤ _
      omega⟩
  | fault r =>
    rw [hr] at h
    cases h
  | refused r =>
    rw [hr] at h
    cases h

/-! ### The cases of a step -/

/-- All a step that answers a next state can have done. -/
theorem step_cases {s t : State} (h : step s = .next t) :
    t = s ∨ ∃ rest, (s.port = .reset :: rest ∧ t = hardReset (s.setPort rest)) ∨
      (s.res.busy = false ∧ ∃ f, (s.port = .run f :: rest ∧ runFrame f (s.setPort rest) = .next t) ∨
        ∃ k, s.port = .cut f k :: rest ∧ abandon f k (s.setPort rest) = .next t) := by
  unfold step at h
  split at h
  · exact .inl (Host.Outcome.next.inj h).symm
  · rename_i rest hp
    exact .inr ⟨rest, .inl ⟨hp, (Host.Outcome.next.inj h).symm⟩⟩
  · rename_i f rest hp
    split at h
    · exact .inl (Host.Outcome.next.inj h).symm
    · rename_i hb
      exact .inr ⟨rest, .inr ⟨Bool.eq_false_iff.mpr hb, f, .inl ⟨hp, h⟩⟩⟩
  · rename_i f k rest hp
    split at h
    · exact .inl (Host.Outcome.next.inj h).symm
    · rename_i hb
      exact .inr ⟨rest, .inr ⟨Bool.eq_false_iff.mpr hb, f, .inr ⟨k, hp, h⟩⟩⟩

end Sys2Proof.Machine
end

