-- ==== Sys2Proof/Tests/Slice0.lean ====
section
/-! SUPPORT. The model's own tests: what WellFormed refuses, words written out from the spec's encodings, the vectors of
spec/95_test_vectors.md, and for every obligation with hypotheses a state and operands that meet them (`witness_…`). -/

namespace Sys2Proof.Tests

open Sys2Proof Sys2Proof.Machine

set_option Elab.async false

/-! ### Helpers -/

/-- The fixture of 95_test_vectors.md sections 1 and 4: parameters and tag registers, the rest as after reset. -/
def fixture : State :=
  { State.reset with
    par := Config.fixtureParams
    tag := { mem := [], regs := [(0x10, 0x0460), (0x11, 0x0640), (0x20, 0x0001)], pending := none } }

/-- The fixture with the events to come. -/
def with_script (script : List EnvEvent) : State := fixture.setEnv { script := script, taken := 0 }

/-- The reply slot (bytes 6 and 7 of the mailbox) as it stands. -/
def with_reply (s : State) (id code : Byte) : State :=
  s.setTag { s.tag with mem := writeBytes s.tag.mem 3 6 [id, code] }

/-- The state an instruction leaves, or the state it found where it stops. -/
def after (i : Instr) (s : State) : State :=
  match exec i s with
  | .next t => t
  | .fault _ | .refused _ => s

/-- The result registers after an instruction. -/
def result (i : Instr) (s : State) : OpResult := (after i s).res.result

/-- `status`, `info` and `warn` after an instruction. -/
def flags (i : Instr) (s : State) : Status × Word × Bool :=
  ((after i s).res.status, (after i s).res.info, (after i s).res.warn)

/-! ### WellFormed refuses (30_encoding.md R100, 41_handshake.md R130) -/

theorem test_wf_xferWr_length : (Instr.xferWr 0x20 4 [0xAA]).wf = false := by decide
theorem test_wf_hsRd_zero : (Instr.hsRd 0 0x10 0).wf = false := by decide
theorem test_wf_hsRd_long : (Instr.hsRd 0 0x10 201).wf = false := by decide
theorem test_wf_hsRd_longest : (Instr.hsRd 0 0x10 200).wf = true := by decide
theorem test_wf_hsWr_length : (Instr.hsWr 0 0x10 2 [0xAA, 0xBB, 0xCC]).wf = false := by decide
theorem test_wf_hsWr_zero : (Instr.hsWr 0 0x10 0 []).wf = false := by decide
theorem test_wf_retry_rd : (Instr.retry (.rd 0x10 0)).wf = false := by decide
theorem test_wf_retry_wr : (Instr.retry (.wr 0x10 1 [0xAA])).wf = false := by decide

/-! ### Decoding (HOP words of 30_encoding.md R100: `op` in bits 7 to 4, `ch` in bit 0) -/

theorem test_decode_nop : decodeTableWord 8 0b00000000 = some .nop := by decide
theorem test_decode_xferRd : decodeHop 0b00010000 { B := 0x0020, Lb := 4 } = .ok (.xferRd 0x0020 4) := by rfl
theorem test_decode_xferWr :
    decodeHop 0b00100000 { B := 0x0040, Lb := 2, data := [0x12, 0x34] } = .ok (.xferWr 0x0040 2 [0x12, 0x34]) := by rfl
theorem test_decode_xferWr_short :
    decodeHop 0b00100000 { B := 0x0040, Lb := 2, data := [0x12] } = .error .dataLength := by rfl
theorem test_decode_get : decodeHop 0b00110000 { address := 0x0010 } = .ok (.get 0x0010) := by rfl
theorem test_decode_set : decodeHop 0b01000000 { address := 0x0020, value := 0x1234 } = .ok (.set 0x0020 0x1234) := by rfl
theorem test_decode_prefetch : decodeTableWord 8 0b01010000 = some .prefetch := by decide
theorem test_decode_creset : decodeTableWord 8 0b01100000 = some .creset := by decide
theorem test_decode_declog_t : decodeTableWord 8 0b01110000 = some (.declog .temperature) := by decide
theorem test_decode_declog_h : decodeTableWord 8 0b01110001 = some (.declog .humidity) := by decide
theorem test_decode_dec_t :
    decodeHop 0b10000000 { mode := 3, count := 5, words := [0x0460] } = .ok (.dec .temperature 3 5 [0x0460]) := by rfl
theorem test_decode_dec_h :
    decodeHop 0b10000001 { mode := 2, count := -1, words := [] } = .ok (.dec .humidity 2 (-1) []) := by rfl
theorem test_decode_encT : decodeHop 0b10010000 { real := .real 85 } = .ok (.encT (.real 85)) := by rfl
theorem test_decode_encH : decodeHop 0b10010001 { real := .nan } = .ok (.encH .nan) := by rfl
theorem test_decode_decT : decodeHop 0b10100000 { raw := 0x0460 } = .ok (.decT 0x0460) := by rfl
theorem test_decode_decH : decodeHop 0b10100001 { raw := 0x0640 } = .ok (.decH 0x0640) := by rfl
theorem test_decode_validT : decodeHop 0b10110000 { real := .real 70 } = .ok (.validT (.real 70)) := by rfl
theorem test_decode_validH : decodeHop 0b10110001 { real := .real 100 } = .ok (.validH (.real 100)) := by rfl
/-- Reserved HOP words: `op` 0xC, a bit of 3 to 1, bit 0 without a channel (R102). -/
theorem test_decode_reserved :
    decodeTableWord 8 0b11000000 = none ∧ decodeTableWord 8 0b00000010 = none ∧ decodeTableWord 8 0b00110001 = none := by
  decide
/-- `HS.RD 0x0010, 2` with id 1 (95_test_vectors.md 3.4; the command codes are the fixture's). -/
theorem test_decode_hsRd :
    decode Config.fixtureParams (.command [0x01, 0x01, 0x00, 0x10, 0x00, 0x02]) = .ok (.hsRd 1 0x0010 2) := by rfl
/-- `HS.WR 0x0100, 2, [AA BB CC DD]` with id 0 (3.4). -/
theorem test_decode_hsWr :
    decode Config.fixtureParams (.command [0x00, 0x02, 0x01, 0x00, 0x00, 0x02, 0xAA, 0xBB, 0xCC, 0xDD]) =
      .ok (.hsWr 0 0x0100 2 [0xAA, 0xBB, 0xCC, 0xDD]) := by rfl
/-- `HS.RD 0x1089, 1` with id 0 and `HS.RD 0x0000, 200` with id 1, encoded (3.4). -/
theorem test_encode_hsRd :
    encode Config.fixtureParams (.hsRd 0 0x1089 1) = some (.command [0x00, 0x01, 0x10, 0x89, 0x00, 0x01]) ∧
    encode Config.fixtureParams (.hsRd 1 0x0000 200) = some (.command [0x01, 0x01, 0x00, 0x00, 0x00, 0xC8]) := by decide
theorem test_decode_rplAck : decodeTableWord 16 0x01AC = some (.rplAck 0x01) := by decide
theorem test_decode_rplNack : decodeTableWord 16 0x01FC = some (.rplNack 0x01) := by decide
/-- The internal steps have no encoding (R100). -/
theorem test_encode_internal :
    encode Config.fixtureParams (.chk 0x0020 4) = none ∧ encode Config.fixtureParams (.retry (.rd 0x10 2)) = none ∧
    encode Config.fixtureParams (.mode 1 0) = none := by decide

/-! ### One step per instruction, with the values of 95_test_vectors.md -/

/-- `NOP` leaves `info` and `result` (30_encoding.md R101). -/
theorem test_nop :
    (after .nop (fixture.setRes { fixture.res with status := .tagRejected, info := 7, warn := true })).res =
      { status := .ok, info := 7, warn := false, busy := false, result := .bytes [] } := by decide +kernel

/-- A step takes the request from the port and runs it; P-A's second operation. -/
theorem test_step_decT :
    (match step (fixture.setPort [.run (.hop 0xA0 { raw := 0x0460 })]) with
      | .next t => decide (t.res.result = .real 35) && t.port.isEmpty
      | .fault _ | .refused _ => false) = true := by decide +kernel

/-- A hardware reset empties the cache and leaves the tag (70_reset_and_hazards.md R235, R236). -/
theorem test_reset :
    (match step ((fixture.cacheWord 0x10 0x0460).setPort [.reset]) with
      | .next t => decide (t = fixture)
      | .fault _ | .refused _ => false) = true := by decide +kernel

/-- A reset that arrives between P3 and P5 of a READ: three calls made, IDLE, no cache, the command still in flight
(70_reset_and_hazards.md R236). -/
theorem test_reset_mid_attempt :
    (match step (((with_script (readScript 1 0xAC)).cacheWord 0x10 0x0460).setPort
        [.cut (.command [0x01, 0x01, 0x00, 0x10, 0x00, 0x02]) 3]) with
      | .next t => decide (t.eng.phase = .idle ∧ t.cache = [] ∧ t.log = [] ∧ busCalls t.bus = 3 ∧ t.env.taken = 3 ∧
          t.tag.pending = some { cmd := 0x01, a := 0x0010, n := 2, data := [0, 0, 0, 0] })
      | .fault _ | .refused _ => false) = true := by decide +kernel

/-- `XFER.WR` with a data byte too few: an odd address first, then the length (60_exceptions.md R214). -/
theorem test_step_data_length :
    (match step (fixture.setPort [.run (.hop 0x20 { B := 0x0041, Lb := 2, data := [0x12] })]),
        step (fixture.setPort [.run (.hop 0x20 { B := 0x0040, Lb := 2, data := [0x12] })]) with
      | .next t, .next u => decide (t.res.status = .invalidArgument ∧ t.res.info = 1 ∧ t.bus = [] ∧
          u.res.status = .invalidArgument ∧ u.res.info = 2 ∧ u.bus = [])
      | _, _ => false) = true := by decide +kernel

/-- A word of a log area that nothing has written, its neighbour outside, and one written (10_state.md R39). -/
theorem test_log_area_unwritten :
    readReg Config.fixtureParams [] 0x0107 = 0xFFFF ∧ readReg Config.fixtureParams [] 0x0108 = 0 ∧
    readReg Config.fixtureParams (writeReg Config.fixtureParams [] 0x0107 0) 0x0107 = 0 ∧
    writeReg Config.fixtureParams [(0x0107, 0)] 0x0107 0xFFFF = [] := by decide

/-- The register map is a table of addresses (10_state.md R36). -/
theorem test_register_map :
    Config.fixtureParams.address (.bin .humidity .counter 5) = 0x87 ∧ Config.fixtureParams.address .eta = 0x06 := by decide

/-- A reserved HOP word is `InvalidArgument` 3 (30_encoding.md R102). -/
theorem test_step_reserved :
    (match step (fixture.setPort [.run (.hop 0xC0 {})]) with
      | .next t => decide (t.res.status = .invalidArgument ∧ t.res.info = 3 ∧ t.bus = [])
      | .fault _ | .refused _ => false) = true := by decide +kernel

/-- 3.1: 85 is clamped to 0x08C0; 25.3 is 0x032A; the tie -1/64 is 0x2000. -/
theorem test_encT :
    result (.encT (.real 85)) fixture = .word 0x08C0 ∧ result (.encT (.real (253 / 10))) fixture = .word 0x032A := by
  decide +kernel
/-- 3.1: -50 is clamped to 0x1C40, -1 is 0x1FE0, the ties -1/64 and -3/64 are 0x2000 and 0x1FFF. -/
theorem test_encT_negative :
    result (.encT (.real (-50))) fixture = .word 0x1C40 ∧ result (.encT (.real (-1))) fixture = .word 0x1FE0 ∧
    result (.encT (.real (-1 / 64))) fixture = .word 0x2000 ∧ result (.encT (.real (-3 / 64))) fixture = .word 0x1FFF := by
  decide +kernel
theorem test_encH :
    result (.encH (.real (333 / 10))) fixture = .word 0x042A ∧ result (.encH (.real 150)) fixture = .word 0x0C80 := by
  decide +kernel
/-- 3.1: `ENC.H` of -1 is outside the domain (93_implementation_defined.md U4). -/
theorem test_encH_negative : flags (.encH (.real (-1))) fixture = (.invalidArgument, 3, false) := by decide +kernel
theorem test_decT :
    result (.decT 0x1C41) fixture = .real (-959 / 32) ∧ result (.decT 0x1FFF) fixture = .real (-1 / 32) := by decide +kernel
theorem test_decT_bands :
    result (.decT 0x08C1) fixture = .real 70 ∧ result (.decT 0x1C3F) fixture = .real 70 ∧
    result (.decT 0x2000) fixture = .real 0 := by decide +kernel
theorem test_decH :
    result (.decH 0x0C80) fixture = .real 100 ∧ result (.decH 0x0C81) fixture = .real 0 := by decide +kernel
theorem test_validT :
    result (.validT (.real 70)) fixture = .bool true ∧ result (.validT (.real (70 + 1 / 32))) fixture = .bool false ∧
    result (.validT (.real (-30 - 1 / 32))) fixture = .bool false := by decide +kernel
theorem test_validH :
    result (.validH (.real 0)) fixture = .bool true ∧ result (.validH (.real (-1 / 32))) fixture = .bool false ∧
    result (.validH (.real (100 + 1 / 32))) fixture = .bool false := by decide +kernel

/-- 3.5. -/
theorem test_chk :
    (after (.chk 0x0020 4) fixture).eng.a = 0x0010 ∧ (after (.chk 0x0020 4) fixture).eng.n = 2 ∧
    (after (.chk 0xFFFE 2) fixture).eng.a = 0x7FFF := by decide +kernel
theorem test_chk_errors :
    flags (.chk 0x0020 402) fixture = (.invalidArgument, 2, false) ∧
    flags (.chk 0x0020 3) fixture = (.invalidArgument, 2, false) ∧
    flags (.chk 0x0021 402) fixture = (.invalidArgument, 1, false) := by decide +kernel

/-- 3.9: `TIME_STORE` in bin 1 and `SAMPLE_STORE` in bin 4 give 3; bin 0's samples alone give 2. -/
theorem test_mode :
    (after (.mode 0b000010 0b010000) fixture).dec.mode = 3 ∧ (after (.mode 0 0b000001) fixture).dec.mode = 2 ∧
    (after (.mode 0b001000 0) fixture).dec.mode = 1 := by decide +kernel

/-- P-E. -/
theorem test_dec_program_e :
    result (.dec .temperature 3 5 [0x0460, 0x0010, 0x0001, 0x0320, 0x0005, 0x0001, 0x1FE0, 0xFFFF, 0, 0]) fixture =
      .points [{ timestamp := some 65541, value := some 25 }, { timestamp := some 65552, value := some 35 }] := by
  decide +kernel
/-- V-D5, V-D9, V-D15. -/
theorem test_dec_vectors :
    result (.dec .temperature 1 5 [0x0010, 0x0001, 0x0005, 0x0001, 0x0007]) fixture =
      .points [{ timestamp := some 65541, value := none }, { timestamp := some 65552, value := none }] ∧
    result (.dec .temperature 3 1 [0x0460, 0x0010, 0x0001, 0x0320, 0x0005, 0x0001]) fixture =
      .points [{ timestamp := some 65552, value := some 35 }] ∧
    result (.dec .temperature 1 2 [0xFFFF, 0x0001, 0x0002, 0x0000]) fixture = .points [] := by decide +kernel

/-- The cache of 95_test_vectors.md P-E "through the cache": flags that give mode 3, a count register that gives 5, and the
first eight words of the area. -/
def cached_area : State :=
  (((fixture.cacheWords 0x30 [0, 0x0001, 0, 0, 0x0002, 0]).cacheWord 0x36 5).cacheWords 0x0100
    [0x0460, 0x0010, 0x0001, 0x0320, 0x0005, 0x0001, 0x1FE0, 0xFFFF])

/-- P-E through the cache: the same list and no transport call. -/
theorem test_declog_cached :
    result (.declog .temperature) cached_area =
      .points [{ timestamp := some 65541, value := some 25 }, { timestamp := some 65552, value := some 35 }] ∧
    (after (.declog .temperature) cached_area).bus = [] := by decide +kernel

/-- `DECLOG` with no flag set is `ConfigurationError` 1 (44_log_decoder.md R182, R191). -/
theorem test_declog_no_mode :
    flags (.declog .temperature) ((fixture.cacheWords 0x30 [0, 0, 0, 0, 0, 0]).cacheWord 0x36 5) =
      (.configurationError, 1, false) := by decide +kernel

/-- P-A: the trace of a miss, newest first. -/
theorem test_get_miss :
    let t := after (.get 0x0010) (with_script (readScript 1 0xAC))
    t.res.result = .word 0x0460 ∧ t.cached 0x10 = some 0x0460 ∧ t.eng.idmsg = 1 ∧ t.eng.attempt = 1 ∧
    t.bus = [.read 3 8 2 (some [0x04, 0x60]), .read 3 6 2 (some [0x01, 0xAC]), .wait 107,
      .read 2 0 4 (some [0, 0, 0, 0]), .write 3 0 [0x01, 0x01, 0x00, 0x10, 0x00, 0x01] true,
      .read 3 6 2 (some [0, 0])] := by decide +kernel
/-- 3.8: an address above the register space. -/
theorem test_get_address : flags (.get 0x108A) fixture = (.invalidArgument, 1, false) := by decide +kernel

/-- The fixture after P-A's reply `01 AC`, with the events of a `SET` during which the tag stores the value whole, or keeps
its low 12 bits (the variant of P-B). -/
def set_state (change : List TagAction) : State :=
  with_reply (with_script (writeScript 0 0xAC ++ { quietEvent with tag := change } :: (readScript 1 0xAC).tail)) 0x01 0xAC

/-- P-B. -/
theorem test_set :
    let t := after (.set 0x0020 0x1234) (set_state [])
    t.cached 0x20 = some 0x1234 ∧ t.res.warn = false ∧ t.res.status = .ok ∧ t.eng.idmsg = 1 ∧
    t.bus.reverse.take 6 = [.read 3 6 2 (some [0x01, 0xAC]), .write 3 0 [0x00, 0x02, 0x00, 0x20, 0x00, 0x01] true,
      .write 3 8 [0x12, 0x34] true, .read 2 0 4 (some [0, 0, 0, 0]), .wait 400, .read 3 6 2 (some [0x00, 0xAC])] := by
  decide +kernel
/-- P-B, variant. -/
theorem test_set_mismatch :
    let t := after (.set 0x0020 0x1234) (set_state [.setReg 0x20 0x0234])
    t.cached 0x20 = some 0x0234 ∧ t.res.warn = true ∧ t.res.info = 0x0234 ∧ t.res.status = .ok := by decide +kernel

/-- P-C, the whole transfer: the late answer, the retry with the other id. -/
def late_reply : State :=
  with_reply (with_script ([quietEvent, quietEvent, quietEvent, quietEvent, answeredEvent 1 0xAC] ++
    (readScript 0 0xAC).tail)) 0x00 0xAC
theorem test_xferRd_late :
    let t := after (.xferRd 0x0020 4) late_reply
    t.res.result = .bytes [0x04, 0x60, 0x06, 0x40] ∧ t.eng.attempt = 2 ∧ t.eng.idmsg = 0 ∧
    t.log = [.failure 1 .protocolTimeout 1] := by decide +kernel
/-- P-D (i). -/
theorem test_xferRd_dead :
    let t := after (.xferRd 0x0020 4) (with_script [deadEvent, deadEvent, deadEvent])
    t.res.status = .communicationExhausted ∧ t.res.info = 2 ∧ t.eng.attempt = 3 ∧
    t.bus = [.read 3 6 2 none, .read 3 6 2 none, .read 3 6 2 none] ∧ t.log.length = 3 := by decide +kernel

/-- The data words reach the registers of the tag (20_memory.md R66, 42_transfer_retry.md R153). -/
theorem test_xferWr :
    let t := after (.xferWr 0x0200 4 [0xAA, 0xBB, 0xCC, 0xDD]) (with_script (writeScript 1 0xAC))
    readRegs t.par t.tag.regs 0x0100 2 = [0xAABB, 0xCCDD] ∧ t.res.status = .ok ∧ t.res.result = .bytes [] := by decide +kernel

/-- 3.3: the reply `01 FC` to id 1, and `00 FB` to id 0 (the id found is 1). -/
theorem test_hsRd_verdicts :
    flags (.hsRd 1 0x0010 2) (with_script (readScript 1 0xFC)) = (.tagRejected, 0, false) ∧
    flags (.hsRd 1 0x0010 2) (with_reply (with_script (readScript 0 0xFB)) 0x01 0xAC) = (.protocolTimeout, 2, false) := by
  decide +kernel
/-- 3.2: the id byte `AC` found gives id 0; 3.4: `HS.RD 0x1068, 34` waits 226 ms. -/
theorem test_hsRd_id_and_delay :
    let t := after (.hsRd 0 0x1068 34) (with_reply (with_script (readScript 0 0xAC)) 0xAC 0x01)
    t.eng.idmsg = 0 ∧ BusEvent.wait 226 ∈ t.bus ∧ t.res.status = .ok := by decide +kernel
/-- 3.4: the six bytes and the data of `HS.WR 0x0020, 1, [12 34]` with id 1. -/
theorem test_hsWr :
    let t := after (.hsWr 1 0x0020 1 [0x12, 0x34]) (with_script (writeScript 1 0xAC))
    readReg t.par t.tag.regs 0x20 = 0x1234 ∧ BusEvent.write 3 0 [0x01, 0x02, 0x00, 0x20, 0x00, 0x01] true ∈ t.bus ∧
    BusEvent.write 3 8 [0x12, 0x34] true ∈ t.bus ∧ BusEvent.wait 400 ∈ t.bus := by decide +kernel
theorem test_hsWr_failure :
    flags (.hsWr 1 0x0020 1 [0x12, 0x34]) (with_script [quietEvent, quietEvent, deadEvent]) = (.transportError, 3, false) := by
  decide +kernel

/-- An attempt of id 1 in progress at P5 (3.3). -/
def in_p5 (kind : Kind) : State :=
  (with_script [quietEvent]).setEng { fixture.eng with idmsg := 1, kind := kind, a := 0x0010, n := 2 }
theorem test_rplAck :
    flags (.rplAck 0x03) (in_p5 .rd) = (.protocolTimeout, 1, false) ∧ flags (.rplAck 0x01) (in_p5 .wr) = (.ok, 0, false) ∧
    result (.rplAck 0x01) ((in_p5 .rd).setTag { fixture.tag with mem := writeBytes [] 3 8 [0x04, 0x60, 0x06, 0x40] }) =
      .bytes [0x04, 0x60, 0x06, 0x40] := by decide +kernel
theorem test_rplNack :
    flags (.rplNack 0x01) (in_p5 .rd) = (.tagRejected, 0, false) ∧
    flags (.rplNack 0x00) (in_p5 .rd) = (.protocolTimeout, 1, false) := by decide +kernel

/-- 3.6: `TransportError`, `TagRejected`, `ProtocolTimeout` is status 5 with info 3. -/
theorem test_retry :
    let t := after (.retry (.rd 0x0010 2)) (with_script (deadEvent :: readScript 1 0xFC ++
      [quietEvent, quietEvent, quietEvent, quietEvent]))
    t.eng.attempt = 3 ∧ t.log.length = 3 ∧ t.res.status = .communicationExhausted ∧ t.res.info = 3 := by decide +kernel
/-- 3.6: `TransportError` then `ok`. -/
theorem test_retry_second :
    let t := after (.retry (.rd 0x0010 2)) (with_script (deadEvent :: readScript 1 0xAC))
    t.eng.attempt = 2 ∧ t.res.result = .bytes [0x04, 0x60, 0x06, 0x40] ∧ t.log.length = 1 := by decide +kernel

theorem test_creset : (after .creset cached_area).cache = [] := by decide +kernel

/-- 3.8: chunk 1 exhausts; entries 0 to 99 are cached, the next is none. -/
def failing_prefetch : State := with_script (readScripts 1 1 ++ [deadEvent, deadEvent, deadEvent])
theorem test_prefetch_fails :
    let t := after .prefetch failing_prefetch
    t.res.status = .communicationExhausted ∧ t.cached 0x10 = some 0x0460 ∧ t.cached 99 = some 0 ∧ t.cached 100 = none := by
  decide +kernel

/-! ### The instructions the other families' statements name also at a boundary -/

/-- `GET 0x1089` is the last register (3.8). -/
theorem test_get_last_address : addressOk 0x1089 = true ∧ addressOk 0x108A = false := by decide

/-! ### Witnesses: the hypotheses of the obligations can be met together -/

/-- Every instruction answers a next state, the one `after` names. -/
theorem exec_after (i : Instr) (s : State) : exec i s = .next (after i s) := by
  have h : ∃ t, exec i s = .next t := by cases i <;> exact ⟨_, rfl⟩
  obtain ⟨t, h⟩ := h
  simp only [after, h]

theorem witness_DecodeInvertsEncode :
    Config.fixtureParams.valid = true ∧
    ((Instr.hsRd 1 0x0000 200).wf = true ∧
      encode Config.fixtureParams (.hsRd 1 0x0000 200) = some (.command [0x01, 0x01, 0x00, 0x00, 0x00, 0xC8])) ∧
    ((Instr.hsWr 0 0x0100 1 [0xAA, 0xBB]).wf = true ∧ encode Config.fixtureParams (.hsWr 0 0x0100 1 [0xAA, 0xBB]) =
      some (.command [0x00, 0x02, 0x01, 0x00, 0x00, 0x01, 0xAA, 0xBB])) ∧
    ((Instr.rplAck 0xFF).wf = true ∧ encode Config.fixtureParams (.rplAck 0xFF) = some (.reply 0xFF 0xAC)) ∧
    (Instr.xferWr 0x0040 1 [0x12]).wf = true ∧
      encode Config.fixtureParams (.xferWr 0x0040 1 [0x12]) = some (.hop 0x20 { B := 0x0040, Lb := 1, data := [0x12] }) := by
  decide

theorem witness_EncodeInvertsDecode :
    decode Config.fixtureParams (.reply 0x01 0xAC) = .ok (.rplAck 0x01) ∧
    decode Config.fixtureParams (.command [0x00, 0x01, 0x10, 0x89, 0x00, 0x01]) = .ok (.hsRd 0 0x1089 1) ∧
    decode Config.fixtureParams (.hop 0xB1 { B := 7 }) = .ok (.validH (.real 0)) := ⟨rfl, rfl, rfl⟩

theorem witness_ParameterBlockBytes : (200 : Word).toNat ≤ 200 := by decide

theorem witness_StepRunsDecodedRequest :
    let f : Frame := .hop 0x60 {}
    ((fixture.setPort [.run f]).port = .run f :: [] ∧ (fixture.setPort [.run f]).res.busy = false ∧
      decode fixture.par f = .ok .creset) ∧
    fixture.port = [] ∧
    ((fixture.setPort [.run f]).setRes fixture.res.start).port = .run f :: [] ∧
      ((fixture.setPort [.run f]).setRes fixture.res.start).res.busy = true := ⟨⟨rfl, rfl, rfl⟩, rfl, rfl, rfl⟩

/-- Each clause at its boundary: `op` 0xC, bit 1 and bit 3 set, bit 0 set at `op` 6 and at `op` 0. -/
theorem witness_ReservedHopWordIsInvalidArgument :
    (fixture.setPort [.run (.hop 0xC0 {})]).port = .run (.hop 0xC0 {}) :: [] ∧
    (fixture.setPort [.run (.hop 0xC0 {})]).res.busy = false ∧
    (0xC0 : Byte).toNat / 16 ≥ 0xC ∧ (0xB2 : Byte).toNat / 2 % 8 ≠ 0 ∧ (0x08 : Byte).toNat / 2 % 8 ≠ 0 ∧
    ((0x61 : Byte).toNat % 2 = 1 ∧ ¬ (7 ≤ (0x61 : Byte).toNat / 16 ∧ (0x61 : Byte).toNat / 16 ≤ 0xB)) ∧
    ((0x01 : Byte).toNat % 2 = 1 ∧ ¬ (7 ≤ (0x01 : Byte).toNat / 16 ∧ (0x01 : Byte).toNat / 16 ≤ 0xB)) :=
  ⟨rfl, rfl, by decide, by decide, by decide, by decide, by decide⟩

theorem witness_ReservedReplyCodeIsTimeout :
    (fixture.setPort [.run (.reply 0x01 0xAD)]).port = .run (.reply 0x01 0xAD) :: [] ∧
    (fixture.setPort [.run (.reply 0x01 0xAD)]).res.busy = false ∧ (0xAD : Byte) ≠ 0xAC ∧ (0xAD : Byte) ≠ 0xFC :=
  ⟨rfl, rfl, by decide, by decide⟩

/-- The three clauses: between operations; in the middle of one, at its first and after its third transaction. -/
theorem witness_HardwareReset :
    let f : Frame := .command [0x01, 0x01, 0x00, 0x10, 0x00, 0x02]
    let s := (with_script (readScript 1 0xAC)).setPort [.cut f 3]
    (fixture.setPort [.reset]).port = .reset :: [] ∧
    ((fixture.setPort [.cut f 0]).port = .cut f 0 :: [] ∧ (fixture.setPort [.cut f 0]).res.busy = false) ∧
    s.port = .cut f 3 :: [] ∧ s.res.busy = false ∧ decode s.par f = .ok (.hsRd 1 0x0010 2) ∧
    s.env.script = quietEvent :: quietEvent :: quietEvent :: [answeredEvent 1 0xAC, quietEvent] ∧
    (∀ e ∈ [quietEvent, quietEvent, quietEvent], e.ok = true) :=
  ⟨rfl, ⟨rfl, rfl⟩, rfl, rfl, rfl, rfl, by decide⟩

/-- With the fixture's map a log area has a first and a last word. -/
theorem witness_ResetMeetsInvariant :
    0 < (Config.fixtureParams.map .temperature).logLen ∧ 5 < (Config.fixtureParams.map .humidity).logLen := by decide

theorem fixture_inv : fixture.Inv where
  par := by decide +kernel
  mem := by decide
  regs := by decide
  cache := by decide
  dbuf := by decide +kernel
  attempt := by decide
  idmsg := by decide
  phase := rfl
  busy := rfl

theorem witness_StepKeepsInvariant : fixture.Inv ∧ step fixture = .next fixture := ⟨fixture_inv, rfl⟩

theorem witness_StepKeepsParametersAndPort :
    ∃ t, step (fixture.setPort [.run (.hop 0x60 {})]) = .next t := ⟨_, rfl⟩

theorem witness_BankTrafficIsTheHandshakes :
    (Instr.hsRd 1 0x0000 200).wf = true ∧ fixture.eng.n.toNat ≤ 200 ∧
    exec (.hsRd 1 0x0000 200) fixture = .next (after (.hsRd 1 0x0000 200) fixture) := ⟨by decide, by decide, exec_after _ _⟩

theorem witness_HostSeesOnlyCallerErrors :
    hostOp (.xferRd 0x0020 4) = true ∧
    exec (.xferRd 0x0020 4) (with_script [deadEvent, deadEvent, deadEvent]) =
      .next (after (.xferRd 0x0020 4) (with_script [deadEvent, deadEvent, deadEvent])) := ⟨rfl, exec_after _ _⟩

theorem witness_ErrorEntry :
    exec (.hsWr 1 0x0020 1 [0x12, 0x34]) (with_script [deadEvent]) =
      .next (after (.hsWr 1 0x0020 1 [0x12, 0x34]) (with_script [deadEvent])) ∧
    (after (.hsWr 1 0x0020 1 [0x12, 0x34]) (with_script [deadEvent])).res.status ≠ .ok := ⟨exec_after _ _, by decide +kernel⟩

theorem witness_WarningOnlyFromSet :
    exec (.set 0x0020 0x1234) (set_state [.setReg 0x20 0x0234]) =
      .next (after (.set 0x0020 0x1234) (set_state [.setReg 0x20 0x0234])) ∧
    (after (.set 0x0020 0x1234) (set_state [.setReg 0x20 0x0234])).res.warn = true := ⟨exec_after _ _, by decide +kernel⟩

/-- Each clause at its boundary: an odd address, a length of 401, 402, 0 and 3, the first address above the space. -/
theorem witness_InvalidArgumentsMakeNoCall :
    (0x0021 : Word).toNat % 2 = 1 ∧ (0x0020 : Word).toNat % 2 = 0 ∧ (401 : Word).toNat > 400 ∧ (402 : Word).toNat > 400 ∧
    (0 : Word).toNat = 0 ∧ (3 : Word).toNat % 2 = 1 ∧ (0x108A : Word).toNat > 0x1089 ∧
    [(0x12 : Byte)].length ≠ (2 : Word).toNat ∧ [(0x12 : Byte), 0x34, 0x56].length ≠ (2 : Word).toNat := by decide

/-- An `XFER.WR` at the port with a data byte too few, at an odd and at an even address. -/
theorem witness_InvalidArgumentsMakeNoCall_data :
    ∀ B : Word, (fixture.setPort [.run (.hop 0x20 { B := B, Lb := 2, data := [0x12] })]).port =
        .run (.hop 0x20 { B := B, Lb := 2, data := [0x12] }) :: [] ∧
      (fixture.setPort [.run (.hop 0x20 { B := B, Lb := 2, data := [0x12] })]).res.busy = false := fun _ => ⟨rfl, rfl⟩

/-- A READ at the largest size the firmware answers with ACK. -/
theorem witness_HsRdCompletes :
    let s := with_script (readScript 1 0xAC)
    let p := s.par
    (200 : Word).toNat ≤ 200 ∧ s.eng.dbuf.length = 400 ∧
    s.env.script = quietEvent :: quietEvent :: quietEvent :: answeredEvent 1 0xAC :: quietEvent :: [] ∧
    (∀ e ∈ [quietEvent, quietEvent, quietEvent, answeredEvent 1 0xAC, quietEvent], e.ok = true) ∧
    ((s.tag.afterReadTrigger p 0x0000 200 [] [] []).acts p [.run 1 0xAC]).mailbox p (replyOffset p) 2 =
      [nextId (((s.tag.acts p []).mailbox p (replyOffset p) 2).getD 0 0), 0xAC] := by decide +kernel

theorem witness_HsWrCompletes :
    let s := with_script (writeScript 1 0xAC)
    let p := s.par
    (1 : Word).toNat ≤ 200 ∧ [(0x12 : Byte), 0x34].length = 2 * (1 : Word).toNat ∧ s.eng.dbuf.length = 400 ∧
    s.env.script = quietEvent :: quietEvent :: quietEvent :: quietEvent :: answeredEvent 1 0xAC :: [] ∧
    (∀ e ∈ [quietEvent, quietEvent, quietEvent, quietEvent, answeredEvent 1 0xAC], e.ok = true) ∧
    ((s.tag.afterWriteTrigger p 0x0020 1 [0x12, 0x34] [] [] [] []).acts p [.run 1 0xAC]).mailbox p (replyOffset p) 2 =
      [nextId (((s.tag.acts p []).mailbox p (replyOffset p) 2).getD 0 0), 0xAC] := by decide +kernel

/-- The firmware's reply `b0 b1` stands in the slot at P5, of a READ and of a WRITE, and does not pass. -/
abbrev refusedReply (b0 b1 : Byte) : Prop :=
  (((with_script []).tag.afterReadTrigger Config.fixtureParams 0x0020 1 [] [] []).acts Config.fixtureParams
      [.run b0 b1]).mailbox Config.fixtureParams (replyOffset Config.fixtureParams) 2 = [b0, b1] ∧
  (((with_script []).tag.afterWriteTrigger Config.fixtureParams 0x0020 1 [0x12, 0x34] [] [] [] []).acts Config.fixtureParams
      [.run b0 b1]).mailbox Config.fixtureParams (replyOffset Config.fixtureParams) 2 = [b0, b1] ∧
  nextId (((with_script []).tag.mailbox Config.fixtureParams (replyOffset Config.fixtureParams) 2).getD 0 0) = 1 ∧
  ¬ (b0 = 1 ∧ b1 = 0xAC)

/-- Three reply slots that do not pass P5: another id, a reserved code, NACK. -/
theorem witness_ReplyVerdict :
    (∀ b0 b1, (with_script (readScript b0 b1)).env.script =
        quietEvent :: quietEvent :: quietEvent :: answeredEvent b0 b1 :: quietEvent :: [] ∧
      (with_script (writeScript b0 b1)).env.script =
        quietEvent :: quietEvent :: quietEvent :: quietEvent :: answeredEvent b0 b1 :: [] ∧
      quietEvent.ok = true ∧ (answeredEvent b0 b1).ok = true) ∧
    [(0x12 : Byte), 0x34].length = 2 * (1 : Word).toNat ∧ (1 : Word).toNat ≤ 200 ∧
    refusedReply 0x00 0xAC ∧ refusedReply 0x01 0xAD ∧ refusedReply 0x01 0xFC :=
  ⟨fun _ _ => ⟨rfl, rfl, rfl, rfl⟩, by decide, by decide, by decide +kernel, by decide +kernel, by decide +kernel⟩

/-- A firmware that has not answered. -/
theorem witness_StaleReplyIsTimeout :
    let s := with_script [quietEvent, quietEvent, quietEvent, quietEvent, quietEvent]
    let p := s.par
    let found := ((s.tag.acts p []).mailbox p (replyOffset p) 2).getD 0 0
    (∀ e ∈ s.env.script, e.ok = true) ∧ [(0x12 : Byte), 0x34].length = 2 * (1 : Word).toNat ∧ (1 : Word).toNat ≤ 200 ∧
    (((s.tag.afterReadTrigger p 0x0020 1 [] [] []).acts p []).mailbox p (replyOffset p) 2).getD 0 0 = found ∧
    (((s.tag.afterWriteTrigger p 0x0020 1 [0x12, 0x34] [] [] [] []).acts p []).mailbox p (replyOffset p) 2).getD 0 0 =
      found := by decide +kernel

/-- The first call of each kind and the last of each clause: `k` 0, 3 and 4. -/
theorem witness_TransportFailureEndsAttempt :
    ∀ k ∈ [0, 3, 4],
      let s := with_script (List.replicate k quietEvent ++ [deadEvent])
      s.env.script = List.replicate k quietEvent ++ deadEvent :: [] ∧
      (∀ e ∈ List.replicate k quietEvent, e.ok = true) ∧ deadEvent.ok = false ∧
      (List.replicate k quietEvent).length = k := by decide +kernel

/-- The fifth call of a READ, after ACK. -/
theorem witness_TransportFailureEndsAttempt_P6 :
    let s := with_script ((readScript 1 0xAC).take 4 ++ [deadEvent])
    s.env.script = [quietEvent, quietEvent, quietEvent, answeredEvent 1 0xAC] ++ deadEvent :: [] ∧
    ((s.tag.afterReadTrigger s.par 0x0010 2 [] [] []).acts s.par [.run 1 0xAC]).mailbox s.par (replyOffset s.par) 2 =
      [nextId (((s.tag.acts s.par []).mailbox s.par (replyOffset s.par) 2).getD 0 0), 0xAC] := by decide +kernel

/-- P-A's READ, then a READ that reads the reply slot as the first left it. -/
def two_reads : State := with_script (readScript 1 0xAC ++ readScript 0 0xAC)
theorem witness_ConsecutiveIdsAlternate :
    let x : Instr := .hsRd 1 0x0010 1
    let t := after x two_reads
    exec x two_reads = .next t ∧ exec x t = .next (after x t) ∧ t.res.status = .ok ∧ (after x t).res.status = .ok ∧
    t.transact.replyId = t.eng.idmsg :=
  ⟨exec_after _ _, exec_after _ _, by decide +kernel, by decide +kernel, by decide +kernel⟩

theorem witness_FirmwareFetchesStagedCommand :
    Config.fixtureParams.valid = true ∧ (2 : Word).toNat ≤ 200 ∧
    [(0xAA : Byte), 0xBB, 0xCC, 0xDD].length = 2 * (2 : Word).toNat := by decide +kernel

theorem witness_RplAckCompletes :
    (in_p5 .rd).eng.n.toNat ≤ 200 ∧ (in_p5 .rd).eng.dbuf.length = 400 ∧ (0x03 : Byte) ≠ (in_p5 .rd).eng.idmsg ∧
    (0x01 : Byte) = (in_p5 .rd).eng.idmsg ∧ (in_p5 .rd).eng.kind = .rd ∧ (in_p5 .wr).eng.kind = .wr ∧
    (in_p5 .rd).env.script = quietEvent :: [] ∧ quietEvent.ok = true := by decide +kernel

/-- The longest transfer, and the highest word address. -/
theorem witness_DeadTransportExhausts :
    1 ≤ (200 : Word).toNat ∧ (200 : Word).toNat ≤ 200 ∧ (0xFFFE : Word).toNat = 2 * (0x7FFF : Word).toNat ∧
    (400 : Word).toNat = 2 * (200 : Word).toNat ∧
    (with_script [deadEvent, deadEvent, deadEvent]).env.script = deadEvent :: deadEvent :: deadEvent :: [] := by decide +kernel

/-- A READ and a WRITE of the last register. -/
theorem witness_TwoFailuresThenSuccess :
    let s := with_script (deadEvent :: deadEvent :: readScript 1 0xAC)
    let u := with_script (deadEvent :: deadEvent :: writeScript 1 0xAC)
    s.par.valid = true ∧ s.eng.dbuf.length = 400 ∧ u.par.valid = true ∧ u.eng.dbuf.length = 400 ∧
    1 ≤ (1 : Word).toNat ∧ (1 : Word).toNat ≤ 200 ∧ [(0x12 : Byte), 0x34].length = 2 * (1 : Word).toNat ∧
    (0x2112 : Word).toNat = 2 * (0x1089 : Word).toNat ∧ (2 : Word).toNat = 2 * (1 : Word).toNat ∧
    s.env.script = deadEvent :: deadEvent :: (readScript (nextId s.replyId) 0xAC ++ []) ∧
    u.env.script = deadEvent :: deadEvent :: (writeScript (nextId u.replyId) 0xAC ++ []) ∧
    (0x1089 : Word).toNat + (1 : Word).toNat ≤ 0x108A := by decide +kernel

theorem witness_TransfersAreBounded :
    let s := with_script [deadEvent, deadEvent, deadEvent]
    exec (.xferRd 0x0020 4) s = .next (after (.xferRd 0x0020 4) s) ∧
    (after (.xferRd 0x0020 4) s).res.status ≠ .invalidArgument := ⟨exec_after _ _, by decide +kernel⟩

theorem witness_ExhaustionCarriesThirdError :
    let s := with_script [deadEvent, deadEvent, deadEvent]
    exec (.xferRd 0x0020 4) s = .next (after (.xferRd 0x0020 4) s) ∧
    (after (.xferRd 0x0020 4) s).res.status = .communicationExhausted := ⟨exec_after _ _, by decide +kernel⟩

/-- The last register, and the longest READ. -/
theorem witness_ReadTransferCompletes :
    let s := with_script (readScript 1 0xAC)
    s.par.valid = true ∧ s.eng.dbuf.length = 400 ∧ 1 ≤ (1 : Word).toNat ∧ (200 : Word).toNat ≤ 200 ∧
    s.env.script = readScript (nextId s.replyId) 0xAC ++ [] ∧
    ((0x2112 : Word).toNat = 2 * (0x1089 : Word).toNat ∧ (2 : Word).toNat = 2 * (1 : Word).toNat) ∧
    ((0xFFFE : Word).toNat = 2 * (0x7FFF : Word).toNat ∧ (400 : Word).toNat = 2 * (200 : Word).toNat) := by decide +kernel

theorem witness_WriteTransferCompletes :
    let s := with_script (writeScript 1 0xAC)
    s.par.valid = true ∧ s.eng.dbuf.length = 400 ∧ 1 ≤ (1 : Word).toNat ∧ (1 : Word).toNat ≤ 200 ∧
    [(0x12 : Byte), 0x34].length = 2 * (1 : Word).toNat ∧ s.env.script = writeScript (nextId s.replyId) 0xAC ++ [] ∧
    (0x2112 : Word).toNat = 2 * (0x1089 : Word).toNat ∧ (2 : Word).toNat = 2 * (1 : Word).toNat ∧
    (0x1089 : Word).toNat + (1 : Word).toNat ≤ 0x108A := by decide +kernel

theorem witness_GetHit :
    (0x0010 : Word).toNat ≤ 0x1089 ∧ (fixture.cacheWord 0x10 0x0460).cached (0x0010 : Word).toNat = some 0x0460 := by decide +kernel

theorem witness_GetMissFillsEntry :
    let s := with_script (readScript 1 0xAC)
    s.par.valid = true ∧ s.eng.dbuf.length = 400 ∧ (0x1089 : Word).toNat ≤ 0x1089 ∧ s.cached (0x1089 : Word).toNat = none ∧
    s.env.script = readScript (nextId s.replyId) 0xAC ++ [] := by decide +kernel

/-- With the reply `01 AC` of P-A in the slot; the observed word is the intended one or not. -/
theorem witness_SetCachesObservedWord (observed : Word) :
    let s := set_state [.setReg 0x0020 observed]
    s.par.valid = true ∧ s.eng.dbuf.length = 400 ∧ (0x0020 : Word).toNat ≤ 0x1089 ∧ s.replyId = 1 ∧
    s.env.script = writeScript 0 0xAC ++ { quietEvent with tag := [.setReg 0x0020 observed] } ::
      ((readScript 1 0xAC).tail ++ []) ∧ nextId 1 = 0 ∧ nextId 0 = 1 := by
  refine ⟨?_, ?_, by decide, ?_, ?_, by decide, by decide⟩
  · show Config.fixtureParams.valid = true
    decide +kernel
  · exact List.length_replicate
  · have h : ∀ c, (set_state c).replyId = (with_reply fixture 0x01 0xAC).replyId := fun _ => rfl
    rw [h]
    decide +kernel
  · rw [List.append_nil]
    rfl

theorem witness_GetAfterVerifiedSet :
    let t := after (.set 0x0020 0x1234) (set_state [])
    exec (.set 0x0020 0x1234) (set_state []) = .next t ∧ t.res.status = .ok ∧ t.res.warn = false := ⟨exec_after _ _, by decide +kernel, by decide +kernel⟩

/-- A `GET` that fails and one that succeeds. -/
theorem witness_GetSetTouchOneEntry :
    let dead := with_script [deadEvent, deadEvent, deadEvent]
    let live := with_script (readScript 1 0xAC)
    exec (.get 0x0010) dead = .next (after (.get 0x0010) dead) ∧ (after (.get 0x0010) dead).res.status ≠ .ok ∧
    exec (.get 0x0010) live = .next (after (.get 0x0010) live) ∧ (after (.get 0x0010) live).res.status = .ok :=
  ⟨exec_after _ _, by decide +kernel, exec_after _ _, by decide +kernel⟩

theorem witness_PrefetchCachesEveryRegister :
    let s := with_script (readScripts 1 43)
    s.par.valid = true ∧ s.eng.dbuf.length = 400 ∧ s.env.script = readScripts (nextId s.replyId) 43 ++ [] := by decide +kernel

/-- The chunk that fails is the first, the second or the last; and a run that fails. -/
theorem witness_FailedPrefetchKeepsChunks :
    (∀ k ∈ [0, 1, 42], k < 43 ∧
      (with_script (readScripts 1 k ++ [deadEvent, deadEvent, deadEvent])).env.script =
        readScripts (nextId fixture.replyId) k ++ deadEvent :: deadEvent :: deadEvent :: []) ∧
    failing_prefetch.par.valid = true ∧ failing_prefetch.eng.dbuf.length = 400 ∧
    failing_prefetch.replyId = fixture.replyId ∧
    exec .prefetch failing_prefetch = .next (after .prefetch failing_prefetch) ∧
    (after .prefetch failing_prefetch).res.status ≠ .ok :=
  ⟨fun k hk => ⟨by revert k; decide, by rw [show nextId fixture.replyId = 1 by decide +kernel]; rfl⟩, by decide +kernel,
    by decide +kernel, rfl, exec_after _ _, by decide +kernel⟩

theorem witness_LocalOperationsFrame :
    localOp (.chk 0x0020 4) = true ∧ exec (.chk 0x0020 4) fixture = .next (after (.chk 0x0020 4) fixture) ∧
    localOp (.mode 1 1) = true ∧ exec (.mode 1 1) fixture = .next (after (.mode 1 1) fixture) :=
  ⟨rfl, exec_after _ _, rfl, exec_after _ _⟩

theorem witness_TransferFrame :
    localOp (.retry (.rd 0x0010 2)) = false ∧ cacheOp (.retry (.rd 0x0010 2)) = false ∧
    exec (.retry (.rd 0x0010 2)) fixture = .next (after (.retry (.rd 0x0010 2)) fixture) := ⟨rfl, rfl, exec_after _ _⟩

/-- A WRITE of one word and a READ of 200, both answered with ACK, with a READ of 200 still in flight from before; the first
byte above the mailbox is outside all the slots, and below them where the firmware never answers so is the reply slot. -/
theorem witness_TransferMemoryFrame :
    let flight (s : State) : State := s.setTag { s.tag with pending := some { cmd := 0x01, a := 0, n := 200, data := [] } }
    let s := flight (with_script (writeScript 1 0xAC ++ List.replicate 10 quietEvent))
    let u := flight (with_script (readScript 1 0xAC ++ List.replicate 10 quietEvent))
    let silent := with_script (List.replicate 15 quietEvent)
    let x : Instr := .hsWr 1 0x0020 1 [0x12, 0x34]
    let y : Instr := .xferRd 0x0040 400
    s.par.valid = true ∧ u.par.valid = true ∧ 1 ≤ (1 : Word).toNat ∧ (200 : Word).toNat ≤ 200 ∧
    [(0x12 : Byte), 0x34].length = 2 * (1 : Word).toNat ∧ (0x0040 : Word).toNat = 2 * (0x0020 : Word).toNat ∧
    (2 : Word).toNat = 2 * (1 : Word).toNat ∧ (400 : Word).toNat = 2 * (200 : Word).toNat ∧ 15 ≤ s.env.script.length ∧
    15 ≤ u.env.script.length ∧ ¬ pokesIn s.env.script ∧ ¬ pokesIn u.env.script ∧ ¬ answersIn silent.env.script ∧
    (∀ c, s.tag.pending = some c → min c.n.toNat 200 ≤ 200) ∧ exec x s = .next (after x s) ∧ (after x s).res.status = .ok ∧
    exec y u = .next (after y u) ∧ (after y u).res.status = .ok ∧
    (outsideWrites s.par .wr 1 (bankAddr 3 408) ∧ outsideAnswers s.par 200 (bankAddr 3 408)) ∧
    outsideWrites silent.par .rd 200 (bankAddr 3 6) := by
  refine ⟨by decide +kernel, by decide +kernel, by decide, by decide, by decide, by decide, by decide, by decide,
    by decide +kernel, by decide +kernel, ?_, ?_, ?_, fun _ _ => Nat.min_le_right _ _, exec_after _ _, by decide +kernel,
    exec_after _ _, by decide +kernel, ⟨⟨by decide, fun _ => by decide⟩, by decide, by decide +kernel⟩, by decide, fun h => nomatch h⟩
  all_goals
    rintro ⟨e, he, h⟩
    simp [with_script, State.setEnv, State.setTag, writeScript, readScript] at he
    rcases he with rfl | rfl | rfl <;> simp [quietEvent, answeredEvent] at h

/-- The byte just above the mailbox, with a firmware that pokes a byte inside it. -/
theorem witness_OnlyTheMailboxIsWritten :
    let poke : EnvEvent := { quietEvent with tag := [.poke 3 407 0xAA] }
    let s := with_script [poke, deadEvent]
    let i : Instr := .hsRd 1 0x0010 2
    i.wf = true ∧ s.par.valid = true ∧ exec i s = .next (after i s) ∧
    (after i s).env.taken ≤ s.env.taken + s.env.script.length ∧
    (∀ e ∈ s.env.script, ∀ bank offset value, TagAction.poke bank offset value ∈ e.tag →
      bankAddr bank offset ≠ bankAddr 3 408) ∧
    (∀ k < 408, bankAddr 3 408 ≠ bankAddr s.par.miBank s.par.miBase + k) := by
  refine ⟨by decide, by decide +kernel, exec_after _ _, by decide +kernel, ?_, by decide +kernel⟩
  intro e he bank offset value h
  have hs : e = { quietEvent with tag := [.poke 3 407 0xAA] } ∨ e = deadEvent := by
    simpa [with_script, State.setEnv] using he
  rcases hs with rfl | rfl
  · simp only [List.mem_singleton, TagAction.poke.injEq] at h
    rw [h.1, h.2.1]
    decide
  · exact absurd h (by simp [deadEvent])

/-- Both clauses at their boundary: mode 0; count 0. -/
theorem witness_DecConfigurationErrors : (0 : BitVec 2) = 0 ∧ (2 : BitVec 2) ≠ 0 ∧ (0 : Int) ≤ 0 := by decide

theorem witness_SentinelEndsScan : (1 : BitVec 2) ≠ 0 ∧ (0 : Int) < 2 := by decide

theorem witness_DecResultBounded : (2 : BitVec 2) ≠ 0 ∧ (0 : Int) < 1 := by decide

theorem witness_DecSortsStably : (1 : BitVec 2).getLsbD 0 = true ∧ (3 : BitVec 2).getLsbD 0 = true ∧ (0 : Int) < 1 := by decide

/-- P-E: two records, the cut record `1FE0`, the sentinel and more words. -/
theorem witness_DecRebuildsPoints :
    let groups : List LogGroup := [⟨0x0460, 0x0010, 0x0001⟩, ⟨0x0320, 0x0005, 0x0001⟩]
    (3 : BitVec 2) ≠ 0 ∧ (0 : Int) < 5 ∧ (∀ g ∈ groups, 0xFFFF ∉ g.words 3) ∧ [(0x1FE0 : Word)].length < groupLength 3 ∧
    [(0xFFFF : Word), 0, 0] = 0xFFFF :: [0, 0] ∧
    groups.flatMap (fun g => g.words 3) ++ [0x1FE0] ++ [0xFFFF, 0, 0] =
      [0x0460, 0x0010, 0x0001, 0x0320, 0x0005, 0x0001, 0x1FE0, 0xFFFF, 0, 0] := by decide

theorem witness_DeclogOfCachedArea :
    let m := Config.fixtureParams.temperature
    let word := fun a : Word => (cached_area.cached a.toNat).getD 0
    cached_area.par.valid = true ∧
    (∀ a ∈ m.binFlags ++ m.countRegs, cached_area.cached a.toNat = some (word a)) ∧
    (∀ j < m.logLen, cached_area.cached (m.logBase.toNat + j) = some (word (BitVec.ofNat 16 (m.logBase.toNat + j)))) ∧
    flagsMode cached_area.par .temperature word 3 ∧ (3 : BitVec 2) ≠ 0 ∧
    0 < cached_area.par.sampleCount .temperature (m.countRegs.map word) := by
  refine ⟨by decide +kernel, ?_, by decide +kernel, ?_, by decide, by decide +kernel⟩
  · have h : (Config.fixtureParams.temperature.binFlags ++ Config.fixtureParams.temperature.countRegs).all
        (fun a => (cached_area.cached a.toNat).isSome) = true := by decide +kernel
    intro a ha
    obtain ⟨w, hw⟩ := Option.isSome_iff_exists.mp (List.all_eq_true.mp h a ha)
    simp only [hw, Option.getD_some]
  · have h1 : (cached_area.cached (0x31 : Word).toNat).getD 0 = 0x0001 := by decide +kernel
    have h2 : (cached_area.cached (0x34 : Word).toNat).getD 0 = 0x0002 := by decide +kernel
    refine ⟨⟨fun _ => ⟨0x31, by decide, ?_⟩, fun _ => rfl⟩, ⟨fun _ => ⟨0x34, by decide, ?_⟩, fun _ => rfl⟩⟩
    · show ((cached_area.cached (0x31 : Word).toNat).getD 0).toNat / 2 ^ 0 % 2 = 1
      rw [h1]; decide
    · show ((cached_area.cached (0x34 : Word).toNat).getD 0).toNat / 2 ^ 1 % 2 = 1
      rw [h2]; decide

theorem witness_DeclogDecodesTheCache :
    cached_area.par.valid = true ∧
    exec (.declog .temperature) cached_area = .next (after (.declog .temperature) cached_area) ∧
    (after (.declog .temperature) cached_area).res.status = .ok := ⟨by decide +kernel, exec_after _ _, by decide +kernel⟩

/-- Every band of the encoders at its bounds. -/
theorem witness_EncodeReals :
    (70 : Rat) < 70 + 1 / 64 ∧ (-30 - 1 / 64 : Rat) < -30 ∧ (0 : Rat) ≤ 0 ∧ (70 : Rat) ≤ 70 ∧ (-30 : Rat) ≤ -30 ∧
    (-30 : Rat) < 0 ∧ (-1 / 64 : Rat) < 0 ∧ (100 : Rat) < 100 + 1 / 64 ∧ (0 : Rat) ≤ 100 ∧ (100 : Rat) ≤ 100 := by
  decide +kernel

theorem witness_CodecDomain : (-1 : Rat) < 0 := by decide +kernel

/-- Every band of the decoders at its bounds. -/
theorem witness_DecodeBands :
    (2240 : Word).toNat ≤ 2240 ∧ (2240 < (2241 : Word).toNat ∧ (7231 : Word).toNat < 7232) ∧
    (7232 ≤ (7232 : Word).toNat ∧ (8191 : Word).toNat < 8192) ∧ 8192 ≤ (8192 : Word).toNat ∧ (3200 : Word).toNat ≤ 3200 ∧
    3200 < (3201 : Word).toNat := by decide

theorem witness_CodecRoundTripError :
    (-30 : Rat) ≤ 253 / 10 ∧ (253 / 10 : Rat) ≤ 70 ∧ (0 : Rat) ≤ 333 / 10 ∧ (333 / 10 : Rat) ≤ 100 ∧
    encodeHumReal (333 / 10) = some 0x042A := by decide +kernel

theorem witness_EncodeClamps : (70 : Rat) ≤ 85 ∧ (-50 : Rat) ≤ -30 ∧ (100 : Rat) ≤ 150 := by decide +kernel

end Sys2Proof.Tests
end

section
/-! PROOF of the statement about the parameters and the port, from the cases of a step. -/

namespace Sys2Proof.Machine

/-- Settles O11, by the cases of a step: it changes nothing, or the oldest request leaves the port, and what is then done
(a reset, a frame run whole, a frame cut off) keeps the parameters and the requests that wait behind it. -/
theorem stepKeepsParametersAndPort : Obligations.StepKeepsParametersAndPort := by
  intro s t h
  obtain rfl | ⟨rest, ⟨hport, rfl⟩ | ⟨-, f, ⟨hport, hrun⟩ | ⟨k, hport, hcut⟩⟩⟩ := step_cases h
  · exact ⟨rfl, .inl rfl⟩
  · exact ⟨rfl, .inr (by rw [hport, hardReset_port, State.setPort_port, List.tail_cons])⟩
  · have ran := runFrame_ran hrun
    exact ⟨ran.par, .inr (by rw [hport, ran.port, State.setPort_port, List.tail_cons])⟩
  · obtain ⟨-, -, hpar, hkept, -⟩ := abandon_cases hcut
    exact ⟨hpar, .inr (by rw [hport, hkept, State.setPort_port, List.tail_cons])⟩

end Sys2Proof.Machine
end

section
/-! PROOF of the statements about the invariant between operations: it holds after reset, and every step keeps it. -/

namespace Sys2Proof.Machine

/-! ### The state after reset -/

/-- The parameters after reset meet the spec's constraints, whatever the platform's free choice is (00_scope.md R9). -/
theorem params_valid : Config.params.valid = true := by
  unfold Config.params
  split
  · assumption
  · decide +kernel

theorem Tag.wf_blank (p : Params) (c : Option Staged) : Tag.wf p { mem := [], regs := [], pending := c } := by
  refine ⟨⟨List.Pairwise.nil, ?_⟩, ⟨List.Pairwise.nil, ?_⟩, ?_⟩ <;> exact fun _ h => nomatch h

/-- A block at its reset values meets the invariant with whatever legal parameters and canonical tag it is found
(70_reset_and_hazards.md R235, R236). -/
theorem State.inv_of_reset {s : State} (par : s.par.valid = true) (tag : s.tag.wf s.par) (eng : s.eng = Engine.reset)
    (cache : s.cache = []) (res : s.res = ResultRegs.reset) : s.Inv where
  par := par
  mem := tag.1
  regs := tag.2
  cache := by
    rw [cache]
    exact ⟨List.Pairwise.nil, fun _ h => nomatch h⟩
  dbuf := by
    rw [eng]
    exact List.length_replicate
  attempt := by
    rw [eng]
    exact Nat.zero_le 3
  idmsg := by
    rw [eng]
    exact .inl rfl
  phase := by rw [eng]; rfl
  busy := by rw [res]; rfl

/-- `simp` and not `rfl`: the elaborator would evaluate the choice of the parameters. -/
theorem reset_par : State.reset.par = Config.params := by simp only [State.reset]

theorem reset_inv : State.reset.Inv :=
  State.inv_of_reset (reset_par ▸ params_valid) (Tag.wf_blank State.reset.par none) rfl rfl rfl

/-- The words of a channel's log area lie in a log area (10_state.md R39). -/
theorem logWord_inLogArea (p : Params) (ch : Channel) {j : Nat} (h : j < (p.map ch).logLen) :
    p.inLogArea ((p.map ch).logBase.toNat + j) = true := by
  have own : (p.map ch).inLogArea ((p.map ch).logBase.toNat + j) = true := by
    simp [ChannelMap.inLogArea, h]
  unfold Params.inLogArea
  rw [Bool.or_eq_true]
  cases ch
  · exact .inl own
  · exact .inr own

/-- With nothing written, a word of a log area reads `0xFFFF` (R39). -/
theorem readReg_logArea_blank (p : Params) (ch : Channel) {j : Nat} (h : j < (p.map ch).logLen) :
    readReg p [] ((p.map ch).logBase.toNat + j) = 0xFFFF := by
  show WordMap.unlisted p _ = _
  rw [WordMap.unlisted, if_pos (logWord_inLogArea p ch h)]

/-- Settles O9: the block stands at its reset values, and the reset tag lists no register. -/
theorem resetMeetsInvariant : Obligations.ResetMeetsInvariant :=
  ⟨reset_inv, fun ch _ h => readReg_logArea_blank State.reset.par ch h⟩

/-! ### A step -/

theorem State.Inv.tag_wf {s : State} (h : s.Inv) : s.tag.wf s.par := ⟨h.mem, h.regs⟩

theorem State.Inv.setPort {s : State} (h : s.Inv) (p : List Request) : (s.setPort p).Inv :=
  ⟨h.par, h.mem, h.regs, h.cache, h.dbuf, h.attempt, h.idmsg, h.phase, h.busy⟩

/-- What keeps all that running a frame keeps, keeps the invariant. -/
theorem State.Inv.ran {s t : State} (h : s.Inv) (r : Ran s t) : t.Inv where
  par := r.par ▸ h.par
  mem := (r.tag h.tag_wf).1
  regs := (r.tag h.tag_wf).2
  cache := r.cache h.cache
  dbuf := r.dbuf h.dbuf
  attempt := r.attempt h.attempt
  idmsg := r.idmsg h.idmsg
  phase := r.phase h.phase
  busy := r.busy h.busy

theorem State.Inv.hardReset {s : State} (h : s.Inv) : (hardReset s).Inv :=
  State.inv_of_reset h.par h.tag_wf rfl rfl rfl

/-- A reset in the middle of an operation leaves the invariant: the block is at its reset values, and the tag is as the run
with no later transaction leaves it, hence canonical. -/
theorem State.Inv.abandon {s t : State} {f : Frame} {k : Nat} (h : s.Inv) (hcut : abandon f k s = .next t) : t.Inv := by
  obtain ⟨u, hrun, par, -, tag, eng, cache, -, res, -, -⟩ := abandon_cases hcut
  have ran : Ran (s.cutOff k) u := runFrame_ran hrun
  have upar : u.par = t.par := ran.par.trans par.symm
  have utag : u.tag.wf u.par := ran.tag h.tag_wf
  exact State.inv_of_reset (par ▸ h.par) (by rwa [tag, ← upar]) eng cache res

/-- Settles O10, by the cases of a step: it changes nothing, or the oldest request leaves the port and the block is reset, runs
a frame, or runs a frame until the reset that cuts it off. -/
theorem stepKeepsInvariant : Obligations.StepKeepsInvariant := by
  intro s t h hstep
  obtain rfl | ⟨rest, ⟨-, rfl⟩ | ⟨-, f, ⟨-, hrun⟩ | ⟨k, -, hcut⟩⟩⟩ := step_cases hstep
  · exact h
  · exact (h.setPort rest).hardReset
  · exact (h.setPort rest).ran (runFrame_ran hrun)
  · exact (h.setPort rest).abandon hcut

end Sys2Proof.Machine
end

section
/-! SUPPORT. A relation between states that attempts keep is kept by every operation: the induction over the retry loop, the
cache's loops and the instructions, done once. -/

namespace Sys2Proof.Machine

/-! ### Steps that stay inside the block -/

/-- The block worked on its own registers: the parameters, the tag, the environment and the bus are as before. -/
structure Inward (s t : State) : Prop where
  par : t.par = s.par
  tag : t.tag = s.tag
  env : t.env = s.env
  bus : t.bus = s.bus

theorem Inward.refl (s : State) : Inward s s := ⟨rfl, rfl, rfl, rfl⟩

theorem Inward.trans {a b c : State} (h : Inward a b) (k : Inward b c) : Inward a c :=
  ⟨k.par.trans h.par, k.tag.trans h.tag, k.env.trans h.env, k.bus.trans h.bus⟩

theorem State.setPhase_inward (s : State) (ph : Phase) : Inward s (s.setPhase ph) := ⟨rfl, rfl, rfl, rfl⟩

theorem State.setIdmsg_inward (s : State) (id : Byte) : Inward s (s.setIdmsg id) := ⟨rfl, rfl, rfl, rfl⟩

theorem State.fillDbuf_inward (s : State) (bs : List Byte) : Inward s (s.fillDbuf bs) := ⟨rfl, rfl, rfl, rfl⟩

theorem State.cacheWords_inward (s : State) (a : Nat) (ws : List Word) : Inward s (s.cacheWords a ws) := by
  obtain ⟨c, h⟩ := s.cacheWords_fields a ws
  rw [h]
  exact ⟨rfl, rfl, rfl, rfl⟩

theorem State.settleVerify_inward (s : State) (address value observed : Word) :
    Inward s (s.settleVerify address value observed) := by
  unfold State.settleVerify
  split <;> exact ⟨rfl, rfl, rfl, rfl⟩

theorem check_inward (B Lb : Word) (s : State) : Inward s (check B Lb s).state := by
  unfold check
  cases chkVerdict B Lb <;> exact ⟨rfl, rfl, rfl, rfl⟩

theorem decodeLog_inward (ch : Channel) (mode : BitVec 2) (count : Int) (words : List Word) (s : State) :
    Inward s (decodeLog ch mode count words s).state := by
  unfold decodeLog
  cases configVerdict mode count <;> exact ⟨rfl, rfl, rfl, rfl⟩

theorem domainResult_inward (v : Option OpResult) (s : State) : Inward s (domainResult v s).state := by
  cases v <;> exact Inward.refl s

theorem State.latchOp_inward (s : State) (op : AttemptOp) : Inward s (s.latchOp op) := by
  cases op <;> exact ⟨rfl, rfl, rfl, rfl⟩

theorem Res.finish_inward (r : Res (Option OpResult)) : Inward r.state r.finish :=
  ⟨r.finish_par, r.finish_tag, r.finish_env, r.finish_bus⟩

/-- Giving the host its value changes nothing outside. -/
theorem Res.andThen_ok_inward {α β : Type} (r : Res α) (f : α → State → β) :
    Inward r.state (r.andThen fun v s => .ok (f v s) s).state := by
  cases r <;> exact Inward.refl _

/-! ### Transfers -/

/-- `CHK` admits 1 to 200 words (42_transfer_retry.md R150). -/
theorem wordForm_le_of_chkVerdict {B Lb : Word} (h : chkVerdict B Lb = none) : (wordForm Lb).toNat ≤ 200 := by
  have := chkVerdict_none h
  rw [wordForm_toNat]
  omega

/-- A transfer whose operands pass the check is the retry wrapper with `Lb / 2` words latched (R152, R153). -/
theorem transferRd_passes {B Lb : Word} (h : chkVerdict B Lb = none) (s : State) :
    ∃ u, Inward s u ∧ u.eng.kind = .rd ∧ u.eng.n = wordForm Lb ∧ transferRd B Lb s = retry u := by
  refine ⟨((s.setPhase .chk).setOperands (wordForm B) (wordForm Lb)).setKind .rd, ⟨rfl, rfl, rfl, rfl⟩, rfl, rfl, ?_⟩
  unfold transferRd
  rw [check_passes h, Res.ok_andThen]

theorem transferWr_passes {B Lb : Word} (data : List Byte) (h : chkVerdict B Lb = none) (s : State) :
    ∃ u, Inward s u ∧ u.eng.kind = .wr ∧ u.eng.n = wordForm Lb ∧ transferWr B Lb data s = retry u := by
  refine ⟨(((s.setPhase .chk).setOperands (wordForm B) (wordForm Lb)).setKind .wr).fillDbuf data,
    ⟨rfl, rfl, rfl, rfl⟩, rfl, rfl, ?_⟩
  unfold transferWr
  rw [check_passes h, Res.ok_andThen]

/-! ### Relations that operations keep -/

/-- A relation of states that composes and is kept by the block's own work, by a wait, and by an attempt of each kind and size
that `E` admits. -/
structure Kept (E : Kind → Word → Prop) (R : State → State → Prop) : Prop where
  trans : ∀ {a b c}, R a b → R b c → R a c
  inward : ∀ {s t}, Inward s t → R s t
  wait : ∀ ms s, R s (waitMs ms s)
  attempt : ∀ s, E s.eng.kind s.eng.n → R s (attempt s).state

section
variable {E : Kind → Word → Prop} {R : State → State → Prop}

theorem Kept.refl (K : Kept E R) (s : State) : R s s := K.inward (Inward.refl s)

/-- Work inside the block before a piece that keeps the relation. -/
theorem Kept.after (K : Kept E R) {s t u : State} (h : R t u) (k : Inward s t) : R s u := K.trans (K.inward k) h

/-- Work inside the block behind a piece that keeps the relation. -/
theorem Kept.before (K : Kept E R) {s t u : State} (h : R s t) (k : Inward t u) : R s u := K.trans h (K.inward k)

theorem Kept.andThen {α β : Type} (K : Kept E R) {s : State} {r : Res α} {f : α → State → Res β} (h : R s r.state)
    (hf : ∀ v t, R t (f v t).state) : R s (r.andThen f).state :=
  Res.andThen_keeps (R := R) K.trans h hf

/-- The engine's command and size stand for all attempts of a retry loop (10_state.md R25). -/
theorem Kept.retryLoop (K : Kept E R) (left : Nat) (s : State) (h : E s.eng.kind s.eng.n) :
    R s (retryLoop left s).state := by
  induction left generalizing s with
  | zero =>
    have hr := K.attempt s h
    unfold Machine.retryLoop
    cases ha : Machine.attempt s with
    | ok d t => rwa [ha] at hr
    | err e t =>
      rw [ha] at hr
      dsimp only
      split
      · exact K.before hr ⟨rfl, rfl, rfl, rfl⟩
      · exact hr
  | succ left ih =>
    have hr := K.attempt s h
    have hc := attempt_carries s
    unfold Machine.retryLoop
    cases ha : Machine.attempt s with
    | ok d t => rwa [ha] at hr
    | err e t =>
      rw [ha] at hr hc
      dsimp only
      split
      · have ht : E t.eng.kind t.eng.n := hc.kind.symm ▸ hc.n.symm ▸ h
        exact K.trans hr (K.after (ih (t.reenter e) ht) ⟨rfl, rfl, rfl, rfl⟩)
      · exact hr

theorem Kept.retry (K : Kept E R) (s : State) (h : E s.eng.kind s.eng.n) : R s (retry s).state :=
  K.after (K.retryLoop _ (s.setAttempt 1) h) ⟨rfl, rfl, rfl, rfl⟩

/-- A whole operation keeps the relation if its body does. -/
theorem Kept.operate (K : Kept E R) {r : Res (Option OpResult)} {s t : State}
    (h : (.next r.finish : Host.Outcome State Fault Refusal) = .next t) (hr : R s.begin r.state) : R s t := by
  cases h
  exact K.after (K.before hr r.finish_inward) ⟨rfl, rfl, rfl, rfl⟩

/-- An operation that works inside the block keeps the relation. -/
theorem Kept.operate_inward (K : Kept E R) {r : Res (Option OpResult)} {s t : State}
    (h : (.next r.finish : Host.Outcome State Fault Refusal) = .next t) (hr : Inward s.begin r.state) : R s t :=
  K.operate h (K.inward hr)

/-- An operation that gives the host the value of a piece which keeps the relation. -/
theorem Kept.operate_value (K : Kept E R) {α : Type} {r : Res α} {f : α → State → Option OpResult} {s t : State}
    (h : (.next (r.andThen fun v s => .ok (f v s) s).finish : Host.Outcome State Fault Refusal) = .next t)
    (hr : R s.begin r.state) : R s t :=
  K.operate h (K.before hr (r.andThen_ok_inward f))

/-- A reply word that comes alone: the end of the attempt whose size is latched (assumption 16). -/
theorem Kept.replyRead (K : Kept E R) {s : State} (reply : ∀ id code u, u.eng.n = s.eng.n → R u (afterReply id code u).state)
    (id code : Byte) : R s (replyRead id code s).state :=
  K.andThen (K.after (reply id code (s.setPhase .p5) rfl) (s.setPhase_inward .p5)) fun _ t => K.refl t

/-- The operands of a well-formed attempt are admitted once latched (41_handshake.md R130). -/
theorem AttemptOp.wf_admitted (full : ∀ kind n, n.toNat ≤ 200 → E kind n) {op : AttemptOp} (h : op.wf = true) (s : State) :
    E (s.latchOp op).eng.kind (s.latchOp op).eng.n := by
  cases op with
  | rd a n =>
    simp only [AttemptOp.wf, wordCountOk, Bool.and_eq_true, decide_eq_true_eq] at h
    exact full .rd n h.2
  | wr a n data =>
    simp only [AttemptOp.wf, wordCountOk, Bool.and_eq_true, decide_eq_true_eq] at h
    exact full .wr n h.1.2

variable (K : Kept E R) (full : ∀ kind n, n.toNat ≤ 200 → E kind n)
include K full

theorem Kept.transferRd (B Lb : Word) (s : State) : R s (transferRd B Lb s).state := by
  cases h : chkVerdict B Lb with
  | some e =>
    unfold Machine.transferRd
    rw [check_fails h]
    exact K.inward (s.setPhase_inward .chk)
  | none =>
    obtain ⟨u, latched, hk, hn, pass⟩ := transferRd_passes h s
    have admitted : E u.eng.kind u.eng.n := hk ▸ hn ▸ full .rd _ (wordForm_le_of_chkVerdict h)
    rw [pass]
    exact K.after (K.retry u admitted) latched

theorem Kept.transferWr (B Lb : Word) (data : List Byte) (s : State) : R s (transferWr B Lb data s).state := by
  cases h : chkVerdict B Lb with
  | some e =>
    unfold Machine.transferWr
    rw [check_fails h]
    exact K.inward (s.setPhase_inward .chk)
  | none =>
    obtain ⟨u, latched, hk, hn, pass⟩ := transferWr_passes data h s
    have admitted : E u.eng.kind u.eng.n := hk ▸ hn ▸ full .wr _ (wordForm_le_of_chkVerdict h)
    rw [pass]
    exact K.after (K.retry u admitted) latched

theorem Kept.getWord (address : Word) (s : State) : R s (getWord address s).state := by
  unfold Machine.getWord
  split
  · cases s.cached address.toNat with
    | some w => exact K.refl s
    | none => exact K.andThen (K.transferRd full _ _ s) fun _ t => K.inward ⟨rfl, rfl, rfl, rfl⟩
  · exact K.refl s

theorem Kept.setWord (address value : Word) (s : State) : R s (setWord address value s).state := by
  unfold Machine.setWord
  split
  · refine K.andThen (K.transferWr full _ _ _ s) fun _ t => ?_
    refine K.andThen (K.trans (K.wait _ t) (K.transferRd full _ _ _)) fun _ u => ?_
    exact K.inward (u.settleVerify_inward _ _ _)
  · exact K.refl s

theorem Kept.prefetchFrom (turns start : Nat) (s : State) : R s (prefetchFrom turns start s).state := by
  induction turns generalizing start s with
  | zero => exact K.refl s
  | succ turns ih =>
    unfold Machine.prefetchFrom
    split
    · exact K.andThen (K.transferRd full _ _ s) fun _ t => K.after (ih _ _) (t.cacheWords_inward _ _)
    · exact K.refl s

theorem Kept.getWords (as : List Word) (s : State) : R s (getWords as s).state := by
  induction as generalizing s with
  | nil => exact K.refl s
  | cons a as ih =>
    exact K.andThen (K.getWord full a s) fun _ t => K.andThen (ih t) fun _ u => K.refl u

theorem Kept.decodeArea (ch : Channel) (s : State) : R s (decodeArea ch s).state := by
  refine K.andThen (K.getWords full _ s) fun _ t => ?_
  refine K.andThen (K.getWords full _ t) fun _ u => ?_
  dsimp only
  split
  · exact K.refl u
  · exact K.andThen (K.getWords full _ u) fun _ v => K.inward (decodeLog_inward _ _ _ _ v)

/-- What attempts of 200 words and less keep, every well-formed instruction keeps, if the end of an attempt of the size that is
latched keeps it. -/
theorem Kept.exec {i : Instr} {s t : State} (reply : ∀ id code u, u.eng.n = s.eng.n → R u (afterReply id code u).state)
    (hwf : i.wf = true) (h : exec i s = .next t) : R s t := by
  cases i with
  | nop =>
    cases h
    exact K.inward ⟨rfl, rfl, rfl, rfl⟩
  | xferRd B Lb => exact K.operate_value h (K.transferRd full B Lb _)
  | xferWr B Lb data => exact K.operate_value h (K.transferWr full B Lb data _)
  | get address => exact K.operate_value h (K.getWord full address _)
  | set address value => exact K.operate_value h (K.setWord full address value _)
  | prefetch => exact K.operate_value h (K.prefetchFrom full _ _ _)
  | creset => exact K.operate_inward h ⟨rfl, rfl, rfl, rfl⟩
  | declog ch => exact K.operate_value h (K.decodeArea full ch _)
  | dec ch mode count words => exact K.operate_value h (K.inward (decodeLog_inward ch mode count words _))
  | encT value => exact K.operate_inward h (domainResult_inward _ _)
  | encH value => exact K.operate_inward h (domainResult_inward _ _)
  | decT raw => exact K.operate_inward h (Inward.refl _)
  | decH raw => exact K.operate_inward h (Inward.refl _)
  | validT value => exact K.operate_inward h (domainResult_inward _ _)
  | validH value => exact K.operate_inward h (domainResult_inward _ _)
  | hsRd id a n =>
    exact K.operate_value h
      (K.after (K.attempt _ (AttemptOp.wf_admitted full (op := .rd a n) hwf _)) (s.begin.latchOp_inward (.rd a n)))
  | hsWr id a n data =>
    exact K.operate_value h
      (K.after (K.attempt _ (AttemptOp.wf_admitted full (op := .wr a n data) hwf _))
        (s.begin.latchOp_inward (.wr a n data)))
  | rplAck id => exact K.operate h (K.replyRead (s := s.begin) reply id ackCode)
  | rplNack id => exact K.operate h (K.replyRead (s := s.begin) reply id nackCode)
  | chk B Lb => exact K.operate_value h (K.inward (check_inward B Lb _))
  | retry op =>
    exact K.operate_value h (K.after (K.retry _ (AttemptOp.wf_admitted full hwf _)) (State.latchOp_inward _ op))
  | mode time sample => exact K.operate_inward h ⟨rfl, rfl, rfl, rfl⟩

end

end Sys2Proof.Machine
end

section
/-! PROOF of the statement about the bank traffic of every instruction. -/

namespace Sys2Proof.Machine

/-- The parameters stand, and only bus events the handshake allows have been added (20_memory.md R63). -/
def HandshakeTraffic (s t : State) : Prop :=
  t.par = s.par ∧ ∃ events, t.bus = events ++ s.bus ∧ ∀ e ∈ events, e.allowed s.par

theorem HandshakeTraffic.trans {a b c : State} (h : HandshakeTraffic a b) (k : HandshakeTraffic b c) :
    HandshakeTraffic a c := by
  obtain ⟨hp, x, hx, hxa⟩ := h
  obtain ⟨kp, y, hy, hya⟩ := k
  refine ⟨kp.trans hp, y ++ x, by rw [hy, hx, List.append_assoc], fun e he => ?_⟩
  obtain he | he := List.mem_append.mp he
  · exact hp ▸ hya e he
  · exact hxa e he

theorem Carries.handshakeTraffic {j k : Nat} {s t : State} (h : Carries j k s t) (hn : s.eng.n.toNat ≤ 200) :
    HandshakeTraffic s t := by
  obtain ⟨events, hb, -, ha⟩ := h.bus
  exact ⟨h.par, events, hb, ha hn⟩

theorem handshakeTraffic_kept : Kept (fun _ n => n.toNat ≤ 200) HandshakeTraffic where
  trans := HandshakeTraffic.trans
  inward h := ⟨h.par, [], h.bus, fun _ he => absurd he List.not_mem_nil⟩
  wait ms s := ⟨rfl, [.wait ms], rfl, fun e he => by rw [List.mem_singleton.mp he]; trivial⟩
  attempt s hn := (attempt_carries s).handshakeTraffic hn

/-- Settles O13: an attempt of at most 200 words makes allowed traffic only, and every other operation is made of such
attempts, of waits and of work inside the block. -/
theorem bankTrafficIsTheHandshakes : Obligations.BankTrafficIsTheHandshakes := by
  intro i s t hwf hn h
  have reply : ∀ id code u, u.eng.n = s.eng.n → HandshakeTraffic u (afterReply id code u).state := fun id code u hu =>
    (afterReply_carries id code u).handshakeTraffic (hu ▸ hn)
  exact (handshakeTraffic_kept.exec (fun _ _ hn => hn) reply hwf h).2

end Sys2Proof.Machine
end

section
/-! PROOF of the statement about the command the firmware fetches. -/

namespace Sys2Proof.Machine

variable {p : Params}

/-- The parameter slot holds the block the engine staged (30_encoding.md R85). -/
theorem mailbox_staged_paramBlock (hp : p.valid = true) (t : Tag) (id cmd : Byte) (a n : Word) :
    (t.staged p (paramOffset p) (paramBlock id cmd a n)).mailbox p (paramOffset p) 6 = paramBlock id cmd a n := by
  have hf := Params.valid_fits hp
  have key := mailbox_staged_same (p := p) t (paramOffset p) (bytes := paramBlock id cmd a n) (by
    rw [paramBlock_length, paramOffset_toNat]
    omega)
  rwa [paramBlock_length] at key

/-- Staging up to 400 bytes of data leaves the parameter slot as it is (20_memory.md R56). -/
theorem mailbox_param_staged_data (hp : p.valid = true) (t : Tag) {data : List Byte} (hd : data.length ≤ 400) :
    (t.staged p (dataOffset p) data).mailbox p (paramOffset p) 6 = t.mailbox p (paramOffset p) 6 := by
  have hf := Params.valid_fits hp
  have ho := dataOffset_toNat hp
  have hs := paramOffset_toNat p
  exact mailbox_staged_disjoint t (by omega) (by omega) (.inl (by omega))

/-- The data slot holds the data the engine staged. -/
theorem mailbox_staged_data (hp : p.valid = true) (t : Tag) {data : List Byte} (hd : data.length ≤ 400) :
    (t.staged p (dataOffset p) data).mailbox p (dataOffset p) data.length = data := by
  have hf := Params.valid_fits hp
  have ho := dataOffset_toNat hp
  exact mailbox_staged_same t _ (by omega)

/-- The trigger read puts in flight what the parameter slot and the data slot hold (R66 a, R71). -/
theorem pending_trigger_of_block {t : Tag} {id cmd : Byte} {a n : Word}
    (h : t.mailbox p (paramOffset p) 6 = paramBlock id cmd a n) (hn : n.toNat ≤ 200) :
    (t.trigger p).pending =
      some { cmd := cmd, a := a, n := n, data := t.mailbox p (dataOffset p) (2 * n.toNat) } :=
  congrArg some (stagedCommand_of_block h hn)

/-- Settles O25: the parameter block is read back as staged, past the data a WRITE stages after it, and so are the data. -/
theorem firmwareFetchesStagedCommand : Obligations.FirmwareFetchesStagedCommand := by
  intro p t a n data hp hn hd
  have hl : data.length ≤ 400 := by omega
  refine ⟨⟨_, pending_trigger_of_block (mailbox_staged_paramBlock hp _ _ _ a n) hn⟩, ?_⟩
  have block := (mailbox_param_staged_data hp (t.staged p (paramOffset p)
    (paramBlock (t.nextId p) p.cmdWrite a n)) hl).trans (mailbox_staged_paramBlock hp t _ _ a n)
  have fetched := mailbox_staged_data hp (t.staged p (paramOffset p) (paramBlock (t.nextId p) p.cmdWrite a n)) hl
  rw [hd] at fetched
  exact (pending_trigger_of_block block hn).trans (by rw [fetched])

end Sys2Proof.Machine
end

section
/-! SUPPORT. The events a run takes, and what of bank memory the firmware and the engine leave alone. -/

namespace Sys2Proof.Machine

/-! ### The events a run takes -/

/-- A run that took the next `k` events of the environment, one for each transport call it made. -/
structure Took (k : Nat) (s t : State) : Prop where
  taken : t.env.taken = s.env.taken + k
  calls : busCalls t.bus = busCalls s.bus + k
  coming : ∀ j, t.eventAt j = s.eventAt (k + j)

theorem Inward.took {s t : State} (h : Inward s t) : Took 0 s t where
  taken := by rw [h.env, Nat.add_zero]
  calls := by rw [h.bus, Nat.add_zero]
  coming j := by unfold State.eventAt; rw [h.env, Nat.zero_add]

theorem Took.trans {j k : Nat} {a b c : State} (h : Took j a b) (g : Took k b c) : Took (j + k) a c where
  taken := by rw [g.taken, h.taken, Nat.add_assoc]
  calls := by rw [g.calls, h.calls, Nat.add_assoc]
  coming i := by rw [g.coming, h.coming, Nat.add_assoc]

theorem waitMs_took (ms : Nat) (s : State) : Took 0 s (waitMs ms s) := ⟨rfl, rfl, fun j => by rw [Nat.zero_add]; rfl⟩

theorem State.event_eq_eventAt (s : State) : s.event = s.eventAt 0 := by
  unfold State.event State.eventAt
  cases s.env.script <;> rfl

theorem State.eventAt_transact (s : State) (j : Nat) : s.transact.eventAt j = s.eventAt (1 + j) := by
  simp only [State.eventAt, State.transact_env]
  cases h : s.env.script with
  | nil => simp only [List.tail_nil, List.getD_nil, Nat.add_assoc]
  | cons e rest => rw [List.tail_cons, Nat.add_comm 1 j, List.getD_cons_succ, Nat.add_assoc, Nat.add_comm 1 j]

/-- A transport call takes the next event. -/
theorem took_call {s t : State} {e : BusEvent} (henv : t.env = s.transact.env) (hbus : t.bus = e :: s.bus)
    (hcall : e.isCall = true) : Took 1 s t where
  taken := by rw [henv]; rfl
  calls := by
    rw [hbus]
    simp only [busCalls, List.filter_cons, hcall, if_true, List.length_cons]
  coming j := by
    rw [← State.eventAt_transact]
    unfold State.eventAt
    rw [henv]

/-- The events a script covers are the script's. -/
theorem State.eventAt_mem {s : State} {j : Nat} (h : j < s.env.script.length) : s.eventAt j ∈ s.env.script := by
  unfold State.eventAt
  rw [List.getD_eq_getElem _ _ h]
  exact List.getElem_mem h

/-! ### The commands the firmware may serve -/

variable {p : Params} {m addr : Nat}

/-- A command whose answer puts at most `m` words into the data slot. -/
def Staged.ServesAtMost (p : Params) (m : Nat) (c : Staged) : Prop := c.cmd = p.cmdRead → min c.n.toNat 200 ≤ m

/-- The command in flight, if any, and, of an armed tag, the command staged in the mailbox, serve at most `m` words. -/
def Tag.Bounded (p : Params) (m : Nat) (armed : Bool) (t : Tag) : Prop :=
  (∀ c, t.pending = some c → c.ServesAtMost p m) ∧ (armed = true → (stagedCommand p t.mem).ServesAtMost p m)

theorem Tag.Bounded.disarm {armed : Bool} {t : Tag} (h : t.Bounded p m armed) : t.Bounded p m false := ⟨h.1, nofun⟩

/-- The two command codes differ (00_scope.md R9). -/
theorem Params.valid_codes (h : p.valid = true) : p.cmdRead ≠ p.cmdWrite := by
  unfold Params.valid at h
  simp only [Bool.and_eq_true, bne_iff_ne] at h
  exact h.1.1.1.2

/-- No READ serves more than 200 words (20_memory.md R57). -/
theorem Staged.servesAtMost_of_full (hm : 200 ≤ m) (c : Staged) : c.ServesAtMost p m := fun _ =>
  (Nat.min_le_right _ _).trans hm

/-- An address of the parameter slot. -/
def paramAddr (p : Params) (k : Nat) : Nat := bankAddr p.miBank (paramOffset p) + k

/-- What the staged command serves is read from the parameter slot alone. -/
theorem stagedCommand_servesAtMost_congr (hp : p.valid = true) {mem mem' : Memory}
    (h : ∀ k < 6, readByte mem' (paramAddr p k) = readByte mem (paramAddr p k))
    (hs : (stagedCommand p mem).ServesAtMost p m) : (stagedCommand p mem').ServesAtMost p m := by
  have hf := Params.valid_fits hp
  have ho := paramOffset_toNat p
  have slot : readBytes mem' p.miBank (paramOffset p) 6 = readBytes mem p.miBank (paramOffset p) 6 :=
    readBytes_congr (by omega) h
  unfold Staged.ServesAtMost stagedCommand at hs ⊢
  dsimp only at hs ⊢
  rwa [slot]

/-- A parameter block of a READ of at most `m` words, or of a WRITE, stages a command that serves at most `m`. -/
theorem stagedCommand_servesAtMost_of_block (hp : p.valid = true) {mem : Memory} {id : Byte} {kind : Kind} {a n : Word}
    (h : readBytes mem p.miBank (paramOffset p) 6 = paramBlock id (cmdCode p kind) a n) (hn : n.toNat ≤ 200)
    (hm : kind = .rd → n.toNat ≤ m) : (stagedCommand p mem).ServesAtMost p m := by
  rw [stagedCommand_of_block h hn]
  intro hc
  cases kind with
  | rd => exact (Nat.min_le_left _ _).trans (hm rfl)
  | wr => exact absurd hc.symm (Params.valid_codes hp)

/-! ### What the firmware's actions leave alone -/

/-- An action that does not reach the byte at `addr` as long as the commands served have at most `m` words. With a bound below
the largest READ's it does not poke the parameter slot either, so that the staged command stays bounded. -/
def ActionSpares (p : Params) (m addr : Nat) : TagAction → Prop
  | .poke bank offset _ => bankAddr bank offset ≠ addr ∧ (m < 200 → ∀ k < 6, bankAddr bank offset ≠ paramAddr p k)
  | .setReg _ _ => True
  | .run _ _ => outsideAnswers p m addr

theorem Tag.answer_outside (hp : p.valid = true) {t : Tag} (h : t.Bounded p m false) (ha : outsideAnswers p m addr)
    (id code : Byte) : readByte (t.answer p id code).mem addr = readByte t.mem addr := by
  have hf := Params.valid_fits hp
  have hr := replyOffset_toNat hp
  have hd := dataOffset_toNat hp
  obtain ⟨reply, data⟩ := ha
  unfold Tag.answer
  cases hc : t.pending with
  | none => rfl
  | some c =>
    dsimp only
    rw [readByte_writeBytes_outside (bs := [id, code]) (by simp only [List.length_cons, List.length_nil]; omega) reply]
    split
    · rename_i served
      have hm : min c.n.toNat 200 ≤ m := h.1 c hc served.2
      refine readByte_writeBytes_outside ?_ fun k hk => data k ?_
      · rw [bytesOf_length, readRegs_length]
        omega
      · rw [bytesOf_length, readRegs_length] at hk
        omega
    · rfl

theorem paramAddr_outsideAnswers (hp : p.valid = true) {k : Nat} (hk : k < 6) : outsideAnswers p m (paramAddr p k) := by
  have hf := Params.valid_fits hp
  have hr := replyOffset_toNat hp
  have hd := dataOffset_toNat hp
  have ho := paramOffset_toNat p
  constructor <;> intro j _ <;> simp only [paramAddr, bankAddr] <;> omega

theorem Tag.act_readByte (hp : p.valid = true) {t : Tag} (h : t.Bounded p m false) {act : TagAction}
    (ha : ActionSpares p m addr act) : readByte (t.act p act).mem addr = readByte t.mem addr := by
  cases act with
  | poke bank offset value => exact readByte_writeByte_other _ ha.1.symm _
  | setReg address value => rfl
  | run id code => exact Tag.answer_outside hp h ha id code

/-- After an answer no command is in flight (20_memory.md R66). -/
theorem Tag.answer_pending (t : Tag) (id code : Byte) : (t.answer p id code).pending = none := by
  unfold Tag.answer
  cases h : t.pending with
  | none => exact h
  | some c => rfl

/-- The firmware puts no command in flight by itself. -/
theorem Tag.act_pending {t : Tag} {act : TagAction} {c : Staged} (h : (t.act p act).pending = some c) :
    t.pending = some c := by
  cases act with
  | poke bank offset value => exact h
  | setReg address value => exact h
  | run id code => exact nomatch (t.answer_pending id code).symm.trans h

theorem ActionSpares.paramSlot (hp : p.valid = true) (hm : m < 200) {act : TagAction} (h : ActionSpares p m addr act)
    {k : Nat} (hk : k < 6) : ActionSpares p m (paramAddr p k) act := by
  cases act with
  | poke bank offset value => exact ⟨h.2 hm k hk, h.2⟩
  | setReg address value => trivial
  | run id code => exact paramAddr_outsideAnswers hp hk

theorem Tag.act_bounded (hp : p.valid = true) {armed : Bool} {t : Tag} (h : t.Bounded p m armed) {act : TagAction}
    (ha : ActionSpares p m addr act) : (t.act p act).Bounded p m armed := by
  refine ⟨fun c hc => h.1 c (Tag.act_pending hc), fun harm => ?_⟩
  by_cases hm : m < 200
  · exact stagedCommand_servesAtMost_congr hp (fun k hk => Tag.act_readByte hp h.disarm (ha.paramSlot hp hm hk))
      (h.2 harm)
  · exact Staged.servesAtMost_of_full (Nat.le_of_not_lt hm) _

theorem Tag.acts_spare (hp : p.valid = true) {armed : Bool} {t : Tag} (h : t.Bounded p m armed) {acts : List TagAction}
    (ha : ∀ act ∈ acts, ActionSpares p m addr act) :
    readByte (t.acts p acts).mem addr = readByte t.mem addr ∧ (t.acts p acts).Bounded p m armed := by
  induction acts generalizing t with
  | nil => exact ⟨rfl, h⟩
  | cons act acts ih =>
    have first := ha act List.mem_cons_self
    obtain ⟨hb, ht⟩ := ih (Tag.act_bounded hp h first) fun x hx => ha x (List.mem_cons_of_mem _ hx)
    exact ⟨hb.trans (Tag.act_readByte hp h.disarm first), ht⟩

/-! ### What a run leaves alone -/

/-- A run that leaves the byte at `addr` as it is and keeps the bound on what the firmware may serve, provided the firmware's
actions in the events it takes spare that byte. `armed` and `armed'` say whether the mailbox stages a bounded command before
and after. -/
def Spared (p : Params) (m addr : Nat) (armed armed' : Bool) (s t : State) : Prop :=
  t.par = s.par ∧ ∃ k, Took k s t ∧
    (s.par = p → (∀ j < k, ∀ act ∈ (s.eventAt j).tag, ActionSpares p m addr act) → s.tag.Bounded p m armed →
      readByte t.tag.mem addr = readByte s.tag.mem addr ∧ t.tag.Bounded p m armed')

theorem Spared.trans {i j k : Bool} {a b c : State} (h : Spared p m addr i j a b) (g : Spared p m addr j k b c) :
    Spared p m addr i k a c := by
  obtain ⟨hp, x, hx, hs⟩ := h
  obtain ⟨gp, y, gx, gs⟩ := g
  refine ⟨gp.trans hp, x + y, hx.trans gx, fun par acts bound => ?_⟩
  obtain ⟨byte, bound⟩ := hs par (fun l hl => acts l (by omega)) bound
  obtain ⟨byte', bound⟩ := gs (hp.trans par) (fun l hl => hx.coming l ▸ acts (x + l) (by omega)) bound
  exact ⟨byte'.trans byte, bound⟩

theorem Inward.spared {s t : State} (h : Inward s t) (armed : Bool) : Spared p m addr armed armed s t :=
  ⟨h.par, 0, h.took, fun _ _ bound => by rw [h.tag]; exact ⟨rfl, bound⟩⟩

theorem waitMs_spared (armed : Bool) (ms : Nat) (s : State) : Spared p m addr armed armed s (waitMs ms s) :=
  ⟨rfl, 0, waitMs_took ms s, fun _ _ bound => ⟨rfl, bound⟩⟩

theorem Spared.disarm {i j : Bool} {s t : State} (h : Spared p m addr i j s t) : Spared p m addr i false s t := by
  obtain ⟨hp, k, hk, hs⟩ := h
  exact ⟨hp, k, hk, fun par acts bound => (hs par acts bound).imp_right Tag.Bounded.disarm⟩

/-- A transport call spares the byte if what it does to the tag after the firmware's actions does. -/
theorem Spared.call (hp : p.valid = true) {i j : Bool} {s t : State} {e : BusEvent} (hpar : t.par = s.par)
    (henv : t.env = s.transact.env) (hbus : t.bus = e :: s.bus) (hcall : e.isCall = true)
    (htag : s.par = p → s.transact.tag.Bounded p m i →
      readByte t.tag.mem addr = readByte s.transact.tag.mem addr ∧ t.tag.Bounded p m j) :
    Spared p m addr i j s t := by
  refine ⟨hpar, 1, took_call henv hbus hcall, fun par acts bound => ?_⟩
  subst par
  have firmware := acts 0 Nat.zero_lt_one
  rw [← State.event_eq_eventAt] at firmware
  obtain ⟨byte, bound⟩ := Tag.acts_spare hp bound firmware
  obtain ⟨byte', bound⟩ := htag rfl bound
  exact ⟨byte'.trans byte, bound⟩

/-! ### The primitives -/

/-- A piece of an operation that spares the byte: `armed'` is asked for where it goes on, not where it fails. -/
def Res.Spares {α : Type} (p : Params) (m addr : Nat) (armed armed' : Bool) (s : State) : Res α → Prop
  | .ok _ t => Spared p m addr armed armed' s t
  | .err _ t => Spared p m addr armed false s t

theorem Res.Spares.state {α : Type} {i j : Bool} {s : State} {r : Res α} (h : r.Spares p m addr i j s) :
    Spared p m addr i false s r.state := by
  cases r with
  | ok v t => exact Spared.disarm h
  | err e t => exact h

theorem Spared.spares {α : Type} {i j k : Bool} {s t : State} {r : Res α} (h : Spared p m addr i j s t)
    (hr : r.Spares p m addr j k t) : r.Spares p m addr i k s := by
  cases r with
  | ok v u => exact Spared.trans h hr
  | err e u => exact Spared.trans h hr

theorem Res.Spares.andThen {α β : Type} {i j k : Bool} {s : State} {r : Res α} {f : α → State → Res β}
    (h : r.Spares p m addr i j s) (hf : ∀ v t, r = .ok v t → (f v t).Spares p m addr j k t) :
    (r.andThen f).Spares p m addr i k s := by
  cases r with
  | ok v t => exact Spared.spares h (hf v t rfl)
  | err e t => exact h

/-- A sequence whose first part leaves the engine's command and size to the second. -/
theorem Res.Spares.andThen_latched {α β : Type} {i j k : Bool} {l : Nat} {s : State} {r : Res α}
    {f : α → State → Res β} (h : r.Spares p m addr i j s) (hc : Carries 0 l s r.state)
    (hf : ∀ v t, t.eng.kind = s.eng.kind → t.eng.n = s.eng.n → (f v t).Spares p m addr j k t) :
    (r.andThen f).Spares p m addr i k s :=
  h.andThen fun v t hr => by
    rw [hr] at hc
    exact hf v t hc.kind hc.n

/-- A piece of which the block keeps the value for itself. -/
theorem Res.Spares.andThen_ok {α β : Type} {i j : Bool} {s : State} {r : Res α} {f : α → State → β}
    {g : State → α → State} (h : r.Spares p m addr i j s) (hg : ∀ t v, Inward t (g t v)) :
    (r.andThen fun v t => .ok (f v t) (g t v)).Spares p m addr i j s :=
  h.andThen fun v t _ => (hg t v).spared j

theorem Res.Spares.after {α : Type} {i j : Bool} {s t : State} {r : Res α} (h : r.Spares p m addr i j t)
    (k : Inward s t) : r.Spares p m addr i j s := (k.spared i).spares h

/-- An attempt of this kind and size that writes elsewhere and stages a command that serves at most `m` words. -/
def AttemptSpares (p : Params) (m addr : Nat) (kind : Kind) (n : Word) : Prop :=
  outsideWrites p kind n addr ∧ n.toNat ≤ 200 ∧ (kind = .rd → n.toNat ≤ m)

section
variable (hp : p.valid = true)
include hp

theorem memRead_spares (armed : Bool) (bank : Byte) (offset : Word) (len : Nat) (s : State) :
    (memRead bank offset len s).Spares p m addr armed armed s := by
  have call : ∀ r, Spared p m addr armed armed s (s.transact.emit (.read bank offset len r)) := fun r =>
    Spared.call hp rfl rfl rfl rfl fun _ bound => ⟨rfl, bound⟩
  obtain ⟨-, h⟩ | ⟨-, h⟩ := memRead_ends bank offset len s <;> rw [h]
  · exact call _
  · exact (call _).disarm

/-- A write that spares the byte whatever part of it is done; done in full, it leaves the tag armed or not. -/
theorem memWrite_spares {i j : Bool} {bank : Byte} {offset : Word} {bytes : List Byte} {s : State}
    (byte : s.par = p → ∀ mem, ∀ l : List Byte, l.length ≤ bytes.length →
      readByte (writeBytes mem bank offset l) addr = readByte mem addr)
    (armed : s.par = p → ∀ t : Tag, t.Bounded p m i → j = true →
      (stagedCommand p (writeBytes t.mem bank offset bytes)).ServesAtMost p m) :
    (memWrite bank offset bytes s).Spares p m addr i j s := by
  unfold memWrite
  cases s.event.ok
  · exact Spared.call hp rfl rfl rfl rfl fun par bound => ⟨byte par _ _ (List.length_take_le _ _), bound.1, nofun⟩
  · exact Spared.call hp rfl rfl rfl rfl fun par bound => ⟨byte par _ _ (Nat.le_refl _), bound.1, armed par _ bound⟩

/-- The trigger puts the staged command in flight, which an armed tag bounds. -/
theorem triggerRead_spares (s : State) : (triggerRead s).Spares p m addr true false s := by
  have untaken : ∀ e : BusEvent, e.isCall = true → Spared p m addr true false s (s.transact.emit e) := fun e he =>
    Spared.call hp rfl rfl rfl he fun _ bound => ⟨rfl, bound.disarm⟩
  have taken : ∀ e : BusEvent, e.isCall = true →
      Spared p m addr true false s ((s.transact.setTag (s.transact.tag.trigger s.par)).emit e) := fun e he =>
    Spared.call hp rfl rfl rfl he fun par bound => ⟨rfl, fun c hc => by
      rw [par] at hc
      exact Option.some.inj hc ▸ bound.2 rfl, nofun⟩
  unfold triggerRead
  cases s.event.ok <;> cases s.event.reached
  · exact untaken _ rfl
  · exact taken _ rfl
  · exact taken _ rfl
  · exact taken _ rfl

/-! ### The phases and the attempt -/

theorem phaseP1_spares (s : State) : (phaseP1 s).Spares p m addr false false s :=
  ((memRead_spares hp false _ _ _ (s.setPhase .p1)).andThen_ok fun t _ => t.setIdmsg_inward _).after
    (s.setPhase_inward .p1)

/-- P2 writes the parameter slot, which then stages the attempt's command. -/
theorem phaseP2_spares {s : State} (h : AttemptSpares p m addr s.eng.kind s.eng.n) :
    (phaseP2 s).Spares p m addr false true s := by
  obtain ⟨⟨slot, -⟩, hn, hm⟩ := h
  have hf := Params.valid_fits hp
  have ho := paramOffset_toNat p
  have hl : (s.setPhase .p2).stagedBlock.length = 6 := paramBlock_length _ _ _ _
  refine Res.Spares.after (memWrite_spares hp ?_ ?_) (s.setPhase_inward .p2)
  · intro par mem l hlen
    have par : s.par = p := par
    rw [State.setPhase_par, par]
    exact readByte_writeBytes_outside (by omega) fun k hk => slot k (by omega)
  · intro par t _ _
    have par : s.par = p := par
    refine stagedCommand_servesAtMost_of_block hp ?_ hn hm (id := s.eng.idmsg) (a := s.eng.a)
    have block : (s.setPhase .p2).stagedBlock = paramBlock s.eng.idmsg (cmdCode p s.eng.kind) s.eng.a s.eng.n := by
      rw [← par]
      rfl
    rw [State.setPhase_par, par, block]
    exact mailbox_staged_paramBlock hp t _ _ _ _

/-- P2B writes `2n` bytes of the data slot and leaves the staged command as it is. -/
theorem phaseP2B_spares {s : State} (h : AttemptSpares p m addr s.eng.kind s.eng.n) :
    (phaseP2B s).Spares p m addr true true s := by
  obtain ⟨⟨-, data⟩, hn, -⟩ := h
  have hf := Params.valid_fits hp
  have ho := dataOffset_toNat hp
  unfold phaseP2B
  cases hk : s.eng.kind with
  | rd => exact (Inward.refl s).spared true
  | wr =>
    have hl : ((s.setPhase .p2b).eng.dbuf.take (byteCount (s.setPhase .p2b).eng.n)).length ≤ byteCount s.eng.n :=
      List.length_take_le _ _
    have hb : byteCount s.eng.n ≤ 400 := by
      unfold byteCount
      omega
    refine Res.Spares.after (memWrite_spares hp ?_ ?_) (s.setPhase_inward .p2b)
    · intro par mem l hlen
      have par : s.par = p := par
      rw [State.setPhase_par, par]
      exact readByte_writeBytes_outside (by omega) fun k hk' => data hk k (by omega)
    · intro par t bound _
      have par : s.par = p := par
      rw [State.setPhase_par, par]
      refine stagedCommand_servesAtMost_congr hp (fun k hk => readByte_writeBytes_outside (by omega) ?_) (bound.2 rfl)
      intro j _
      simp only [paramAddr, bankAddr, ho, paramOffset_toNat]
      omega

theorem phaseP3_spares (s : State) : (phaseP3 s).Spares p m addr true false s :=
  ((triggerRead_spares hp (s.setPhase .p3)).andThen_ok fun t _ => Inward.refl t).after (s.setPhase_inward .p3)

omit hp in
theorem phaseP4_spares (s : State) : (phaseP4 s).Spares p m addr false false s :=
  Res.Spares.after (r := phaseP4 s) (waitMs_spared false _ (s.setPhase .p4)) (s.setPhase_inward .p4)

theorem phaseP6_spares (s : State) : (phaseP6 s).Spares p m addr false false s := by
  unfold phaseP6
  cases s.eng.kind with
  | wr => exact (Inward.refl s).spared false
  | rd =>
    exact ((memRead_spares hp false _ _ _ (s.setPhase .p6)).andThen_ok fun t _ => t.fillDbuf_inward _).after
      (s.setPhase_inward .p6)

theorem afterReply_spares (id code : Byte) (s : State) : (afterReply id code s).Spares p m addr false false s := by
  unfold afterReply
  cases replyVerdict s.eng.idmsg id code with
  | some e => exact (Inward.refl s).spared false
  | none => exact phaseP6_spares hp s

theorem phaseP5_spares (s : State) : (phaseP5 s).Spares p m addr false false s :=
  ((memRead_spares hp false _ _ _ (s.setPhase .p5)).andThen fun _ t _ => afterReply_spares hp _ _ t).after
    (s.setPhase_inward .p5)

/-- An attempt spares a byte it does not write itself (20_memory.md R63, R66). -/
theorem attempt_spared {s : State} (h : AttemptSpares p m addr s.eng.kind s.eng.n) :
    Spared p m addr false false s (attempt s).state := by
  unfold attempt
  rw [Res.inState_state]
  refine Spared.trans (Res.Spares.state (j := false) ?_) ((State.setPhase_inward _ .idle).spared false)
  refine (phaseP1_spares hp s).andThen_latched (phaseP1_carries s) fun _ t k1 n1 => ?_
  rw [← k1, ← n1] at h
  refine (phaseP2_spares hp h).andThen_latched (phaseP2_carries t) fun _ t k2 n2 => ?_
  rw [← k2, ← n2] at h
  refine (phaseP2B_spares hp h).andThen fun _ t _ => ?_
  refine (phaseP3_spares hp t).andThen fun _ t _ => ?_
  exact (phaseP4_spares t).andThen fun _ t _ => phaseP5_spares hp t

theorem spared_kept : Kept (AttemptSpares p m addr) (Spared p m addr false false) where
  trans := Spared.trans
  inward h := h.spared false
  wait ms s := waitMs_spared false ms s
  attempt _ h := attempt_spared hp h

end

end Sys2Proof.Machine
end

section
/-! PROOF of the statements about bank memory: no instruction writes outside the mailbox, and a transfer writes its own slots
only. -/

namespace Sys2Proof.Machine

variable {p : Params} {m addr : Nat}

/-- A byte outside the mailbox lies outside what attempts of at most 200 words write (20_memory.md R56). -/
theorem outsideWrites_of_outsideMailbox (hp : p.valid = true) (h : ∀ k < 408, addr ≠ bankAddr p.miBank p.miBase + k)
    (kind : Kind) {n : Word} (hn : n.toNat ≤ 200) : outsideWrites p kind n addr := by
  have hd := dataOffset_toNat hp
  constructor
  · exact fun k hk => h k (by omega)
  · intro _ k hk
    have := h (8 + k) (by unfold byteCount at hk; omega)
    simp only [bankAddr] at *
    omega

/-- A byte outside the mailbox lies outside what the firmware writes in answering. -/
theorem outsideAnswers_of_outsideMailbox (hp : p.valid = true) (h : ∀ k < 408, addr ≠ bankAddr p.miBank p.miBase + k) :
    outsideAnswers p 200 addr := by
  have hr := replyOffset_toNat hp
  have hd := dataOffset_toNat hp
  constructor
  · intro k hk
    have := h (6 + k) (by omega)
    simp only [bankAddr] at *
    omega
  · intro k hk
    have := h (8 + k) (by omega)
    simp only [bankAddr] at *
    omega

/-- Any tag is bounded by the largest READ. -/
theorem Tag.bounded_full (t : Tag) : t.Bounded p 200 false := ⟨fun c _ => c.servesAtMost_of_full (Nat.le_refl 200), nofun⟩

/-- What a run whose events the script covers leaves alone: it is enough that the actions in the script spare the byte. -/
theorem Spared.readByte {s t : State} (h : Spared p m addr false false s t) (par : s.par = p)
    (covered : t.env.taken ≤ s.env.taken + s.env.script.length)
    (acts : ∀ e ∈ s.env.script, ∀ act ∈ e.tag, ActionSpares p m addr act) (bound : s.tag.Bounded p m false) :
    readByte t.tag.mem addr = readByte s.tag.mem addr := by
  obtain ⟨-, k, took, spares⟩ := h
  have hk := took.taken
  exact (spares par (fun j hj => acts _ (State.eventAt_mem (by omega))) bound).1

/-- With no poke in the script, its actions spare a byte that the firmware's answers, if there are any, do not reach. -/
theorem actions_spare_of_not_pokesIn {script : List EnvEvent} (quiet : ¬ pokesIn script)
    (answers : answersIn script → outsideAnswers p m addr) :
    ∀ e ∈ script, ∀ act ∈ e.tag, ActionSpares p m addr act := by
  intro e he act hact
  cases act with
  | poke bank offset value => exact absurd ⟨e, he, bank, offset, value, hact⟩ quiet
  | setReg address value => trivial
  | run id code => exact answers ⟨e, he, id, code, hact⟩

/-- Settles O45: at most 200 words are written from the data slot on, whatever command the firmware finds, so attempts and the
firmware's answers stay in the mailbox. -/
theorem onlyTheMailboxIsWritten : Obligations.OnlyTheMailboxIsWritten := by
  intro i s t addr hwf hp h covered pokes outside
  have spares : ∀ kind n, n.toNat ≤ 200 → AttemptSpares s.par 200 addr kind n := fun kind n hn =>
    ⟨outsideWrites_of_outsideMailbox hp outside kind hn, hn, fun _ => hn⟩
  have run : Spared s.par 200 addr false false s t :=
    (spared_kept hp).exec spares (fun id code u _ => (afterReply_spares hp id code u).state) hwf h
  refine run.readByte rfl covered (fun e he act hact => ?_) (Tag.bounded_full _)
  cases act with
  | poke bank offset value => exact ⟨pokes e he bank offset value hact, fun k => absurd k (Nat.lt_irrefl 200)⟩
  | setReg address value => trivial
  | run id code => exact outsideAnswers_of_outsideMailbox hp outside

/-! ### Transfers -/

/-- A run of one attempt, or of the retry wrapper, between work inside the block, with this command and size latched. -/
def RunsAttempts (kind : Kind) (n : Word) (s t : State) : Prop :=
  ∃ u, Inward s u ∧ u.eng.kind = kind ∧ u.eng.n = n ∧ (Inward (attempt u).state t ∨ Inward (retry u).state t)

theorem RunsAttempts.spared (hp : p.valid = true) {kind : Kind} {n : Word} {s t : State} (h : RunsAttempts kind n s t)
    (hs : AttemptSpares p m addr kind n) : Spared p m addr false false s t := by
  obtain ⟨u, before, rfl, rfl, after | after⟩ := h
  · exact ((before.spared false).trans (attempt_spared hp hs)).trans (after.spared false)
  · exact ((before.spared false).trans ((spared_kept hp).retry u hs)).trans (after.spared false)

/-- At most three attempts of five transport calls (42_transfer_retry.md R158). -/
theorem RunsAttempts.calls {kind : Kind} {n : Word} {s t : State} (h : RunsAttempts kind n s t) :
    busCalls t.bus ≤ busCalls s.bus + 15 := by
  have counted : ∀ {j k : Nat} {u v : State}, Carries j k u v → busCalls v.bus ≤ busCalls u.bus + k := fun h => by
    obtain ⟨events, hb, hl, -⟩ := h.bus
    rw [hb, busCalls_append]
    omega
  obtain ⟨u, before, -, -, after | after⟩ := h
  · rw [after.bus, ← before.bus]
    exact (counted (attempt_carries u)).trans (by omega)
  · rw [after.bus, ← before.bus]
    exact counted (u := u.setAttempt 1) (retry_carries u)

/-- An operation that latches a command and makes its attempts. -/
theorem operate_runsAttempts {kind : Kind} {n : Word} {α : Type} {r : Res α} {f : α → State → Option OpResult}
    {s t : State} (u : State)
    (h : (.next (r.andThen fun v s => .ok (f v s) s).finish : Host.Outcome State Fault Refusal) = .next t)
    (latched : Inward s.begin u) (hk : u.eng.kind = kind) (hn : u.eng.n = n)
    (hr : r.state = (attempt u).state ∨ r.state = (retry u).state) : RunsAttempts kind n s t := by
  have before : Inward s u := Inward.trans (b := s.begin) ⟨rfl, rfl, rfl, rfl⟩ latched
  have after : Inward r.state t := by
    cases h
    exact (r.andThen_ok_inward f).trans (Res.finish_inward _)
  obtain hr | hr := hr
  · exact ⟨u, before, hk, hn, .inl (hr ▸ after)⟩
  · exact ⟨u, before, hk, hn, .inr (hr ▸ after)⟩

theorem wordForm_of_words {n Lb : Word} (hL : Lb.toNat = 2 * n.toNat) : wordForm Lb = n := by
  apply BitVec.eq_of_toNat_eq
  rw [wordForm_toNat]
  omega

section
variable {i : BitVec 1} {a n B Lb : Word} {data : List Byte} {x : Instr} {s t : State}
  (h1 : 1 ≤ n.toNat) (h200 : n.toNat ≤ 200) (hB : B.toNat = 2 * a.toNat) (hL : Lb.toNat = 2 * n.toNat)
include h1 h200 hB hL

theorem chkVerdict_of_words : chkVerdict B Lb = none :=
  chkVerdict_accepts (by omega) (by omega) (by omega) (by omega)

/-- Each form of a READ of `n` words runs attempts of that command (41_handshake.md R140, 42_transfer_retry.md R151, R152). -/
theorem read_runsAttempts (hx : x = .xferRd B Lb ∨ x = .hsRd i a n ∨ x = .retry (.rd a n)) (h : exec x s = .next t) :
    RunsAttempts .rd n s t := by
  obtain rfl | rfl | rfl := hx
  · obtain ⟨u, latched, hk, hn, pass⟩ := transferRd_passes (chkVerdict_of_words h1 h200 hB hL) s.begin
    exact operate_runsAttempts u h latched hk (hn.trans (wordForm_of_words hL)) (.inr (congrArg Res.state pass))
  · exact operate_runsAttempts (s.begin.latchRd a n) h ⟨rfl, rfl, rfl, rfl⟩ rfl rfl (.inl rfl)
  · exact operate_runsAttempts (s.begin.latchRd a n) h ⟨rfl, rfl, rfl, rfl⟩ rfl rfl (.inr rfl)

/-- Each form of a WRITE of `n` words runs attempts of that command (R141, R151, R153). -/
theorem write_runsAttempts (hx : x = .xferWr B Lb data ∨ x = .hsWr i a n data ∨ x = .retry (.wr a n data))
    (h : exec x s = .next t) : RunsAttempts .wr n s t := by
  obtain rfl | rfl | rfl := hx
  · obtain ⟨u, latched, hk, hn, pass⟩ := transferWr_passes data (chkVerdict_of_words h1 h200 hB hL) s.begin
    exact operate_runsAttempts u h latched hk (hn.trans (wordForm_of_words hL)) (.inr (congrArg Res.state pass))
  · exact operate_runsAttempts (s.begin.latchWr a n data) h ⟨rfl, rfl, rfl, rfl⟩ rfl rfl (.inl rfl)
  · exact operate_runsAttempts (s.begin.latchWr a n data) h ⟨rfl, rfl, rfl, rfl⟩ rfl rfl (.inr rfl)

end

/-- Settles O44: the engine writes its own slots, and the commands it puts in flight serve at most `m` words, so the firmware's
answers stay in the reply slot and the first `m` words of the data slot; 15 events cover the run. -/
theorem transferMemoryFrame : Obligations.TransferMemoryFrame := by
  intro kind i a n B Lb data x m s t hp h1 h200 _ hB hL hscript quiet hx hm hflight h addr outside answers
  have run : RunsAttempts kind n s t := by
    obtain ⟨rfl, hx⟩ | ⟨rfl, hx⟩ := hx
    · exact read_runsAttempts h1 h200 hB hL hx h
    · exact write_runsAttempts h1 h200 hB hL hx h
  have spared : Spared s.par m addr false false s t := run.spared hp ⟨outside, h200, hm⟩
  have covered : t.env.taken ≤ s.env.taken + s.env.script.length := by
    obtain ⟨-, k, took, -⟩ := spared
    have := run.calls
    have := took.calls
    have := took.taken
    omega
  exact spared.readByte rfl covered (actions_spare_of_not_pokesIn quiet answers) ⟨hflight, nofun⟩

end Sys2Proof.Machine
end

section
/-! PROOF of the statements about the encoding: what the decoder reads from each form of frame, that decoding and encoding are
inverse to each other, and the words and bytes written out from the spec. -/

namespace Sys2Proof

variable {p : Params}

/-! ### The parameter block (30_encoding.md R85, 20_memory.md R59) -/

theorem highByte_eq (w : Word) : w.extractLsb' 8 8 = BitVec.ofNat 8 (w.toNat / 256) := by
  rw [← highByte_toNat, BitVec.ofNat_toNat, BitVec.setWidth_eq]

theorem lowByte_eq (w : Word) : w.extractLsb' 0 8 = BitVec.ofNat 8 w.toNat := by
  apply BitVec.eq_of_toNat_eq
  rw [lowByte_toNat, BitVec.toNat_ofNat]

/-- Settles O4: the block's bytes are the halves of its words, and a size of at most 200 has no high half. -/
theorem parameterBlockBytes : Obligations.ParameterBlockBytes := by
  intro id cmd a n
  refine ⟨?_, fun h200 => ?_⟩
  · rw [paramBlock_bytes, highByte_eq, highByte_eq, lowByte_eq, lowByte_eq]
  · rw [Nat.div_eq_of_lt (by omega)]
    rfl

/-- Any six bytes are the parameter block of the fields they spell. -/
theorem paramBlock_unbe16 (id cmd aHi aLo nHi nLo : Byte) :
    paramBlock id cmd (unbe16 aHi aLo) (unbe16 nHi nLo) = [id, cmd, aHi, aLo, nHi, nLo] := by
  have h : commandWord id cmd = unbe16 id cmd := rfl
  rw [paramBlock, h, be16_unbe16, be16_unbe16, be16_unbe16]
  rfl

/-! ### What an encoded command decodes to -/

/-- A parameter block with `CMD_READ` alone is the `HS.RD` of its fields (R81 to R85). -/
theorem decodeCommand_read (p : Params) (id : BitVec 1) (a n : Word) :
    decodeCommand p (paramBlock (id.setWidth 8) p.cmdRead a n) = .ok (.hsRd id a n) := by
  obtain ⟨hid, hbit⟩ := idBit_byte id
  simp [paramBlock_bytes, decodeCommand, unbe16_be16, hid, hbit]

/-- A parameter block with `CMD_WRITE`, another code than `CMD_READ`, and `2n` data bytes is the `HS.WR` of its fields
(R81 to R85, R89, R90). -/
theorem decodeCommand_write {data : List Byte} {n : Word} (hne : p.cmdWrite ≠ p.cmdRead) (hlen : data.length = 2 * n.toNat)
    (id : BitVec 1) (a : Word) :
    decodeCommand p (paramBlock (id.setWidth 8) p.cmdWrite a n ++ data) = .ok (.hsWr id a n data) := by
  obtain ⟨hid, hbit⟩ := idBit_byte id
  simp [paramBlock_bytes, decodeCommand, unbe16_be16, hid, hbit, hne, hlen]

theorem Params.cmdWrite_ne_cmdRead (h : p.valid = true) : p.cmdWrite ≠ p.cmdRead := by
  simp only [Params.valid, Bool.and_eq_true, bne_iff_ne] at h
  obtain ⟨⟨⟨⟨-, hne⟩, -⟩, -⟩, -⟩ := h
  exact hne.symm

/-- Settles O1, by the instruction's constructors: a HOP word's three fields are read back from it, a command's from its
parameter block, a reply's from its code; the internal steps have no frame. -/
theorem decodeInvertsEncode : Obligations.DecodeInvertsEncode := by
  intro p i f hp hwf h
  cases i with
  | nop | xferRd | get | set | prefetch | creset | encT | encH | decT | decH | validT | validH => cases h; rfl
  | declog ch | dec ch => cases h; cases ch <;> rfl
  | xferWr B Lb data =>
    cases h
    exact if_pos (beq_iff_eq.mp hwf)
  | hsRd id a n =>
    cases h
    exact decodeCommand_read p id a n
  | hsWr id a n data =>
    cases h
    obtain ⟨-, hlen⟩ := Bool.and_eq_true_iff.mp hwf
    exact decodeCommand_write (Params.cmdWrite_ne_cmdRead hp) (beq_iff_eq.mp hlen) id a
  | rplAck | rplNack => cases h; rfl
  | chk | retry | mode => cases h

/-! ### What a decoded frame encodes to -/

/-- A word that passes the decoder's test of bits 3 to 1 is the HOP word of its other two fields (R80). -/
theorem hopWord_eq {w : Byte} {op : Nat} {ch : Bool} (hz : ¬ w.extractLsb' 1 3 ≠ 0) (hop : (w.extractLsb' 4 4).toNat = op)
    (hch : w.getLsbD 0 = ch) : hopWord (BitVec.ofNat 4 op) ch = w := by
  rw [← hop, ← hch, BitVec.ofNat_toNat, BitVec.setWidth_eq]
  exact hopWord_fields w (not_not.mp hz)

/-- By the decoder's rows: each names the `op` and the `ch` its instruction is encoded with. -/
theorem decodeHop_encodes {w : Byte} {o : Operands} {i : Instr} (h : decodeHop w o = .ok i) :
    ∃ ops, encode p i = some (.hop w ops) := by
  unfold decodeHop at h
  split at h
  · cases h
  · rename_i hz
    have word {op : Nat} {ch : Bool} (hop : (w.extractLsb' 4 4).toNat = op) (hch : w.getLsbD 0 = ch) (ops : Operands) :
        some (Frame.hop (hopWord (BitVec.ofNat 4 op) ch) ops) = some (.hop w ops) := by
      rw [hopWord_eq hz hop hch]
    split at h
    case h_3 hop hch => -- `XFER.WR`, the one row with a check of its own
      split_ifs at h
      cases h
      exact ⟨_, word hop hch _⟩
    case h_18 => cases h -- no row
    all_goals
      rename_i hop hch
      cases h
      exact ⟨_, word hop hch _⟩

theorem decodeCommand_encodes {bytes : List Byte} {i : Instr} (h : decodeCommand p bytes = .ok i) :
    encode p i = some (.command bytes) := by
  unfold decodeCommand at h
  split at h
  · rename_i id cmd aHi aLo nHi nLo data
    dsimp only at h
    split_ifs at h with hid hread hlen hwrite hlen
    · cases h
      rw [encode, idByte_bit id (not_not.mp hid), ← hread, paramBlock_unbe16, List.eq_nil_of_length_eq_zero hlen]
    · cases h
      rw [encode, idByte_bit id (not_not.mp hid), ← hwrite, paramBlock_unbe16]
      rfl
  · cases h

theorem decodeReply_encodes {id code : Byte} {i : Instr} (h : decodeReply id code = .ok i) :
    encode p i = some (.reply id code) := by
  unfold decodeReply at h
  split_ifs at h with hack hnack
  · cases h
    rw [encode, hack]
  · cases h
    rw [encode, hnack]

/-- Settles O2, by the form of the frame: each decoder answers only an instruction whose encoding carries the word it read. -/
theorem encodeInvertsDecode : Obligations.EncodeInvertsDecode := by
  intro p f i h
  cases f with
  | hop w o =>
    obtain ⟨ops, hg⟩ := decodeHop_encodes (p := p) h
    exact ⟨_, hg, rfl⟩
  | command bytes => exact ⟨_, decodeCommand_encodes h, rfl⟩
  | reply id code => exact ⟨_, decodeReply_encodes h, rfl, rfl⟩

/-! ### Words written out from the spec -/

/-- Settles O3, by evaluation: the table word is a HOP word, whose decoding looks at none of the free parameters. -/
theorem specWordsDecode : Obligations.SpecWordsDecode := ⟨rfl, rfl, rfl, rfl, rfl, rfl⟩

end Sys2Proof
end

section
/-! PROOF of the statements about the step: what it runs, what it answers to a frame that is no instruction, and where it
stops. -/

namespace Sys2Proof.Machine

variable {s : State} {f : Frame} {rest : List Request}

/-! ### The requests of the port -/

theorem step_idle (h : s.port = []) : step s = .next s := by
  unfold step
  rw [h]

theorem step_reset (h : s.port = .reset :: rest) : step s = .next (hardReset (s.setPort rest)) := by
  unfold step
  rw [h]

theorem step_run (h : s.port = .run f :: rest) (hb : s.res.busy = false) : step s = runFrame f (s.setPort rest) := by
  unfold step
  rw [h]
  exact if_neg (Bool.eq_false_iff.mp hb)

theorem step_run_busy (h : s.port = .run f :: rest) (hb : s.res.busy = true) : step s = .next s := by
  unfold step
  rw [h]
  exact if_pos hb

theorem step_cut {k : Nat} (h : s.port = .cut f k :: rest) (hb : s.res.busy = false) :
    step s = abandon f k (s.setPort rest) := by
  unfold step
  rw [h]
  exact if_neg (Bool.eq_false_iff.mp hb)

theorem step_cut_busy {k : Nat} (h : s.port = .cut f k :: rest) (hb : s.res.busy = true) : step s = .next s := by
  unfold step
  rw [h]
  exact if_pos hb

/-! ### A frame that is an instruction, and one that is none -/

theorem runFrame_decoded {i : Instr} (h : decode s.par f = .ok i) : runFrame f s = exec i s := by
  unfold runFrame
  rw [h]

theorem runFrame_undecoded {e : DecodeError} (h : decode s.par f = .error e) : runFrame f s = undecoded f e s := by
  unfold runFrame
  rw [h]

/-- Settles O5: the three cases of a request to run. -/
theorem stepRunsDecodedRequest : Obligations.StepRunsDecodedRequest :=
  ⟨fun _ _ _ _ hport hbusy hdec => (step_run hport hbusy).trans (runFrame_decoded hdec), fun _ => step_idle,
    fun _ _ _ => step_run_busy⟩

/-- An operation whose body raises at once, having moved `phase` at most, changes only the result registers and `phase`
(60_exceptions.md R215). -/
theorem operate_raises {body : State → Res (Option OpResult)} {e : Err} {ph : Phase}
    (h : body s.begin = .err e (s.begin.setPhase ph)) : operate body s = .next (s.failed e.status e.info) := by
  unfold operate
  rw [h]
  rfl

/-! ### A reserved HOP word (30_encoding.md R102) -/

theorem reservedBits_toNat (w : Byte) : (w.extractLsb' 1 3).toNat = w.toNat / 2 % 8 := by
  rw [BitVec.extractLsb'_toNat, Nat.shiftRight_eq_div_pow]

theorem opField_toNat (w : Byte) : (w.extractLsb' 4 4).toNat = w.toNat / 16 := by
  have := w.isLt
  rw [BitVec.extractLsb'_toNat, Nat.shiftRight_eq_div_pow]
  omega

/-- By the decoder's rows: none is of such a word. -/
theorem decodeHop_reserved {w : Byte} (o : Operands)
    (h : w.toNat / 16 ≥ 0xC ∨ w.toNat / 2 % 8 ≠ 0 ∨ (w.toNat % 2 = 1 ∧ ¬ (7 ≤ w.toNat / 16 ∧ w.toNat / 16 ≤ 0xB))) :
    decodeHop w o = .error .reservedHop := by
  unfold decodeHop
  split
  · rfl
  · rename_i hz
    have bits : w.toNat / 2 % 8 = 0 := by
      rw [← reservedBits_toNat, not_not.mp hz]
      rfl
    split
    case h_18 => rfl
    all_goals
      rename_i hop hch
      rw [opField_toNat] at hop
      rw [BitVec.getLsbD, Nat.testBit_zero] at hch
      simp only [decide_eq_false_iff_not, decide_eq_true_eq] at hch
      omega

/-- Settles O6: the decoder has no row for such a word, and the block raises before any phase. -/
theorem reservedHopWordIsInvalidArgument : Obligations.ReservedHopWordIsInvalidArgument := by
  intro s w ops rest hport hbusy hres
  rw [step_run hport hbusy, runFrame_undecoded (f := .hop w ops) (decodeHop_reserved ops hres)]
  exact operate_raises (s := s.setPort rest) (e := .invalidArgument 3) (ph := s.eng.phase) rfl

/-! ### A reserved reply code (R93) -/

theorem decodeReply_reserved {code : Byte} (id : Byte) (ha : code ≠ ackCode) (hn : code ≠ nackCode) :
    decodeReply id code = .error .replyCode := by
  rw [decodeReply, if_neg ha, if_neg hn]

/-- A reply word that fails P5's verdict ends the operation in P5 (41_handshake.md R136). -/
theorem operate_replyRead_raises {id code : Byte} {e : Err}
    (h : afterReply id code (s.begin.setPhase .p5) = .err e (s.begin.setPhase .p5)) :
    operate (replyRead id code) s = .next (s.failed e.status e.info) := by
  apply operate_raises (ph := .p5)
  rw [replyRead, h, Res.err_andThen]

/-- Settles O7: the decoder has no row for such a code, and P5's verdict tests the id first. -/
theorem reservedReplyCodeIsTimeout : Obligations.ReservedReplyCodeIsTimeout := by
  intro s id code rest hport hbusy ha hn
  rw [step_run hport hbusy, runFrame_undecoded (f := .reply id code) (decodeReply_reserved id ha hn), undecoded]
  by_cases hid : id = s.eng.idmsg
  · rw [if_pos hid]
    exact operate_replyRead_raises (s := s.setPort rest) (afterReply_bad_code hid ha hn)
  · rw [if_neg hid]
    exact operate_replyRead_raises (s := s.setPort rest) (afterReply_wrong_id hid)

/-! ### Where a step stops (R92) -/

theorem undecoded_next_or_command (f : Frame) (e : DecodeError) (s : State) :
    (∃ t, undecoded f e s = .next t) ∨
      undecoded f e s = .refused .commandOutsideSpec ∧ ∃ bytes, f = .command bytes := by
  unfold undecoded
  split
  · exact .inl ⟨_, rfl⟩
  · exact .inr ⟨rfl, _, rfl⟩
  · exact .inl ⟨_, rfl⟩
  · exact .inl ⟨_, rfl⟩

/-- Running a frame stops only on a command frame that does not decode. -/
theorem runFrame_next_or_command (f : Frame) (s : State) :
    (∃ t, runFrame f s = .next t) ∨
      runFrame f s = .refused .commandOutsideSpec ∧ ∃ bytes e, f = .command bytes ∧ decode s.par f = .error e := by
  cases hdec : decode s.par f with
  | ok i =>
    rw [runFrame_decoded hdec]
    exact .inl (exec_next i s)
  | error e =>
    rw [runFrame_undecoded hdec]
    obtain hnext | ⟨hstop, bytes, hf⟩ := undecoded_next_or_command f e s
    · exact .inl hnext
    · exact .inr ⟨hstop, bytes, e, hf, rfl⟩

/-- A frame cut off by a reset stops as the frame run whole does: the reset changes no parameter the decoder looks at. -/
theorem abandon_next_or_command (f : Frame) (k : Nat) (s : State) :
    (∃ t, abandon f k s = .next t) ∨
      abandon f k s = .refused .commandOutsideSpec ∧ ∃ bytes e, f = .command bytes ∧ decode s.par f = .error e := by
  unfold abandon
  obtain ⟨t, ht⟩ | ⟨hstop, hcommand⟩ := runFrame_next_or_command f (s.cutOff k)
  · rw [ht]
    exact .inl ⟨_, rfl⟩
  · rw [hstop]
    exact .inr ⟨rfl, hcommand⟩

/-- Settles O12, by the oldest request: a step that waits or resets answers a next state, and of the frames only a command frame
that does not decode stops it, run whole or cut off. -/
theorem stepStopsOnlyOnForeignCommand : Obligations.StepStopsOnlyOnForeignCommand := by
  intro s
  match hport : s.port, hbusy : s.res.busy with
  | [], _ => exact .inl ⟨_, step_idle hport⟩
  | .reset :: _, _ => exact .inl ⟨_, step_reset hport⟩
  | .run _ :: _, true => exact .inl ⟨_, step_run_busy hport hbusy⟩
  | .cut _ _ :: _, true => exact .inl ⟨_, step_cut_busy hport hbusy⟩
  | .run f :: rest, false =>
    rw [step_run hport hbusy]
    obtain hnext | ⟨hstop, bytes, e, rfl, herr⟩ := runFrame_next_or_command f (s.setPort rest)
    · exact .inl hnext
    · exact .inr ⟨hstop, bytes, rest, e, .inl rfl, herr⟩
  | .cut f k :: rest, false =>
    rw [step_cut hport hbusy]
    obtain hnext | ⟨hstop, bytes, e, rfl, herr⟩ := abandon_next_or_command f k (s.setPort rest)
    · exact .inl hnext
    · exact .inr ⟨hstop, bytes, rest, e, .inr ⟨k, rfl⟩, herr⟩

end Sys2Proof.Machine
end

section
/-! PROOF of the statement about the operations on the block alone: what their bodies work on, instruction by instruction. -/

namespace Sys2Proof.Machine

/-- Equal but for `phase` and the result registers. -/
def SameBlock (u t : State) : Prop := ∃ ph r, t = (u.setPhase ph).setRes r

/-- Ending an operation writes `phase` and the result registers only (60_exceptions.md R205, R215). -/
theorem operate_sameBlock {r : Res (Option OpResult)} {u t : State}
    (h : (.next r.finish : Host.Outcome State Fault Refusal) = .next t) (hr : SameBlock u r.state) : SameBlock u t := by
  obtain ⟨ph, q, hr⟩ := hr
  cases h
  cases r <;> cases hr <;> exact ⟨_, _, rfl⟩

theorem domainResult_state (v : Option OpResult) (s : State) : (domainResult v s).state = s := by
  cases v <;> rfl

/-- An operand outside the domain or in it, the codec works on no register but the host's (40_codec.md R110). -/
theorem operate_domainResult_sameBlock {v : Option OpResult} {s t : State} (h : operate (domainResult v) s = .next t) :
    SameBlock s t :=
  operate_sameBlock h ⟨s.eng.phase, s.res.start, domainResult_state v s.begin⟩

/-- `CHK` writes `a` and `n` if its operands pass, and nothing if they do not (42_transfer_retry.md R150). -/
theorem execChk_sameBlock {B Lb : Word} {s t : State} (h : execChk B Lb s = .next t) :
    ∃ a n, SameBlock (s.setOperands a n) t := by
  cases hv : chkVerdict B Lb with
  | none =>
    refine ⟨wordForm B, wordForm Lb, operate_sameBlock h ⟨.chk, s.res.start, ?_⟩⟩
    dsimp only
    rw [check_passes hv]
    rfl
  | some e =>
    refine ⟨s.eng.a, s.eng.n, operate_sameBlock h ⟨.chk, s.res.start, ?_⟩⟩
    dsimp only
    rw [check_fails hv]
    rfl

theorem decodeLog_fails {mode : BitVec 2} {count : Int} {e : Err} (h : configVerdict mode count = some e) (ch : Channel)
    (words : List Word) (s : State) : decodeLog ch mode count words s = .err e s := by
  unfold decodeLog
  rw [h]

theorem decodeLog_passes {mode : BitVec 2} {count : Int} (h : configVerdict mode count = none) (ch : Channel)
    (words : List Word) (s : State) :
    decodeLog ch mode count words s =
      .ok ((Decoder.start ch mode count).scan words).finish.points
        (s.setDec ((Decoder.start ch mode count).scan words).finish) := by
  unfold decodeLog
  rw [h]

/-- `DEC` writes the decoder if its configuration passes, and nothing if it does not (44_log_decoder.md R190). -/
theorem execDec_sameBlock {ch : Channel} {mode : BitVec 2} {count : Int} {words : List Word} {s t : State}
    (h : execDec ch mode count words s = .next t) : ∃ d, SameBlock (s.setDec d) t := by
  cases hv : configVerdict mode count with
  | none =>
    refine ⟨((Decoder.start ch mode count).scan words).finish, operate_sameBlock h ⟨s.eng.phase, s.res.start, ?_⟩⟩
    dsimp only
    rw [decodeLog_passes hv]
    rfl
  | some e =>
    refine ⟨s.dec, operate_sameBlock h ⟨s.eng.phase, s.res.start, ?_⟩⟩
    dsimp only
    rw [decodeLog_fails hv]
    rfl

/-- All an operation on the block alone can have written beside `phase` and the result registers: nothing, the cache by
`CRESET`, `a` and `n` by `CHK`, the decoder by `DEC` and `MODE`. -/
theorem exec_local_cases {i : Instr} {s t : State} (hlocal : localOp i = true) (h : exec i s = .next t) :
    SameBlock s t ∨
    (i = .creset ∧ SameBlock (s.setCache []) t) ∨
    ((∃ B Lb, i = .chk B Lb) ∧ ∃ a n, SameBlock (s.setOperands a n) t) ∨
    (((∃ ch m c ws, i = .dec ch m c ws) ∨ ∃ x y, i = .mode x y) ∧ ∃ d, SameBlock (s.setDec d) t) := by
  cases i with
  | nop =>
    cases h
    exact .inl ⟨s.eng.phase, s.res.nop, rfl⟩
  | encT v => exact .inl (operate_domainResult_sameBlock h)
  | encH v => exact .inl (operate_domainResult_sameBlock h)
  | decT raw => exact .inl (operate_domainResult_sameBlock (v := some _) h)
  | decH raw => exact .inl (operate_domainResult_sameBlock (v := some _) h)
  | validT v => exact .inl (operate_domainResult_sameBlock h)
  | validH v => exact .inl (operate_domainResult_sameBlock h)
  | creset => exact .inr (.inl ⟨rfl, operate_sameBlock h ⟨s.eng.phase, s.res.start, rfl⟩⟩)
  | chk B Lb => exact .inr (.inr (.inl ⟨⟨B, Lb, rfl⟩, execChk_sameBlock h⟩))
  | dec ch m c ws => exact .inr (.inr (.inr ⟨.inl ⟨ch, m, c, ws, rfl⟩, execDec_sameBlock h⟩))
  | mode x y =>
    exact .inr (.inr (.inr ⟨.inr ⟨x, y, rfl⟩, { s.dec with mode := modeOf x y },
      operate_sameBlock h ⟨s.eng.phase, s.res.start, rfl⟩⟩))
  | xferRd | xferWr | get | set | prefetch | declog | hsRd | hsWr | rplAck | rplNack | retry => cases hlocal

/-- Settles O42: of what an operation on the block alone writes, each piece is excepted for the instruction that writes it. -/
theorem localOperationsFrame : Obligations.LocalOperationsFrame := by
  intro i s t hlocal h
  obtain ⟨ph, r, rfl⟩ | ⟨rfl, ph, r, rfl⟩ | ⟨⟨B, Lb, rfl⟩, a, n, ph, r, rfl⟩ | ⟨hi, d, ph, r, rfl⟩ :=
    exec_local_cases hlocal h
  all_goals refine ⟨rfl, rfl, rfl, rfl, rfl, rfl, rfl, rfl, rfl, rfl, ?_⟩
  · exact ⟨fun _ => ⟨rfl, rfl⟩, fun _ => rfl, fun _ _ => rfl⟩
  · exact ⟨fun _ => ⟨rfl, rfl⟩, fun hne => absurd rfl hne, fun _ _ => rfl⟩
  · exact ⟨fun hne => absurd rfl (hne B Lb), fun _ => rfl, fun _ _ => rfl⟩
  · refine ⟨fun _ => ⟨rfl, rfl⟩, fun _ => rfl, fun hdec hmode => ?_⟩
    obtain ⟨ch, m, c, ws, rfl⟩ | ⟨x, y, rfl⟩ := hi
    · exact absurd rfl (hdec ch m c ws)
    · exact absurd rfl (hmode x y)

end Sys2Proof.Machine
end

section
/-! PROOF of the statements about the codec: the code of every real, the value of every code, and that the two are inverse
up to rounding on the linear bands (40_codec.md). -/

namespace Sys2Proof.Machine

variable {q : Rat} {raw : Word}

/-! ### How the codec's operations end (R110) -/

/-- An operation that has a value and changes nothing ends with that value. -/
theorem operate_ended (v : OpResult) (s : State) : operate (domainResult (some v)) s = .next (s.ended v) := rfl

/-- An operand outside the domain (93_implementation_defined.md U4, U5). -/
theorem operate_outsideDomain (s : State) : operate (domainResult none) s = .next (s.failed .invalidArgument 3) :=
  operate_raises (ph := s.eng.phase) rfl

theorem exec_encT_real (q : Rat) (s : State) : exec (.encT (.real q)) s = .next (s.ended (.word (encodeTempReal q))) :=
  operate_ended _ s

theorem exec_encH_real {w : Word} (h : encodeHumReal q = some w) (s : State) :
    exec (.encH (.real q)) s = .next (s.ended (.word w)) := by
  show operate (domainResult ((encodeHumReal q).map .word)) s = _
  rw [h]
  exact operate_ended _ s

theorem exec_encH_negative (h : q < 0) (s : State) :
    exec (.encH (.real q)) s = .next (s.failed .invalidArgument 3) := by
  show operate (domainResult ((encodeHumReal q).map .word)) s = _
  rw [encodeHumReal_neg h]
  exact operate_outsideDomain s

/-! ### `round` (R112) -/

/-- The spec's `round` is Mathlib's. -/
theorem roundHalfUp_eq_round (x : Rat) : roundHalfUp x = round x := (round_eq x).symm

/-- Rounding `32 v` to an integer moves `v` by at most 1/64. -/
theorem roundHalfUp_error (q : Rat) : |(roundHalfUp (q * 32) : Rat) / 32 - q| ≤ 1 / 64 := by
  have h := abs_le.mp (abs_sub_round (q * 32))
  rw [roundHalfUp_eq_round]
  exact abs_le.mpr ⟨by linarith, by linarith⟩

/-! ### The code of a real, band by band (R113, R114, R120) -/

/-- The range of the code before the offset of a negative one. -/
theorem roundHalfUp_scaled_mem {lo hi : Int} (h0 : (lo : Rat) ≤ q) (h1 : q ≤ hi) :
    lo * 32 ≤ roundHalfUp (q * 32) ∧ roundHalfUp (q * 32) ≤ hi * 32 :=
  roundHalfUp_mem (by push_cast; linarith) (by push_cast; linarith)

theorem encodeTempReal_nonneg_toNat (h0 : 0 ≤ q) (h1 : q ≤ 70) :
    ((encodeTempReal q).toNat : Int) = roundHalfUp (q * 32) := by
  have h := roundHalfUp_scaled_mem (lo := 0) (hi := 70) (mod_cast h0) (mod_cast h1)
  rw [encodeTempReal_nonneg h0 h1, ofInt_toNat (by omega) (by omega)]

theorem encodeTempReal_neg_toNat (h0 : -30 ≤ q) (h1 : q < 0) :
    ((encodeTempReal q).toNat : Int) = roundHalfUp (q * 32) + 8192 := by
  have h := roundHalfUp_scaled_mem (lo := -30) (hi := 0) (mod_cast h0) (mod_cast h1.le)
  rw [encodeTempReal_neg h0 h1, ofInt_toNat (by omega) (by omega)]

/-- The code of a humidity of the range. -/
theorem encodeHumReal_toNat (h0 : 0 ≤ q) (h1 : q ≤ 100) :
    ∃ w, encodeHumReal q = some w ∧ (w.toNat : Int) = roundHalfUp (q * 32) := by
  have h := roundHalfUp_scaled_mem (lo := 0) (hi := 100) (mod_cast h0) (mod_cast h1)
  exact ⟨_, encodeHumReal_mem h0 h1, ofInt_toNat (by omega) (by omega)⟩

/-- At the upper bound the code is computed; beyond it the clamp gives the same (R120). -/
theorem encodeTempReal_upper (h : 70 ≤ q) : encodeTempReal q = 2240 := by
  obtain rfl | h := h.eq_or_lt
  · decide +kernel
  · rw [encodeTempReal_above h]
    decide +kernel

theorem encodeTempReal_lower (h : q ≤ -30) : encodeTempReal q = 7232 := by
  obtain rfl | h := h.eq_or_lt
  · decide +kernel
  · rw [encodeTempReal_below h]
    decide +kernel

theorem encodeHumReal_upper (h : 100 ≤ q) : encodeHumReal q = some 3200 := by
  obtain rfl | h := h.eq_or_lt
  · decide +kernel
  · rw [encodeHumReal_above h]
    decide +kernel

/-- Settles O54: the code of each band, read as an integer; the model's `round` is `⌊x + 1 / 2⌋` by definition. -/
theorem encodeReals : Obligations.EncodeReals := by
  intro q s
  refine ⟨⟨encodeTempReal q, exec_encT_real q s, fun h => encodeTempReal_upper h.le, fun h => encodeTempReal_lower h.le,
    encodeTempReal_nonneg_toNat, encodeTempReal_neg_toNat⟩, fun h0 => ?_⟩
  by_cases h1 : q ≤ 100
  · obtain ⟨w, hw, hcode⟩ := encodeHumReal_toNat h0 h1
    exact ⟨w, exec_encH_real hw s, fun h => absurd h1 h.not_ge, fun _ => hcode⟩
  · exact ⟨3200, exec_encH_real (encodeHumReal_upper (not_le.mp h1).le) s, fun _ => rfl, fun h => absurd h h1⟩

/-- Settles O59: at a bound the code is the bound's own, beyond it the clamp's. -/
theorem encodeClamps : Obligations.EncodeClamps := fun q s =>
  ⟨fun h => encodeTempReal_upper h ▸ exec_encT_real q s, fun h => encodeTempReal_lower h ▸ exec_encT_real q s,
    fun h => exec_encH_real (encodeHumReal_upper h) s⟩

/-- Settles O55: a negative humidity and the operands without a code or a verdict raise; the covered infinities are encoded
as the bound they are clamped to. -/
theorem codecDomain : Obligations.CodecDomain := by
  intro q s hq
  refine ⟨fun i hi => ?_, encodeTempReal_upper le_rfl ▸ operate_ended _ s,
    encodeTempReal_lower le_rfl ▸ operate_ended _ s, exec_encH_real (encodeHumReal_upper le_rfl) s⟩
  simp only [List.mem_cons, List.not_mem_nil, or_false] at hi
  obtain rfl | hi := hi
  · exact exec_encH_negative hq s
  · obtain rfl | rfl | rfl | rfl | rfl | rfl | rfl | rfl | rfl := hi <;> exact operate_outsideDomain s

/-! ### The value of a code (R115, R116) and the valid ranges (R117, R118) -/

/-- Settles O56: the value of each band. -/
theorem decodeBands : Obligations.DecodeBands := by
  intro raw s
  refine ⟨⟨decodeTemp raw, operate_ended _ s, decodeTemp_positive, decodeTemp_clamped, fun h0 h1 => ?_, decodeTemp_beyond⟩,
    ⟨decodeHum raw, operate_ended _ s, decodeHum_linear, decodeHum_beyond⟩⟩
  rw [decodeTemp_negative h0 h1]
  push_cast
  rfl

theorem validTemp_iff : validTemp q = true ↔ -30 ≤ q ∧ q ≤ 70 := decide_eq_true_iff

theorem validHum_iff : validHum q = true ↔ 0 ≤ q ∧ q ≤ 100 := decide_eq_true_iff

/-- Settles O57: the verdicts are the two closed ranges. -/
theorem validRanges : Obligations.ValidRanges := fun q s =>
  ⟨validTemp q, validHum q, operate_ended _ s, validTemp_iff, operate_ended _ s, validHum_iff⟩

/-! ### The round trip from a value (R119) -/

/-- A value of the range comes back rounded to the nearest step; a negative one that rounds to 0 has the code 8192, which
decodes to 0 as well. -/
theorem decodeTemp_encodeTempReal (h0 : -30 ≤ q) (h1 : q ≤ 70) :
    decodeTemp (encodeTempReal q) = (roundHalfUp (q * 32) : Rat) / 32 := by
  by_cases hneg : q < 0
  · have range := roundHalfUp_scaled_mem (lo := -30) (hi := 0) (mod_cast h0) (mod_cast hneg.le)
    have code := encodeTempReal_neg_toNat h0 hneg
    by_cases hr : roundHalfUp (q * 32) = 0
    · rw [decodeTemp_beyond (by omega), hr]
      norm_num
    · have value : ((encodeTempReal q).toNat : Rat) = roundHalfUp (q * 32) + 8192 := mod_cast code
      rw [decodeTemp_negative (by omega) (by omega), value, add_sub_cancel_right]
  · have range := roundHalfUp_scaled_mem (lo := 0) (hi := 70) (mod_cast not_lt.mp hneg) (mod_cast h1)
    have code := encodeTempReal_nonneg_toNat (not_lt.mp hneg) h1
    have value : ((encodeTempReal q).toNat : Rat) = roundHalfUp (q * 32) := mod_cast code
    rw [decodeTemp_positive (by omega), value]

theorem decodeHum_encodeHumReal (h0 : 0 ≤ q) (h1 : q ≤ 100) :
    ∃ w, encodeHumReal q = some w ∧ decodeHum w = (roundHalfUp (q * 32) : Rat) / 32 := by
  have range := roundHalfUp_scaled_mem (lo := 0) (hi := 100) (mod_cast h0) (mod_cast h1)
  obtain ⟨w, hw, code⟩ := encodeHumReal_toNat h0 h1
  have value : (w.toNat : Rat) = roundHalfUp (q * 32) := mod_cast code
  exact ⟨w, hw, by rw [decodeHum_linear (by omega), value]⟩

/-- Settles O58: what comes back is the rounded value, and rounding errs by half a step at most. -/
theorem codecRoundTripError : Obligations.CodecRoundTripError := by
  refine fun q => ⟨fun h0 h1 => ?_, fun h0 h1 => ?_⟩
  · rw [decodeTemp_encodeTempReal h0 h1]
    exact roundHalfUp_error q
  · obtain ⟨w, hw, value⟩ := decodeHum_encodeHumReal h0 h1
    exact ⟨w, hw, value ▸ roundHalfUp_error q⟩

/-! ### Every code decoded, and encoded again (R121, R122) -/

theorem decodeTemp_valid (raw : Word) : validTemp (decodeTemp raw) = true := by
  rw [validTemp_iff]
  by_cases h0 : raw.toNat ≤ 2240
  · have : (raw.toNat : Rat) ≤ 2240 := mod_cast h0
    have : (0 : Rat) ≤ raw.toNat := Nat.cast_nonneg _
    rw [decodeTemp_positive h0]
    constructor <;> linarith
  by_cases h1 : raw.toNat < 7232
  · rw [decodeTemp_clamped (by omega) h1]
    norm_num
  by_cases h2 : raw.toNat < 8192
  · have : (7232 : Rat) ≤ raw.toNat := mod_cast not_lt.mp h1
    have : (raw.toNat : Rat) < 8192 := mod_cast h2
    rw [decodeTemp_negative (by omega) h2]
    constructor <;> linarith
  · rw [decodeTemp_beyond (by omega)]
    norm_num

theorem decodeHum_valid (raw : Word) : validHum (decodeHum raw) = true := by
  rw [validHum_iff]
  by_cases h : raw.toNat ≤ 3200
  · have : (raw.toNat : Rat) ≤ 3200 := mod_cast h
    have : (0 : Rat) ≤ raw.toNat := Nat.cast_nonneg _
    rw [decodeHum_linear h]
    constructor <;> linarith
  · rw [decodeHum_beyond (by omega)]
    norm_num

theorem ofInt_eq_of_toNat {z : Int} (h : z = raw.toNat) : BitVec.ofInt 16 z = raw := by
  rw [h, BitVec.ofInt_natCast, BitVec.ofNat_toNat, BitVec.setWidth_eq]

theorem encodeTempReal_decodeTemp_positive (h : raw.toNat ≤ 2240) : encodeTempReal (decodeTemp raw) = raw := by
  have hv := validTemp_iff.mp (decodeTemp_valid raw)
  rw [decodeTemp_positive h] at hv ⊢
  have scaled : (raw.toNat : Rat) / 32 * 32 = (raw.toNat : Int) := by push_cast; ring
  rw [encodeTempReal_nonneg (by positivity) hv.2, scaled, roundHalfUp_intCast]
  exact ofInt_eq_of_toNat rfl

theorem encodeTempReal_decodeTemp_negative (h0 : 7232 ≤ raw.toNat) (h1 : raw.toNat < 8192) :
    encodeTempReal (decodeTemp raw) = raw := by
  have hv := validTemp_iff.mp (decodeTemp_valid raw)
  rw [decodeTemp_negative h0 h1] at hv ⊢
  have below : (raw.toNat : Rat) < 8192 := mod_cast h1
  have scaled : ((raw.toNat : Rat) - 8192) / 32 * 32 = ((raw.toNat : Int) - 8192 : Int) := by push_cast; ring
  rw [encodeTempReal_neg hv.1 (by linarith), scaled, roundHalfUp_intCast]
  exact ofInt_eq_of_toNat (by omega)

/-- A code of neither linear band is encoded again as the bound of a band: 70 as 2240, 0 as 0. -/
theorem encodeTempReal_decodeTemp_outside (h : ¬ (raw.toNat ≤ 2240 ∨ (7232 ≤ raw.toNat ∧ raw.toNat ≤ 8191))) :
    (encodeTempReal (decodeTemp raw)).toNat ≤ 2240 := by
  by_cases h1 : raw.toNat < 7232
  · rw [decodeTemp_clamped (by omega) h1, encodeTempReal_upper le_rfl]
    decide
  · rw [decodeTemp_beyond (by omega)]
    decide +kernel

/-- Settles O60: the value of each band is in range, a linear band is its own inverse, and every other code comes back in the
lower band. -/
theorem decodeRangeAndCodes : Obligations.DecodeRangeAndCodes := by
  refine fun raw => ⟨decodeTemp_valid raw, decodeHum_valid raw, fun h => ?_, ?_⟩
  · by_contra hout
    have := encodeTempReal_decodeTemp_outside hout
    rw [h] at this
    exact hout (.inl this)
  · rintro (h | ⟨h0, h1⟩)
    · exact encodeTempReal_decodeTemp_positive h
    · exact encodeTempReal_decodeTemp_negative h0 (by omega)

end Sys2Proof.Machine
end

section
/-! PROOF of the statement about what transfers leave alone: a transfer writes the engine and the host's registers, a cache
operation the cache besides. -/

namespace Sys2Proof.Machine

variable {s t : State}

/-! ### What an operation leaves of the cache and the decoder -/

/-- Giving the host its value changes no state. -/
theorem Res.andThen_value_state {α β : Type} (r : Res α) (f : α → State → β) :
    (r.andThen fun v s => .ok (f v s) s).state = r.state := by
  cases r <;> rfl

theorem operate_value_dec {α : Type} {r : Res α} {f : α → State → Option OpResult}
    (h : (.next (r.andThen fun v s => .ok (f v s) s).finish : Host.Outcome State Fault Refusal) = .next t)
    (hr : r.state.dec = s.dec) : t.dec = s.dec := by
  cases h
  rw [Res.finish_dec, Res.andThen_value_state, hr]

theorem operate_value_cache {α : Type} {r : Res α} {f : α → State → Option OpResult}
    (h : (.next (r.andThen fun v s => .ok (f v s) s).finish : Host.Outcome State Fault Refusal) = .next t)
    (hr : r.state.cache = s.cache) : t.cache = s.cache := by
  cases h
  rw [Res.finish_cache, Res.andThen_value_state, hr]

/-- An operation that gives the host the value of a piece made of transport traffic. -/
theorem Traffic.operate_value {α : Type} {r : Res α} {f : α → State → Option OpResult} (hr : Traffic s.begin r.state)
    (h : (.next (r.andThen fun v s => .ok (f v s) s).finish : Host.Outcome State Fault Refusal) = .next t) :
    t.dec = s.dec ∧ t.cache = s.cache :=
  ⟨operate_value_dec h hr.dec, operate_value_cache h hr.cache⟩

/-! ### The cache operations leave the decoder -/

theorem Res.andThen_dec {α β : Type} {r : Res α} {f : α → State → Res β} (h : r.state.dec = s.dec)
    (hf : ∀ v t, (f v t).state.dec = t.dec) : (r.andThen f).state.dec = s.dec :=
  Res.andThen_keeps (R := fun a b => b.dec = a.dec) (fun h k => k.trans h) h hf

theorem State.cacheWords_dec (s : State) (a : Nat) (ws : List Word) : (s.cacheWords a ws).dec = s.dec := by
  obtain ⟨c, h⟩ := s.cacheWords_fields a ws
  rw [h, State.setCache_dec]

theorem State.settleVerify_dec (s : State) (address value observed : Word) :
    (s.settleVerify address value observed).dec = s.dec := by
  unfold State.settleVerify
  split <;> rfl

theorem getWord_dec (address : Word) (s : State) : (getWord address s).state.dec = s.dec := by
  unfold getWord
  split
  · cases s.cached address.toNat with
    | some w => rfl
    | none => exact Res.andThen_dec (transferRd_traffic _ _ s).dec fun _ _ => rfl
  · rfl

theorem setWord_dec (address value : Word) (s : State) : (setWord address value s).state.dec = s.dec := by
  unfold setWord
  split
  · refine Res.andThen_dec (transferWr_traffic _ _ _ s).dec fun _ t => ?_
    exact Res.andThen_dec (transferRd_traffic _ _ (waitMs verifyDelay t)).dec fun _ u => u.settleVerify_dec _ _ _
  · rfl

theorem prefetchFrom_dec (turns start : Nat) (s : State) : (prefetchFrom turns start s).state.dec = s.dec := by
  induction turns generalizing start s with
  | zero => rfl
  | succ turns ih =>
    unfold prefetchFrom
    split
    · exact Res.andThen_dec (transferRd_traffic _ _ s).dec fun _ t => (ih _ _).trans (t.cacheWords_dec _ _)
    · rfl

/-! ### Transfers, attempts and reply words leave the cache as well -/

theorem State.latchOp_traffic (s : State) (op : AttemptOp) : Traffic s (s.latchOp op) := by
  cases op with
  | rd a n => exact ⟨rfl, rfl, rfl, rfl, rfl, id, id, id⟩
  | wr a n data => exact ⟨rfl, rfl, rfl, rfl, rfl, id, fillDbuf_length, id⟩

theorem execRpl_keeps {id code : Byte} (h : operate (replyRead id code) s = .next t) :
    t.dec = s.dec ∧ t.cache = s.cache :=
  Traffic.operate_value ((Traffic.setPhase s.begin .p5).trans (afterReply_traffic id code _)) h

/-- Settles O43: what an operation is made of, instruction by instruction; the parameters and the port no instruction writes. -/
theorem transferFrame : Obligations.TransferFrame := by
  intro i s t hlocal h
  obtain ⟨par, port, -⟩ := exec_ran h
  suffices key : ((∀ ch, i ≠ .declog ch) → t.dec = s.dec) ∧ (cacheOp i = false → t.cache = s.cache) from
    ⟨par, port, key⟩
  have both : t.dec = s.dec ∧ t.cache = s.cache →
      ((∀ ch, i ≠ .declog ch) → t.dec = s.dec) ∧ (cacheOp i = false → t.cache = s.cache) := fun k =>
    ⟨fun _ => k.1, fun _ => k.2⟩
  cases i with
  | xferRd B Lb => exact both (Traffic.operate_value (transferRd_traffic B Lb _) h)
  | xferWr B Lb data => exact both (Traffic.operate_value (transferWr_traffic B Lb data _) h)
  | hsRd j a n =>
    exact both (Traffic.operate_value ((s.begin.latchOp_traffic (.rd a n)).trans (attempt_traffic _)) h)
  | hsWr j a n data =>
    exact both (Traffic.operate_value ((s.begin.latchOp_traffic (.wr a n data)).trans (attempt_traffic _)) h)
  | retry op => exact both (Traffic.operate_value ((s.begin.latchOp_traffic op).trans (retry_traffic _)) h)
  | rplAck id => exact both (execRpl_keeps h)
  | rplNack id => exact both (execRpl_keeps h)
  | get address => exact ⟨fun _ => operate_value_dec h (getWord_dec _ _), nofun⟩
  | set address value => exact ⟨fun _ => operate_value_dec h (setWord_dec _ _ _), nofun⟩
  | prefetch => exact ⟨fun _ => operate_value_dec h (prefetchFrom_dec _ _ _), nofun⟩
  | declog ch => exact ⟨fun k => absurd rfl (k ch), nofun⟩
  | nop | creset | dec | encT | encH | decT | decH | validT | validH | chk | mode => cases hlocal

end Sys2Proof.Machine
end

section
/-! PROOF of the statements about one attempt: how it ends when its reply passes P5 and when it does not, the message id
it chooses, and a reply word that comes alone. -/

namespace Sys2Proof.Machine

variable {s t u : State} {e : Err} {rest : List EnvEvent}

/-! ### An attempt run alone (41_handshake.md R140, R141; assumption 14) -/

/-- The state an attempt run alone leaves to the host. -/
def attemptEnd (kind : Kind) (r : Res (List Byte)) : State :=
  (r.andThen fun d s => .ok (transferValue kind d) s).finish

theorem exec_hsRd (i : BitVec 1) (a n : Word) (s : State) :
    exec (.hsRd i a n) s = .next (attemptEnd .rd (attempt (s.begin.latchRd a n))) := rfl

theorem exec_hsWr (i : BitVec 1) (a n : Word) (data : List Byte) (s : State) :
    exec (.hsWr i a n data) s = .next (attemptEnd .wr (attempt (s.begin.latchWr a n data))) := rfl

theorem attemptEnd_ok (kind : Kind) (d : List Byte) (t : State) :
    attemptEnd kind (.ok d t) = t.succeed (transferValue kind d) := rfl

theorem attemptEnd_err (kind : Kind) (e : Err) (t : State) : attemptEnd kind (.err e t) = t.raise e := rfl

theorem attemptEnd_status_ok {kind : Kind} {r : Res (List Byte)} (h : (attemptEnd kind r).res.status = .ok) :
    ∃ d t, r = .ok d t := by
  obtain ⟨v, t, h⟩ := (Res.finish_status _).mp h
  obtain ⟨d, u, h, -⟩ := Res.andThen_ok h
  exact ⟨d, u, h⟩

theorem attempt_err_res (h : attempt s = .err e t) : t.res = s.res := by
  have := (attempt_traffic s).res
  rwa [h] at this

theorem settleDelay_rd (n : Word) : settleDelay .rd n = 100 + 7 * (n.toNat / 2 + 1) := by
  unfold settleDelay
  dsimp only
  omega

/-- The data of a WRITE stand at the front of the buffer (10_state.md R26). -/
theorem latchWr_dbuf_take {n : Word} {data : List Byte} (hd : data.length = 2 * n.toNat) (hn : n.toNat ≤ 200) (s : State)
    (a : Word) : (s.latchWr a n data).eng.dbuf.take (byteCount (s.latchWr a n data).eng.n) = data := by
  simp only [State.latchWr_eng, byteCount, maxBytes, ← hd, List.take_take]
  rw [Nat.min_eq_left (by omega)]
  exact List.take_left' rfl

/-! ### An attempt answered with its id and ACK -/

/-- Settles O19: the attempt's own end, and `result` its bytes. -/
theorem hsRdCompletes : Obligations.HsRdCompletes := by
  intro i a n s e1 e2 e3 e4 e5 rest hn hb h ok p found id t3 t4 t5 d hr
  simp only [List.forall_mem_cons] at ok
  obtain ⟨ok1, ok2, ok3, ok4, ok5, -⟩ := ok
  apply Exists.intro
  rw [exec_hsRd, attempt_rd_ack (s := s.begin.latchRd a n) rfl hn hb h ok1 ok2 ok3 ok4 ok5 hr, attemptEnd_ok,
    settleDelay_rd]
  rfl

/-- Settles O20: the attempt's own end, and the data of the WRITE as they were latched. -/
theorem hsWrCompletes : Obligations.HsWrCompletes := by
  intro i a n data s e1 e2 e3 e4 e5 rest hn hd hb h ok p found id t4 t5 hr
  simp only [List.forall_mem_cons] at ok
  obtain ⟨ok1, ok2, ok3, ok4, ok5, -⟩ := ok
  have staged := latchWr_dbuf_take hd hn s.begin a
  have latched : (s.begin.latchWr a n data).eng.dbuf = data ++ s.eng.dbuf.drop (2 * n.toNat) :=
    hd ▸ fillDbuf_fits hb (by omega)
  apply Exists.intro
  rw [exec_hsWr, attempt_wr_ack (s := s.begin.latchWr a n data) rfl h ok1 ok2 ok3 ok4 ok5 (by rw [staged]; exact hr),
    attemptEnd_ok, staged, ← latched]
  rfl

/-! ### An attempt whose reply does not pass P5 (R136) -/

theorem replyVerdict_wrong_id {idmsg id : Byte} (h : id ≠ idmsg) (code : Byte) :
    replyVerdict idmsg id code = some (.protocolTimeout 1) := if_pos h

theorem replyVerdict_nack {idmsg id : Byte} (h : id = idmsg) : replyVerdict idmsg id nackCode = some .tagRejected := by
  unfold replyVerdict
  rw [if_neg (not_not.mpr h), if_neg (fun k => k.2 rfl), if_pos rfl]

theorem replyVerdict_ack {idmsg id : Byte} (h : id = idmsg) : replyVerdict idmsg id ackCode = none := by
  unfold replyVerdict
  rw [if_neg (not_not.mpr h), if_neg (fun k => k.1 rfl), if_neg (by decide)]

theorem replyVerdict_bad_code {idmsg id code : Byte} (h : id = idmsg) (ha : code ≠ ackCode) (hn : code ≠ nackCode) :
    replyVerdict idmsg id code = some (.protocolTimeout 2) := by
  unfold replyVerdict
  rw [if_neg (not_not.mpr h), if_pos ⟨ha, hn⟩]

/-- Every reply but the attempt's id with ACK is refused, by the first of the three tests it fails. -/
theorem replyVerdict_refuses {idmsg b0 b1 : Byte} (h : ¬ (b0 = idmsg ∧ b1 = 0xAC)) :
    ∃ e, replyVerdict idmsg b0 b1 = some e ∧
      e.status = (if b0 = idmsg ∧ b1 = 0xFC then .tagRejected else .protocolTimeout) ∧
      e.info = (if b0 ≠ idmsg then 1 else if b1 = 0xFC then 0 else 2) := by
  by_cases hid : b0 = idmsg
  · by_cases hn : b1 = 0xFC
    · exact ⟨.tagRejected, by rw [hn]; exact replyVerdict_nack hid, (if_pos ⟨hid, hn⟩).symm,
        ((if_neg (not_not.mpr hid)).trans (if_pos hn)).symm⟩
    · exact ⟨_, replyVerdict_bad_code hid (fun k => h ⟨hid, k⟩) hn, (if_neg fun k => hn k.2).symm,
        ((if_neg (not_not.mpr hid)).trans (if_neg hn)).symm⟩
  · exact ⟨_, replyVerdict_wrong_id hid b1, (if_neg fun k => hid k.1).symm, (if_pos hid).symm⟩

theorem afterReply_passes {id code : Byte} (h : replyVerdict s.eng.idmsg id code = none) :
    afterReply id code s = phaseP6 s := by
  unfold afterReply
  rw [h]

theorem afterReply_refused {id code : Byte} (h : replyVerdict s.eng.idmsg id code = some e) :
    afterReply id code s = .err e s := by
  unfold afterReply
  rw [h]

/-- An attempt whose reply was refused with this error: the id it had chosen, the tag and the events still to come. -/
def RefusedReply (e : Err) (id : Byte) (tag : Tag) (env : Environment) : Res (List Byte) → Prop
  | .ok _ _ => False
  | .err e' t => e' = e ∧ t.eng.idmsg = id ∧ t.tag = tag ∧ t.env = env

theorem attempt_rd_refused {e1 e2 e3 e4 : EnvEvent} (k : s.eng.kind = .rd)
    (h : s.env.script = e1 :: e2 :: e3 :: e4 :: rest)
    (ok1 : e1.ok = true) (ok2 : e2.ok = true) (ok3 : e3.ok = true) (ok4 : e4.ok = true) :
    let id := (s.tag.acts s.par e1.tag).nextId s.par
    let t4 := (s.tag.afterReadTrigger s.par s.eng.a s.eng.n e1.tag e2.tag e3.tag).acts s.par e4.tag
    let r := t4.mailbox s.par (replyOffset s.par) 2
    replyVerdict id (r.getD 0 0) (r.getD 1 0) = some e →
      RefusedReply e id t4 { script := rest, taken := s.env.taken + 4 } (attempt s) := by
  intro id t4 r hv
  rw [attempt_rd_reply k h ok1 ok2 ok3 ok4, afterReply_refused hv]
  exact ⟨rfl, rfl, rfl, rfl⟩

theorem attempt_wr_refused {e1 e2 e3 e4 e5 : EnvEvent} (k : s.eng.kind = .wr)
    (h : s.env.script = e1 :: e2 :: e3 :: e4 :: e5 :: rest)
    (ok1 : e1.ok = true) (ok2 : e2.ok = true) (ok3 : e3.ok = true) (ok4 : e4.ok = true) (ok5 : e5.ok = true) :
    let id := (s.tag.acts s.par e1.tag).nextId s.par
    let data := s.eng.dbuf.take (byteCount s.eng.n)
    let t5 := (s.tag.afterWriteTrigger s.par s.eng.a s.eng.n data e1.tag e2.tag e3.tag e4.tag).acts s.par e5.tag
    let r := t5.mailbox s.par (replyOffset s.par) 2
    replyVerdict id (r.getD 0 0) (r.getD 1 0) = some e →
      RefusedReply e id t5 { script := rest, taken := s.env.taken + 5 } (attempt s) := by
  intro id data t5 r hv
  rw [attempt_wr_reply k h ok1 ok2 ok3 ok4 ok5, afterReply_refused hv]
  exact ⟨rfl, rfl, rfl, rfl⟩

/-- Run alone, it shows that error to the host and no result. -/
theorem RefusedReply.attemptEnd {id : Byte} {tag : Tag} {env : Environment} (kind : Kind)
    (h : RefusedReply e id tag env (attempt s)) :
    let t := attemptEnd kind (attempt s)
    t.eng.idmsg = id ∧ t.eng.phase = .idle ∧ t.tag = tag ∧ t.env = env ∧ t.res = s.res.fail e := by
  cases hr : attempt s with
  | ok d t =>
    rw [hr] at h
    exact h.elim
  | err e' t =>
    rw [hr] at h
    obtain ⟨rfl, hid, htag, henv⟩ := h
    exact ⟨hid, rfl, htag, henv, congrArg (ResultRegs.fail · e') (attempt_err_res hr)⟩

/-- What `status` and `info` say of an error, with the registers an operation clears (60_exceptions.md R205, R215). -/
theorem ResultRegs.start_fail (r : ResultRegs) (e : Err) :
    r.start.fail e = { status := e.status, info := e.info, warn := false, busy := false, result := r.result } := rfl

section
variable {n : Word} {data : List Byte} {e1 e2 e3 e4 e5 : EnvEvent}
  (h : s.env.script = e1 :: e2 :: e3 :: e4 :: e5 :: rest) (ok : ∀ e ∈ [e1, e2, e3, e4, e5], e.ok = true)
include h ok

theorem hsRd_refused (i : BitVec 1) (a n : Word) :
    let id := (s.tag.acts s.par e1.tag).nextId s.par
    let t4 := (s.tag.afterReadTrigger s.par a n e1.tag e2.tag e3.tag).acts s.par e4.tag
    let r := t4.mailbox s.par (replyOffset s.par) 2
    replyVerdict id (r.getD 0 0) (r.getD 1 0) = some e →
      ∃ t, exec (.hsRd i a n) s = .next t ∧ t.eng.idmsg = id ∧ t.eng.phase = .idle ∧ t.tag = t4 ∧
        t.env = { script := e5 :: rest, taken := s.env.taken + 4 } ∧ t.res = s.res.start.fail e := by
  intro id t4 r hv
  simp only [List.forall_mem_cons] at ok
  obtain ⟨ok1, ok2, ok3, ok4, -⟩ := ok
  exact ⟨_, exec_hsRd i a n s,
    (attempt_rd_refused (s := s.begin.latchRd a n) rfl h ok1 ok2 ok3 ok4 hv).attemptEnd .rd⟩

theorem hsWr_refused (i : BitVec 1) (a : Word) (hd : data.length = 2 * n.toNat) (hn : n.toNat ≤ 200) :
    let id := (s.tag.acts s.par e1.tag).nextId s.par
    let t5 := (s.tag.afterWriteTrigger s.par a n data e1.tag e2.tag e3.tag e4.tag).acts s.par e5.tag
    let r := t5.mailbox s.par (replyOffset s.par) 2
    replyVerdict id (r.getD 0 0) (r.getD 1 0) = some e →
      ∃ t, exec (.hsWr i a n data) s = .next t ∧ t.eng.idmsg = id ∧ t.eng.phase = .idle ∧ t.tag = t5 ∧
        t.env = { script := rest, taken := s.env.taken + 5 } ∧ t.res = s.res.start.fail e := by
  intro id t5 r hv
  simp only [List.forall_mem_cons] at ok
  obtain ⟨ok1, ok2, ok3, ok4, ok5, -⟩ := ok
  have key := attempt_wr_refused (e := e) (s := s.begin.latchWr a n data) rfl h ok1 ok2 ok3 ok4 ok5
  rw [latchWr_dbuf_take hd hn] at key
  exact ⟨_, exec_hsWr i a n data s, (key hv).attemptEnd .wr⟩

end

/-- Settles O21: the reply fails one of P5's tests, and the attempt ends with that test's error. -/
theorem Attempt.replyVerdict : Obligations.ReplyVerdict := by
  intro i a n data s e1 e2 e3 e4 e5 rest b0 b1 h ok hd hn p id t4 t5 verdict hne
  obtain ⟨e, hv, hstatus, hinfo⟩ := replyVerdict_refuses (idmsg := id) hne
  have shown : s.res.start.fail e = verdict := by rw [ResultRegs.start_fail, hstatus, hinfo]
  rw [← shown]
  exact ⟨fun hr => hsRd_refused h ok i a n (by rw [hr]; exact hv),
    fun hr => hsWr_refused h ok i a hd hn (by rw [hr]; exact hv)⟩

/-- Settles O22: P1 chooses another id than the one it finds, so P5's first test fails. -/
theorem staleReplyIsTimeout : Obligations.StaleReplyIsTimeout := by
  intro i a n data s e1 e2 e3 e4 e5 rest h ok hd hn p found
  have stale : ∀ b code : Byte, b = found → replyVerdict ((s.tag.acts p e1.tag).nextId p) b code =
      some (.protocolTimeout 1) := fun b code hb => replyVerdict_wrong_id (hb ▸ (nextId_ne found).symm) code
  refine ⟨fun hr => ?_, fun hr => ?_⟩
  · obtain ⟨t, ht, -, -, -, -, res⟩ := hsRd_refused h ok i a n (stale _ _ hr)
    exact ⟨t, ht, by rw [res]; rfl, by rw [res]; rfl, by rw [res]; rfl⟩
  · obtain ⟨t, ht, -, -, -, -, res⟩ := hsWr_refused h ok i a hd hn (stale _ _ hr)
    exact ⟨t, ht, by rw [res]; rfl, by rw [res]; rfl, by rw [res]; rfl⟩

/-! ### The message id (R131, R142) -/

/-- A sequence leaves `idmsg` as it was if both its parts do. -/
theorem Res.andThen_idmsg {α β : Type} {r : Res α} {f : α → State → Res β} (h : r.state.eng.idmsg = s.eng.idmsg)
    (hf : ∀ v t, (f v t).state.eng.idmsg = t.eng.idmsg) : (r.andThen f).state.eng.idmsg = s.eng.idmsg :=
  Res.andThen_keeps (R := fun a b => b.eng.idmsg = a.eng.idmsg) (fun h k => k.trans h) h hf

theorem memRead_idmsg (bank : Byte) (offset : Word) (len : Nat) (s : State) :
    (memRead bank offset len s).state.eng.idmsg = s.eng.idmsg := by
  obtain ⟨-, h⟩ | ⟨-, h⟩ := memRead_ends bank offset len s <;> rw [h] <;> rfl

theorem memWrite_idmsg (bank : Byte) (offset : Word) (bytes : List Byte) (s : State) :
    (memWrite bank offset bytes s).state.eng.idmsg = s.eng.idmsg := by
  unfold memWrite
  cases s.event.ok <;> rfl

theorem triggerRead_idmsg (s : State) : (triggerRead s).state.eng.idmsg = s.eng.idmsg := by
  unfold triggerRead
  cases s.event.ok <;> cases s.event.reached <;> rfl

theorem phaseP2_idmsg (s : State) : (phaseP2 s).state.eng.idmsg = s.eng.idmsg :=
  memWrite_idmsg _ _ _ (s.setPhase .p2)

theorem phaseP2B_idmsg (s : State) : (phaseP2B s).state.eng.idmsg = s.eng.idmsg := by
  unfold phaseP2B
  cases s.eng.kind with
  | rd => rfl
  | wr => exact memWrite_idmsg _ _ _ (s.setPhase .p2b)

theorem phaseP3_idmsg (s : State) : (phaseP3 s).state.eng.idmsg = s.eng.idmsg :=
  Res.andThen_idmsg (triggerRead_idmsg (s.setPhase .p3)) fun _ _ => rfl

theorem phaseP6_idmsg (s : State) : (phaseP6 s).state.eng.idmsg = s.eng.idmsg := by
  unfold phaseP6
  cases s.eng.kind with
  | rd => exact Res.andThen_idmsg (memRead_idmsg _ _ _ (s.setPhase .p6)) fun _ _ => rfl
  | wr => rfl

theorem afterReply_idmsg (id code : Byte) (s : State) : (afterReply id code s).state.eng.idmsg = s.eng.idmsg := by
  unfold afterReply
  cases replyVerdict s.eng.idmsg id code with
  | some e => rfl
  | none => exact phaseP6_idmsg s

theorem phaseP5_idmsg (s : State) : (phaseP5 s).state.eng.idmsg = s.eng.idmsg :=
  Res.andThen_idmsg (memRead_idmsg _ _ _ (s.setPhase .p5)) fun _ t => afterReply_idmsg _ _ t

/-- P1 chooses the id by the reply slot as its read finds it. -/
theorem phaseP1_ok_idmsg {v : Unit} (h : phaseP1 s = .ok v t) : t.eng.idmsg = nextId s.transact.replyId := by
  obtain ⟨r, u, hr, h⟩ := Res.andThen_ok h
  obtain ⟨-, k⟩ | ⟨-, k⟩ := memRead_ends s.par.miBank (replyOffset s.par) 2 (s.setPhase .p1)
  · cases k.symm.trans hr
    cases h
    rfl
  · cases k.symm.trans hr

/-- What P2 to P5 leave of the id that P1 chose. -/
theorem afterP1_idmsg (s : State) :
    ((phaseP2 s).andThen fun _ s => (phaseP2B s).andThen fun _ s => (phaseP3 s).andThen fun _ s =>
      (phaseP4 s).andThen fun _ s => phaseP5 s).state.eng.idmsg = s.eng.idmsg := by
  refine Res.andThen_idmsg (phaseP2_idmsg s) fun _ t => ?_
  refine Res.andThen_idmsg (phaseP2B_idmsg t) fun _ u => ?_
  refine Res.andThen_idmsg (phaseP3_idmsg u) fun _ v => ?_
  exact phaseP5_idmsg _

/-- The id of a successful attempt is the one its P1 chose. -/
theorem attempt_ok_idmsg {d : List Byte} (h : attempt s = .ok d t) : t.eng.idmsg = nextId s.transact.replyId := by
  unfold attempt at h
  cases hr : phaseP1 s with
  | err e u =>
    rw [hr] at h
    cases h
  | ok v u =>
    rw [hr, Res.ok_andThen] at h
    have later := congrArg (fun r : Res (List Byte) => r.state.eng.idmsg) h
    rw [Res.inState_state] at later
    exact later.symm.trans ((afterP1_idmsg u).trans (phaseP1_ok_idmsg hr))

theorem attemptEnd_ok_idmsg {kind : Kind} (h : (attemptEnd kind (attempt s)).res.status = .ok) :
    (attemptEnd kind (attempt s)).eng.idmsg = nextId s.transact.replyId := by
  obtain ⟨d, t, hd⟩ := attemptEnd_status_ok h
  rw [hd, attemptEnd_ok, State.succeed_eng]
  exact attempt_ok_idmsg hd

/-- An attempt run alone that succeeds chose its id by the reply slot as it then stood. -/
theorem exec_hs_ok_idmsg {i : BitVec 1} {a n : Word} {data : List Byte} {x : Instr}
    (hx : x = .hsRd i a n ∨ x = .hsWr i a n data) (h : exec x s = .next t) (hok : t.res.status = .ok) :
    t.eng.idmsg = nextId s.transact.replyId := by
  obtain rfl | rfl := hx
  · rw [exec_hsRd] at h
    cases h
    exact attemptEnd_ok_idmsg (s := s.begin.latchRd a n) hok
  · rw [exec_hsWr] at h
    cases h
    exact attemptEnd_ok_idmsg (s := s.begin.latchWr a n data) hok

/-- Settles O24: the second attempt's id is not the one it finds, which is the first attempt's. -/
theorem consecutiveIdsAlternate : Obligations.ConsecutiveIdsAlternate := by
  intro i j a n b m d d' x y s t u _ hy _ _ h hok found
  rw [exec_hs_ok_idmsg hy h hok, found]
  exact nextId_ne _

/-! ### A reply word that comes alone (assumption 16) -/

/-- With the attempt's id the word leaves P6 to be done (R137). -/
theorem exec_rplAck_passed {id : Byte} (hid : id = s.eng.idmsg) :
    exec (.rplAck id) s =
      .next ((phaseP6 (s.begin.setPhase .p5)).andThen fun d s => .ok (transferValue s.eng.kind d) s).finish := by
  rw [← afterReply_ack (s := s.begin.setPhase .p5) hid]
  rfl

/-- Settles O26: P5's verdict, then P6 of a READ. -/
theorem rplAckCompletes : Obligations.RplAckCompletes := by
  intro id s hn hb
  refine ⟨fun hid => ?_, fun hid hk => ?_, fun hid hk e rest h ok => ?_⟩
  · exact operate_replyRead_raises (afterReply_wrong_id hid)
  · rw [exec_rplAck_passed hid, phaseP6_skipped (s := s.begin.setPhase .p5) hk, Res.ok_andThen]
    dsimp only [State.setPhase_eng, State.begin_eng]
    rw [hk]
    rfl
  · rw [exec_rplAck_passed hid, phaseP6_scripted (s := s.begin.setPhase .p5) hk hn hb h ok, Res.ok_andThen]
    dsimp only [State.setPhase_eng, State.begin_eng]
    rw [hk]
    rfl

/-- Settles O27: P5 tests the id first. -/
theorem rplNackCompletes : Obligations.RplNackCompletes := by
  intro id s
  by_cases hid : id = s.eng.idmsg
  · rw [if_pos hid]
    exact operate_replyRead_raises (afterReply_nack hid)
  · rw [if_neg hid]
    exact operate_replyRead_raises (afterReply_wrong_id hid)

end Sys2Proof.Machine
end

section
/-! PROOF of the statement about a transport failure: the calls of an attempt in their order, each with its phase. -/

namespace Sys2Proof.Machine

variable {s : State} {kind : Kind} {ph : Phase} {phases : List Phase} {rest : List EnvEvent}

/-! ### Pieces that make transport calls -/

/-- `t` once the next transport calls are made, this many, with this script still to come. -/
def Called (calls : Nat) (rest : List EnvEvent) (s t : State) : Prop :=
  t.env.script = rest ∧ busCalls t.bus = busCalls s.bus + calls

/-- A piece of an attempt that a transport failure in this phase has ended. -/
def FailedIn {α : Type} (ph : Phase) (calls : Nat) (rest : List EnvEvent) (s : State) : Res α → Prop
  | .ok _ _ => False
  | .err e t => e = .transportError ph ∧ Called calls rest s t

/-- A piece of an attempt that went on to the next, the kind of the attempt as it was. -/
def PassedOn {α : Type} (calls : Nat) (rest : List EnvEvent) (s : State) : Res α → Prop
  | .ok _ t => t.eng.kind = s.eng.kind ∧ Called calls rest s t
  | .err _ _ => False

/-- In an attempt of this kind the piece makes one transport call, in this phase, and fails exactly if the call does. -/
structure CallsIn {α : Type} (kind : Kind) (ph : Phase) (f : State → Res α) : Prop where
  passes : ∀ {s e rest}, s.eng.kind = kind → s.env.script = e :: rest → e.ok = true → PassedOn 1 rest s (f s)
  fails : ∀ {s e rest}, s.eng.kind = kind → s.env.script = e :: rest → e.ok = false → FailedIn ph 1 rest s (f s)

/-- In an attempt of this kind the piece makes its transport calls in these phases: the first of them that fails ends it
(41_handshake.md R138). -/
def FailsAlong {α : Type} (kind : Kind) (phases : List Phase) (f : State → Res α) : Prop :=
  ∀ (s : State) (done : List EnvEvent) (bad : EnvEvent) (rest : List EnvEvent) (ph : Phase), s.eng.kind = kind →
    s.env.script = done ++ bad :: rest → (∀ e ∈ done, e.ok = true) → bad.ok = false →
    phases[done.length]? = some ph → FailedIn ph (done.length + 1) rest s (f s)

theorem Called.trans {j k : Nat} {later : List EnvEvent} {a b c : State} (h : Called j later a b)
    (g : Called k rest b c) : Called (k + j) rest a c :=
  ⟨g.1, by rw [g.2, h.2]; omega⟩

theorem FailedIn.after {α : Type} {j k : Nat} {later : List EnvEvent} {t : State} {r : Res α} (h : Called j later s t)
    (g : FailedIn ph k rest t r) : FailedIn ph (k + j) rest s r := by
  cases r with
  | ok v u => exact g
  | err e u => exact ⟨g.1, h.trans g.2⟩

theorem FailedIn.andThen {α β : Type} {k : Nat} {r : Res α} (h : FailedIn ph k rest s r) (f : α → State → Res β) :
    FailedIn ph k rest s (r.andThen f) := by
  cases r with
  | ok v t => exact h.elim
  | err e t => exact h

theorem PassedOn.andThen {α β : Type} {j k : Nat} {later : List EnvEvent} {r : Res α} {f : α → State → Res β}
    (h : PassedOn j later s r)
    (hf : ∀ v t, t.eng.kind = s.eng.kind → t.env.script = later → FailedIn ph k rest t (f v t)) :
    FailedIn ph (k + j) rest s (r.andThen f) := by
  cases r with
  | ok v t => exact FailedIn.after h.2 (hf v t h.1 h.2.1)
  | err e t => exact h.elim

/-- A call, then the calls of the rest. -/
theorem CallsIn.andThen {α β : Type} {f : State → Res α} {g : α → State → Res β} (h : CallsIn kind ph f)
    (hg : ∀ v, FailsAlong kind phases (g v)) : FailsAlong kind (ph :: phases) fun s => (f s).andThen g := by
  intro s done bad rest ph' hk hs ok hbad hph
  cases done with
  | nil =>
    cases Option.some.inj hph
    exact (h.fails hk hs hbad).andThen g
  | cons e done =>
    obtain ⟨oke, ok⟩ := List.forall_mem_cons.mp ok
    exact (h.passes hk hs oke).andThen fun v t ht later => hg v t done bad rest ph' (ht.trans hk) later ok hbad hph

/-- A phase that this kind of attempt skips. -/
theorem FailsAlong.skips {α β : Type} {f : State → Res α} {g : α → State → Res β} {v : α}
    (h : ∀ {s}, s.eng.kind = kind → f s = .ok v s) (hg : FailsAlong kind phases (g v)) :
    FailsAlong kind phases fun s => (f s).andThen g := by
  intro s done bad rest ph hk hs ok hbad hph
  dsimp only
  rw [h hk]
  exact hg s done bad rest ph hk hs ok hbad hph

/-- A call that ends the list: what follows a success of it is not looked at. -/
theorem FailsAlong.last {α : Type} {f : State → Res α}
    (h : ∀ {s e rest}, s.eng.kind = kind → s.env.script = e :: rest → e.ok = false → FailedIn ph 1 rest s (f s)) :
    FailsAlong kind [ph] f := by
  intro s done bad rest ph' hk hs ok hbad hph
  cases done with
  | nil =>
    cases Option.some.inj hph
    exact h hk hs hbad
  | cons e done => cases hph

theorem FailsAlong.toIdle {α : Type} {f : State → Res α} (h : FailsAlong kind phases f) :
    FailsAlong kind phases fun s => (f s).inState fun s => s.setPhase .idle := by
  intro s done bad rest ph hk hs ok hbad hph
  have key := h s done bad rest ph hk hs ok hbad hph
  dsimp only
  cases hr : f s <;> rw [hr] at key <;> exact key

/-! ### The phases -/

theorem phaseP1_callsIn : CallsIn kind .p1 phaseP1 where
  passes _ hs ok := by
    rw [phaseP1_scripted hs ok]
    exact ⟨rfl, rfl, rfl⟩
  fails _ hs bad := by
    rw [phaseP1_scripted_fails hs bad]
    exact ⟨rfl, rfl, rfl⟩

theorem phaseP2_callsIn : CallsIn kind .p2 phaseP2 where
  passes _ hs ok := by
    rw [phaseP2_scripted hs ok]
    exact ⟨rfl, rfl, rfl⟩
  fails _ hs bad := by
    rw [phaseP2_scripted_fails hs bad]
    exact ⟨rfl, rfl, rfl⟩

theorem phaseP2B_callsIn : CallsIn .wr .p2b phaseP2B where
  passes hk hs ok := by
    rw [phaseP2B_scripted hk hs ok]
    exact ⟨rfl, rfl, rfl⟩
  fails hk hs bad := by
    rw [phaseP2B_scripted_fails hk hs bad]
    exact ⟨rfl, rfl, rfl⟩

theorem phaseP3_callsIn : CallsIn kind .p3 phaseP3 where
  passes _ hs ok := by
    rw [phaseP3_scripted hs ok]
    exact ⟨rfl, rfl, rfl⟩
  fails _ hs bad := by
    rw [phaseP3_scripted_fails hs bad]
    exact ⟨rfl, rfl, rfl⟩

/-- P4 waits and makes no call (R135), so P5's read is the last call before the verdict. -/
theorem phaseP4_phaseP5_failsAlong :
    FailsAlong kind [.p5] fun s => (phaseP4 s).andThen fun _ s => phaseP5 s := by
  refine FailsAlong.last fun {s e rest} _ hs bad => ?_
  rw [phaseP4_ends, Res.ok_andThen, phaseP5_scripted_fails (by exact hs) bad]
  exact ⟨rfl, rfl, rfl⟩

theorem phaseP3_phaseP5_failsAlong :
    FailsAlong kind [.p3, .p5] fun s =>
      (phaseP3 s).andThen fun _ s => (phaseP4 s).andThen fun _ s => phaseP5 s :=
  phaseP3_callsIn.andThen fun _ => phaseP4_phaseP5_failsAlong

/-! ### The attempt -/

/-- The phases in which an attempt calls the transport up to P5's verdict (R130). -/
def callPhases : Kind → List Phase
  | .rd => [.p1, .p2, .p3, .p5]
  | .wr => [.p1, .p2, .p2b, .p3, .p5]

theorem attempt_failsAlong : ∀ kind, FailsAlong kind (callPhases kind) attempt
  | .rd => FailsAlong.toIdle <| phaseP1_callsIn.andThen fun _ => phaseP2_callsIn.andThen fun _ =>
      FailsAlong.skips phaseP2B_skipped phaseP3_phaseP5_failsAlong
  | .wr => FailsAlong.toIdle <| phaseP1_callsIn.andThen fun _ => phaseP2_callsIn.andThen fun _ =>
      phaseP2B_callsIn.andThen fun _ => phaseP3_phaseP5_failsAlong

/-- The call that fails is the one the number of completed calls says. -/
theorem attempt_failedIn {done : List EnvEvent} {bad : EnvEvent} {k : Nat} (hs : s.env.script = done ++ bad :: rest)
    (ok : ∀ e ∈ done, e.ok = true) (hbad : bad.ok = false) (hk : s.eng.kind = kind) (hd : done.length = k)
    (hlt : k < (callPhases kind).length) :
    FailedIn ((callPhases kind).getD k .idle) (k + 1) rest s (attempt s) := by
  subst hd
  refine attempt_failsAlong kind s done bad rest _ hk hs ok hbad ?_
  rw [List.getD_eq_getElem _ _ hlt, List.getElem?_eq_getElem hlt]

/-- After ACK, the data fetch of a READ is the fifth call (R137). -/
theorem attempt_failedIn_p6 {e1 e2 e3 e4 bad : EnvEvent} (k : s.eng.kind = .rd)
    (h : s.env.script = e1 :: e2 :: e3 :: e4 :: bad :: rest)
    (ok1 : e1.ok = true) (ok2 : e2.ok = true) (ok3 : e3.ok = true) (ok4 : e4.ok = true) (hbad : bad.ok = false) :
    let id := (s.tag.acts s.par e1.tag).nextId s.par
    let r := ((s.tag.afterReadTrigger s.par s.eng.a s.eng.n e1.tag e2.tag e3.tag).acts s.par e4.tag).mailbox s.par
      (replyOffset s.par) 2
    r = [id, ackCode] → FailedIn .p6 5 rest s (attempt s) := by
  intro id r hr
  have passed : replyVerdict id (r.getD 0 0) (r.getD 1 0) = none := by
    rw [hr]
    exact replyVerdict_ack rfl
  rw [attempt_rd_reply k h ok1 ok2 ok3 ok4, afterReply_passes passed,
    phaseP6_scripted_fails (by exact k) (by rfl) hbad]
  exact ⟨rfl, rfl, rfl⟩

/-- Run alone, it shows that failure to the host and no result (60_exceptions.md R206, R208). -/
theorem FailedIn.attemptEnd {k : Nat} (h : FailedIn ph k rest s (attempt s)) (kind : Kind) :
    let t := attemptEnd kind (attempt s)
    t.res.status = .transportError ∧ t.res.info = ph.infoCode ∧ t.res.result = s.res.result ∧ t.env.script = rest ∧
      busCalls t.bus = busCalls s.bus + k := by
  cases hr : attempt s with
  | ok d t =>
    rw [hr] at h
    exact h.elim
  | err e t =>
    rw [hr] at h
    obtain ⟨rfl, hs, hb⟩ := h
    have result : t.res.result = s.res.result := congrArg ResultRegs.result (attempt_err_res hr)
    exact ⟨rfl, rfl, result, hs, hb⟩

/-- The information word of the failed call, read off the list of the words (60_exceptions.md R206). -/
theorem callPhases_infoCode (kind : Kind) (k : Nat) :
    ((callPhases kind).getD k .idle).infoCode = ((callPhases kind).map Phase.infoCode).getD k 0 :=
  (List.getD_map (d := .idle) (f := Phase.infoCode) ..).symm

/-- Settles O23: the failed call's phase is the next in the attempt's list of calls, and P6 after ACK. -/
theorem transportFailureEndsAttempt : Obligations.TransportFailureEndsAttempt := by
  intro i a n data s done bad rest hs ok hbad
  refine ⟨fun k hd hlt => ?_, fun e1 e2 e3 e4 hd hr => ?_, fun k hd hlt => ?_⟩
  · obtain ⟨status, info, others⟩ :=
      (attempt_failedIn (s := s.begin.latchRd a n) hs ok hbad rfl hd hlt).attemptEnd .rd
    exact ⟨_, exec_hsRd i a n s, status, info.trans (callPhases_infoCode .rd k), others⟩
  · subst hd
    simp only [List.forall_mem_cons] at ok
    obtain ⟨ok1, ok2, ok3, ok4, -⟩ := ok
    exact ⟨_, exec_hsRd i a n s,
      (attempt_failedIn_p6 (s := s.begin.latchRd a n) rfl hs ok1 ok2 ok3 ok4 hbad hr).attemptEnd .rd⟩
  · obtain ⟨status, info, others⟩ :=
      (attempt_failedIn (s := s.begin.latchWr a n data) hs ok hbad rfl hd hlt).attemptEnd .wr
    exact ⟨_, exec_hsWr i a n data s, status, info.trans (callPhases_infoCode .wr k), others⟩

end Sys2Proof.Machine
end

section
/-! PROOF of the statements about bad operands: the verdict of `CHK` in its cases, and the operations it ends before any transport
call. -/

namespace Sys2Proof.Machine

variable {s : State} {B Lb : Word} {e : Err}

/-! ### The verdict (42_transfer_retry.md R150) -/

theorem chkVerdict_odd_address (h : B.toNat % 2 = 1) (Lb : Word) : chkVerdict B Lb = some (.invalidArgument 1) :=
  if_pos (by omega)

theorem chkVerdict_bad_length (hB : B.toNat % 2 = 0) (hL : Lb.toNat > 400 ∨ Lb.toNat = 0 ∨ Lb.toNat % 2 = 1) :
    chkVerdict B Lb = some (.invalidArgument 2) := by
  unfold chkVerdict maxBytes
  rw [if_neg (by omega)]
  split_ifs
  · rfl
  · rfl
  · rfl
  · omega

/-! ### What a failed check ends (60_exceptions.md R207, R214) -/

/-- An operation that would give the host the value of a piece which raises at once. -/
theorem operate_value_raises {α : Type} {r : State → Res α} {f : α → State → Option OpResult} {ph : Phase}
    (h : r s.begin = .err e (s.begin.setPhase ph)) :
    operate (fun s => (r s).andThen fun v s => .ok (f v s) s) s = .next (s.failed e.status e.info) :=
  operate_raises (by rw [h]; rfl)

theorem transferRd_fails (h : chkVerdict B Lb = some e) (s : State) : transferRd B Lb s = .err e (s.setPhase .chk) := by
  unfold transferRd
  rw [check_fails h, Res.err_andThen]

theorem transferWr_fails (h : chkVerdict B Lb = some e) (data : List Byte) (s : State) :
    transferWr B Lb data s = .err e (s.setPhase .chk) := by
  unfold transferWr
  rw [check_fails h, Res.err_andThen]

theorem exec_chk_fails (h : chkVerdict B Lb = some e) (s : State) :
    exec (.chk B Lb) s = .next (s.failed e.status e.info) :=
  operate_value_raises (check_fails h s.begin)

theorem exec_xferRd_fails (h : chkVerdict B Lb = some e) (s : State) :
    exec (.xferRd B Lb) s = .next (s.failed e.status e.info) :=
  operate_value_raises (transferRd_fails h s.begin)

theorem exec_xferWr_fails (h : chkVerdict B Lb = some e) (data : List Byte) (s : State) :
    exec (.xferWr B Lb data) s = .next (s.failed e.status e.info) :=
  operate_value_raises (transferWr_fails h data s.begin)

/-- Both transfers end by their check in the same way. -/
theorem exec_transfer_fails {data : List Byte} {i : Instr} (h : chkVerdict B Lb = some e)
    (hi : i = .xferRd B Lb ∨ i = .xferWr B Lb data) (s : State) : exec i s = .next (s.failed e.status e.info) := by
  obtain rfl | rfl := hi
  · exact exec_xferRd_fails h s
  · exact exec_xferWr_fails h data s

theorem exec_chk_passes (h : chkVerdict B Lb = none) (s : State) :
    exec (.chk B Lb) s = .next { s with
      eng := { s.eng with phase := .idle, a := wordForm B, n := wordForm Lb }
      res := { s.res with status := .ok, info := 0, warn := false, busy := false } } := by
  have run : exec (.chk B Lb) s = .next ((check B Lb s.begin).andThen fun _ s => .ok none s).finish := rfl
  rw [run, check_passes h]
  rfl

/-- Settles O17: the three verdicts of the check. -/
theorem chkOutcomes : Obligations.ChkOutcomes := by
  intro B Lb s
  split_ifs with hB hL
  · exact exec_chk_fails (chkVerdict_odd_address hB Lb) s
  · exact exec_chk_fails (chkVerdict_bad_length (by omega) hL) s
  · exact exec_chk_passes (chkVerdict_accepts (by omega) (by omega) (by omega) (by omega)) s

/-! ### Addresses above the register space (43_register_cache.md R170) -/

theorem addressOk_false {address : Word} (h : address.toNat > 0x1089) : ¬ addressOk address = true :=
  fun ok => Nat.not_le.mpr h (of_decide_eq_true ok)

theorem getWord_bad_address {address : Word} (h : address.toNat > 0x1089) (s : State) :
    getWord address s = .err (.invalidArgument 1) s :=
  if_neg (addressOk_false h)

theorem setWord_bad_address {address : Word} (h : address.toNat > 0x1089) (value : Word) (s : State) :
    setWord address value s = .err (.invalidArgument 1) s :=
  if_neg (addressOk_false h)

theorem exec_get_bad_address {address : Word} (h : address.toNat > 0x1089) (s : State) :
    exec (.get address) s = .next (s.failed .invalidArgument 1) :=
  operate_value_raises (ph := s.eng.phase) (getWord_bad_address h s.begin)

theorem exec_set_bad_address {address : Word} (h : address.toNat > 0x1089) (value : Word) (s : State) :
    exec (.set address value) s = .next (s.failed .invalidArgument 1) :=
  operate_value_raises (ph := s.eng.phase) (setWord_bad_address h value s.begin)

/-! ### `XFER.WR` with a wrong number of data bytes (assumption 21) -/

theorem decodeHop_dataLength {o : Operands} (h : o.data.length ≠ o.Lb.toNat) :
    decodeHop 0x20 o = .error .dataLength :=
  if_neg (α := Except DecodeError Instr) h

theorem rejectRequest_ends (info : Word) (s : State) :
    rejectRequest info s = .next (s.failed .invalidArgument info) :=
  operate_raises (e := .invalidArgument info) (ph := s.eng.phase) rfl

theorem undecoded_dataLength (w : Byte) (o : Operands) (s : State) :
    undecoded (.hop w o) .dataLength s =
      .next (s.failed .invalidArgument (if o.B.toNat % 2 = 1 then 1 else 2)) := by
  have odd : (if o.B.toNat % 2 ≠ 0 then 1 else 2 : Word) = if o.B.toNat % 2 = 1 then 1 else 2 :=
    if_congr (by omega) rfl rfl
  rw [← odd]
  exact rejectRequest_ends _ s

/-- Settles O18: each operand check raises before the first phase of an attempt. -/
theorem invalidArgumentsMakeNoCall : Obligations.InvalidArgumentsMakeNoCall := by
  intro B Lb address value data s
  simp only [List.forall_mem_cons, List.not_mem_nil, false_imp_iff, implies_true, and_true]
  refine ⟨fun hB => ?_, fun hB hL => ?_, fun ha => ?_, fun ops rest hport hbusy hlen => ?_⟩
  · have hv := chkVerdict_odd_address hB Lb
    exact ⟨exec_xferRd_fails hv s, exec_xferWr_fails hv data s⟩
  · have hv := chkVerdict_bad_length hB hL
    exact ⟨exec_xferRd_fails hv s, exec_xferWr_fails hv data s⟩
  · exact ⟨exec_get_bad_address ha s, exec_set_bad_address ha value s⟩
  · rw [step_run hport hbusy, runFrame_undecoded (f := .hop 0x20 ops) (decodeHop_dataLength hlen)]
    exact undecoded_dataLength 0x20 ops _

end Sys2Proof.Machine
end

section
/-! PROOF of the statements about the retry wrapper: what a transfer runs, how a dead transport ends it, how many attempts and calls
it makes, and what it says when it gives up. -/

namespace Sys2Proof.Machine

variable {s t u : State} {e : Err} {rest : List EnvEvent} {B Lb a n : Word} {data : List Byte} {i : Instr}

/-! ### What a transfer runs (42_transfer_retry.md R151 to R153) -/

/-- The kind of an attempt's operands. -/
def kindOf : AttemptOp → Kind
  | .rd _ _ => .rd
  | .wr _ _ _ => .wr

/-- The instruction begins, latches these operands and leaves to the host what the retry wrapper comes to. -/
def RunsRetry (op : AttemptOp) (i : Instr) : Prop :=
  ∀ s : State, ∃ ph, exec i s = .next (attemptEnd (kindOf op) (retry ((s.begin.setPhase ph).latchOp op)))

/-- The kind latched stands for all attempts, so `RETRY` run alone gives the host what a transfer of that kind does. -/
theorem retry_runsRetry (op : AttemptOp) : RunsRetry op (.retry op) := by
  intro s
  refine ⟨s.eng.phase, ?_⟩
  have run : exec (.retry op) s = .next ((retry (s.begin.latchOp op)).andThen fun d s =>
    .ok (transferValue s.eng.kind d) s).finish := rfl
  have latched : (s.begin.setPhase s.eng.phase).latchOp op = s.begin.latchOp op := rfl
  have kind : (s.begin.latchOp op).eng.kind = kindOf op := by cases op <;> rfl
  have kept := (retry_carries (s.begin.latchOp op)).kind
  rw [run, latched]
  cases hr : retry (s.begin.latchOp op) with
  | ok d t =>
    rw [hr] at kept
    have hk : t.eng.kind = kindOf op := kept.trans kind
    rw [Res.ok_andThen, attemptEnd_ok, hk]
    rfl
  | err e t => rfl

theorem xferRd_runsRetry (h : chkVerdict B Lb = none) : RunsRetry (.rd (wordForm B) (wordForm Lb)) (.xferRd B Lb) := by
  intro s
  have run : exec (.xferRd B Lb) s = .next (attemptEnd .rd (transferRd B Lb s.begin)) := rfl
  refine ⟨.chk, ?_⟩
  rw [run, transferRd, check_passes h]
  rfl

theorem xferWr_runsRetry (h : chkVerdict B Lb = none) (data : List Byte) :
    RunsRetry (.wr (wordForm B) (wordForm Lb) data) (.xferWr B Lb data) := by
  intro s
  have run : exec (.xferWr B Lb data) s = .next (attemptEnd .wr (transferWr B Lb data s.begin)) := rfl
  refine ⟨.chk, ?_⟩
  rw [run, transferWr, check_passes h]
  rfl

section
variable (h1 : 1 ≤ n.toNat) (h200 : n.toNat ≤ 200) (hB : B.toNat = 2 * a.toNat) (hL : Lb.toNat = 2 * n.toNat)
include h1 h200 hB hL

theorem xferRd_runsRetry_of_words : RunsRetry (.rd a n) (.xferRd B Lb) := by
  have key := xferRd_runsRetry (chkVerdict_of_words h1 h200 hB hL)
  rwa [wordForm_of_words hB, wordForm_of_words hL] at key

theorem xferWr_runsRetry_of_words (data : List Byte) : RunsRetry (.wr a n data) (.xferWr B Lb data) := by
  have key := xferWr_runsRetry (chkVerdict_of_words h1 h200 hB hL) data
  rwa [wordForm_of_words hB, wordForm_of_words hL] at key

end

/-- A transfer ends by its check, or it runs the retry wrapper. -/
theorem transfer_cases (hi : i = .xferRd B Lb ∨ i = .xferWr B Lb data) :
    (∃ w, ∀ s, exec i s = .next (s.failed .invalidArgument w)) ∨ ∃ op, RunsRetry op i := by
  cases hv : chkVerdict B Lb with
  | some e =>
    obtain rfl | rfl := chkVerdict_raises hv <;> exact .inl ⟨_, exec_transfer_fails hv hi⟩
  | none =>
    obtain rfl | rfl := hi
    · exact .inr ⟨_, xferRd_runsRetry hv⟩
    · exact .inr ⟨_, xferWr_runsRetry hv data⟩

/-! ### A dead transport -/

/-- `s` once a dead transport has failed an attempt at P1 (41_handshake.md R138), that failure logged. -/
def State.missed (s : State) (rest : List EnvEvent) : State :=
  { s with
    eng := { s.eng with phase := .idle }
    env := { script := rest, taken := s.env.taken + 1 }
    bus := .read s.par.miBank (replyOffset s.par) 2 none :: s.bus
    log := .failure s.eng.attempt .transportError 1 :: s.log }

/-- `s.missed`, the sequencer at P1 again for the next attempt (42_transfer_retry.md R151). -/
def State.missedOnce (s : State) (rest : List EnvEvent) : State :=
  (s.missed rest).setEng { s.eng with phase := .p1, attempt := s.eng.attempt + 1 }

theorem retryLoop_dead (left : Nat) (h : s.env.script = deadEvent :: rest) :
    retryLoop (left + 1) s = retryLoop left (s.missedOnce rest) :=
  retryLoop_retries (attempt_dead h rfl)

theorem retryLoop_dead_last (h : s.env.script = deadEvent :: rest) :
    retryLoop 0 s = .err (.communicationExhausted .transportError) (s.missed rest) :=
  retryLoop_gives_up (attempt_dead h rfl)

/-- `s` at P1 of its third attempt, the first two failed by a dead transport. -/
def State.missedTwice (s : State) (rest : List EnvEvent) : State :=
  let miss : BusEvent := .read s.par.miBank (replyOffset s.par) 2 none
  { s with
    eng := { s.eng with phase := .p1, attempt := 3 }
    env := { script := rest, taken := s.env.taken + 2 }
    bus := miss :: miss :: s.bus
    log := .failure 2 .transportError 1 :: .failure 1 .transportError 1 :: s.log }

/-- Two dead transactions leave the wrapper its third attempt. -/
theorem retry_dead_twice (h : s.env.script = deadEvent :: deadEvent :: rest) :
    retry s = retryLoop 0 (s.missedTwice rest) :=
  (retryLoop_dead 1 (s := s.setAttempt 1) h).trans (retryLoop_dead 0 rfl)

theorem retry_dead (h : s.env.script = deadEvent :: deadEvent :: deadEvent :: rest) :
    let miss : BusEvent := .read s.par.miBank (replyOffset s.par) 2 none
    retry s = .err (.communicationExhausted .transportError) { s with
      eng := { s.eng with phase := .idle, attempt := 3 }
      env := { script := rest, taken := s.env.taken + 3 }
      bus := miss :: miss :: miss :: s.bus
      log := .failure 3 .transportError 1 :: .failure 2 .transportError 1 :: .failure 1 .transportError 1 :: s.log } :=
  (retry_dead_twice h).trans (retryLoop_dead_last rfl)

/-- Every form of a READ or a WRITE of `n` words at `a` runs the wrapper on that attempt. -/
theorem runsRetry_of_words (h1 : 1 ≤ n.toNat) (h200 : n.toNat ≤ 200) (hB : B.toNat = 2 * a.toNat)
    (hL : Lb.toNat = 2 * n.toNat)
    (hi : i ∈ [Instr.xferRd B Lb, .xferWr B Lb data, .retry (.rd a n), .retry (.wr a n data)]) :
    RunsRetry (.rd a n) i ∨ RunsRetry (.wr a n data) i := by
  simp only [List.mem_cons, List.not_mem_nil, or_false] at hi
  obtain rfl | rfl | rfl | rfl := hi
  · exact .inl (xferRd_runsRetry_of_words h1 h200 hB hL)
  · exact .inr (xferWr_runsRetry_of_words h1 h200 hB hL data)
  · exact .inl (retry_runsRetry _)
  · exact .inr (retry_runsRetry _)

/-- Settles O28: whatever runs the wrapper meets the dead transport at P1 of each of its three attempts. -/
theorem deadTransportExhausts : Obligations.DeadTransportExhausts := by
  intro a n B Lb data i s rest h1 h200 hB hL hs hi miss
  obtain ⟨ph, run⟩ | ⟨ph, run⟩ := (runsRetry_of_words h1 h200 hB hL hi).imp (· s) (· s)
  all_goals
    rw [retry_dead (by exact hs), attemptEnd_err] at run
    exact ⟨_, run, rfl, rfl, rfl, rfl, rfl, rfl, rfl, rfl, rfl, rfl, rfl, rfl, rfl, rfl⟩

/-! ### The bounds (R158) -/

theorem attemptEnd_inward (kind : Kind) (r : Res (List Byte)) : Inward r.state (attemptEnd kind r) :=
  (r.andThen_ok_inward _).trans (Res.finish_inward _)

theorem attemptEnd_attempt (kind : Kind) (r : Res (List Byte)) :
    (attemptEnd kind r).eng.attempt = r.state.eng.attempt := by
  cases r <;> rfl

/-- Settles O30: the wrapper counts its attempts from 1 to 3, each of at most five calls. -/
theorem transfersAreBounded : Obligations.TransfersAreBounded := by
  intro B Lb data i s t hi h hne
  obtain ⟨w, failed⟩ | ⟨op, hop⟩ := transfer_cases hi
  · rw [failed] at h
    cases h
    exact absurd rfl hne
  · obtain ⟨ph, run⟩ := hop s
    rw [run] at h
    cases h
    have attempts := retry_attempt ((s.begin.setPhase ph).latchOp op)
    have before : Inward s ((s.begin.setPhase ph).latchOp op) :=
      Inward.trans (b := s.begin.setPhase ph) ⟨rfl, rfl, rfl, rfl⟩ (State.latchOp_inward _ op)
    rw [attemptEnd_attempt]
    exact ⟨attempts.1, attempts.2, RunsAttempts.calls ⟨_, before, rfl, rfl, .inr (attemptEnd_inward _ _)⟩⟩

/-! ### Giving up (R157) -/

/-- An attempt that fails leaves the count and the log to the wrapper. -/
theorem attempt_err_count (h : attempt s = .err e t) :
    e.retried = true ∧ t.eng.attempt = s.eng.attempt ∧ t.log = s.log := by
  have raised := attempt_raises s
  have carried := attempt_carries s
  have log := attempt_log s
  rw [h] at raised carried log
  exact ⟨raised, Nat.le_antisymm carried.attempt_le carried.le_attempt, log⟩

/-- A loop that gives up has failed, with attempts left, and gives up in the attempts after that. -/
theorem retryLoop_err_succ {left : Nat} (h : retryLoop (left + 1) s = .err e t) :
    ∃ (c : Err) (u : State), c.retried = true ∧ retryLoop left u = .err e t ∧ u.eng.attempt = s.eng.attempt + 1 ∧
      u.log = .failure s.eng.attempt c.status c.info :: s.log := by
  cases hr : attempt s with
  | ok d u =>
    rw [retryLoop_succeeds hr] at h
    cases h
  | err c u =>
    obtain ⟨retried, count, log⟩ := attempt_err_count hr
    rw [retryLoop_retries hr] at h
    exact ⟨c, _, retried, h, congrArg (· + 1) count, by rw [count, log]⟩

/-- The last attempt's error is the one the loop gives up with. -/
theorem retryLoop_err_zero (h : retryLoop 0 s = .err e t) :
    ∃ c : Err, c.retried = true ∧ e = .communicationExhausted c.status ∧
      t.log = .failure s.eng.attempt c.status c.info :: s.log := by
  cases hr : attempt s with
  | ok d u =>
    rw [retryLoop_succeeds hr] at h
    cases h
  | err c u =>
    obtain ⟨retried, count, log⟩ := attempt_err_count hr
    rw [retryLoop_gives_up hr] at h
    cases h
    exact ⟨c, retried, rfl, by rw [count, log]⟩

/-- The wrapper gives up at its third failure, the failures logged with their numbers. -/
theorem retry_err (h : retry s = .err e t) :
    ∃ e1 e2 e3 : Err, e1.retried = true ∧ e2.retried = true ∧ e3.retried = true ∧
      e = .communicationExhausted e3.status ∧
      t.log = .failure 3 e3.status e3.info :: .failure 2 e2.status e2.info :: .failure 1 e1.status e1.info :: s.log := by
  obtain ⟨e1, u, r1, h, count1, log1⟩ := retryLoop_err_succ (left := 1) (s := s.setAttempt 1) h
  obtain ⟨e2, v, r2, h, count2, log2⟩ := retryLoop_err_succ h
  obtain ⟨e3, r3, he, log3⟩ := retryLoop_err_zero h
  refine ⟨e1, e2, e3, r1, r2, r3, he, ?_⟩
  rw [log3, log2, log1, count2, count1]
  rfl

/-- Settles O31: of a transfer's ends, only that of a wrapper that gave up has this status. -/
theorem exhaustionCarriesThirdError : Obligations.ExhaustionCarriesThirdError := by
  intro B Lb data i s t hi h hstatus
  obtain ⟨w, failed⟩ | ⟨op, hop⟩ := transfer_cases hi
  · rw [failed] at h
    cases h
    cases hstatus
  · obtain ⟨ph, run⟩ := hop s
    rw [run] at h
    cases h
    cases hr : retry ((s.begin.setPhase ph).latchOp op) with
    | ok d u =>
      rw [hr] at hstatus
      cases hstatus
    | err e u =>
      obtain ⟨e1, e2, e3, r1, r2, r3, rfl, log⟩ := retry_err hr
      have latched : ((s.begin.setPhase ph).latchOp op).log = s.log := by cases op <;> rfl
      rw [latched] at log
      exact ⟨e1, e2, e3, r1, r2, r3, rfl, log⟩

end Sys2Proof.Machine
end

section
/-! PROOF of the statements about transfers the firmware answers: what an attempt answered with ACK leaves, at
whichever place of the wrapper it comes. The firmware's answer is the premise of 20_memory.md R66. -/

namespace Sys2Proof.Machine

variable {s t u : State} {rest : List EnvEvent} {a n : Word} {data : List Byte} {i : Instr}

/-! ### An attempt the firmware answers with ACK -/

/-- What an attempt answered with ACK leaves, its data and the tag's registers aside: the new id in the engine and in the reply
slot, the buffer as given, five events taken, nothing logged. -/
structure Answered (dbuf : List Byte) (rest : List EnvEvent) (s t : State) : Prop where
  traffic : Traffic s t
  eng : t.eng = { s.eng with idmsg := nextId s.replyId, phase := .idle, dbuf := dbuf }
  replyId : t.replyId = nextId s.replyId
  env : t.env = { script := rest, taken := s.env.taken + 5 }
  log : t.log = s.log

theorem attempt_ok_traffic {d : List Byte} (h : attempt s = .ok d t) : Traffic s t := by
  have key := attempt_traffic s
  rwa [h] at key

theorem replyId_of_mailbox {id code : Byte} (h : t.tag.mailbox t.par (replyOffset t.par) 2 = [id, code]) :
    t.replyId = id :=
  congrArg (fun r => r.getD 0 0) h

/-- A READ answered: the registers' words, high byte first, the registers as they were (41_handshake.md R140). -/
theorem attempt_rd_answered (hp : s.par.valid = true) (hb : s.eng.dbuf.length = 400) (k : s.eng.kind = .rd)
    (hn : s.eng.n.toNat ≤ 200) (hs : s.env.script = readScript (nextId s.replyId) 0xAC ++ rest) :
    let d := bytesOf (readRegs s.par s.tag.regs s.eng.a.toNat s.eng.n.toNat)
    ∃ t, attempt s = .ok d t ∧ Answered (d ++ s.eng.dbuf.drop (2 * s.eng.n.toNat)) rest s t ∧
      t.tag.regs = s.tag.regs := by
  intro d
  have fetched := pending_trigger_of_block (mailbox_staged_paramBlock hp s.tag (nextId s.replyId) s.par.cmdRead
    s.eng.a s.eng.n) hn
  obtain ⟨regs, -, reply, words, -⟩ := answer_read hp _ (nextId s.replyId) fetched rfl hn
  have run := attempt_rd_ack k hn hb hs rfl rfl rfl rfl rfl reply
  refine ⟨_, run.trans (congrArg (fun d => Res.ok d _) words), ⟨attempt_ok_traffic run, ?_, ?_, rfl, rfl⟩, regs⟩
  · exact congrArg (fun d => { s.eng with
      idmsg := nextId s.replyId, phase := .idle, dbuf := d ++ s.eng.dbuf.drop (2 * s.eng.n.toNat) }) words
  · exact replyId_of_mailbox reply

/-- A WRITE answered: the words at the front of the buffer in the registers (R141). -/
theorem attempt_wr_answered (hp : s.par.valid = true) (k : s.eng.kind = .wr) (hn : s.eng.n.toNat ≤ 200)
    (hd : s.eng.dbuf.take (byteCount s.eng.n) = data) (hl : data.length = 2 * s.eng.n.toNat)
    (hs : s.env.script = writeScript (nextId s.replyId) 0xAC ++ rest) :
    ∃ t, attempt s = .ok [] t ∧ Answered s.eng.dbuf rest s t ∧
      t.tag.regs = writeRegs s.par s.tag.regs s.eng.a.toNat (wordsOf data) := by
  have fetched := (firmwareFetchesStagedCommand s.par s.tag s.eng.a s.eng.n data hp hn hl).2
  obtain ⟨regs, -, reply, -⟩ := answer_write hp _ (nextId s.replyId) fetched rfl
  subst hd
  have run := attempt_wr_ack k hs rfl rfl rfl rfl rfl reply
  exact ⟨_, run, ⟨attempt_ok_traffic run, rfl, replyId_of_mailbox reply, rfl, rfl⟩, regs⟩

/-- The result registers of an operation that ends well, the value in `result` if it has one (60_exceptions.md R205). -/
theorem Answered.succeed_res {dbuf : List Byte} (h : Answered dbuf rest u t) (r : ResultRegs) (begun : u.res = r.start)
    (v : Option OpResult) :
    (t.succeed v).res =
      { status := .ok, info := 0, warn := false, busy := false, result := v.getD r.result } := by
  rw [State.succeed_res, h.traffic.res, begun]
  rfl

theorem Answered.succeed_attempt {dbuf : List Byte} (h : Answered dbuf rest u t) (v : Option OpResult) :
    (t.succeed v).eng.attempt = u.eng.attempt := by
  rw [State.succeed_eng, h.eng]

/-! ### At the first attempt (42_transfer_retry.md R152, R153) -/

/-- Settles O32: the first attempt is answered, and its bytes are the result. -/
theorem readTransferCompletes : Obligations.ReadTransferCompletes := by
  intro a n i s rest hp hb h1 h200 hs hi
  have runs : RunsRetry (.rd a n) i := by
    obtain rfl | ⟨B, Lb, hB, hL, rfl⟩ := hi
    · exact retry_runsRetry _
    · exact xferRd_runsRetry_of_words h1 h200 hB hL
  obtain ⟨ph, run⟩ := runs s
  obtain ⟨t, done, ans, regs⟩ :=
    attempt_rd_answered (s := ((s.begin.setPhase ph).latchOp (.rd a n)).setAttempt 1) hp hb rfl h200 hs
  rw [retry, retryLoop_succeeds done, attemptEnd_ok] at run
  refine ⟨_, _, run, ?_, fun _ => rfl, ans.succeed_res s.res rfl _, ?_, regs, ans.replyId, ans.env, ans.traffic.cache,
    ans.traffic.dec, ans.log, ans.traffic.par, ans.traffic.port⟩
  · rw [bytesOf_length, readRegs_length]
  · rw [State.succeed_eng, ans.eng]
    rfl

theorem wordsOf_length_of_words (hd : data.length = 2 * n.toNat) : (wordsOf data).length = n.toNat := by
  rw [wordsOf_length]
  omega

/-- Words written to registers that exist read back (20_memory.md R66 c). -/
theorem readRegs_of_written {p : Params} {r r' : WordMap} (hw : r' = writeRegs p r a.toNat (wordsOf data))
    (hd : data.length = 2 * n.toNat) (h : a.toNat + n.toNat ≤ 0x108A) :
    readRegs p r' a.toNat n.toNat = wordsOf data := by
  rw [hw, ← wordsOf_length_of_words hd]
  refine readRegs_writeRegs_same r a.toNat _ ?_
  rw [wordsOf_length_of_words hd]
  exact h

/-- The registers beside them are as before. -/
theorem readReg_of_written_outside {p : Params} {r r' : WordMap} {k : Nat}
    (hw : r' = writeRegs p r a.toNat (wordsOf data)) (hd : data.length = 2 * n.toNat)
    (h : k < a.toNat ∨ a.toNat + n.toNat ≤ k) : readReg p r' k = readReg p r k := by
  rw [hw]
  refine readReg_writeRegs_outside r _ fun j hj => ?_
  rw [wordsOf_length_of_words hd] at hj
  omega

/-- Settles O33: the first attempt is answered, and the firmware has written the staged words. -/
theorem writeTransferCompletes : Obligations.WriteTransferCompletes := by
  intro a n data i s rest hp hb h1 h200 hd hs hi
  have runs : RunsRetry (.wr a n data) i := by
    obtain rfl | ⟨B, Lb, hB, hL, rfl⟩ := hi
    · exact retry_runsRetry _
    · exact xferWr_runsRetry_of_words h1 h200 hB hL data
  obtain ⟨ph, run⟩ := runs s
  obtain ⟨t, done, ans, regs⟩ :=
    attempt_wr_answered (s := ((s.begin.setPhase ph).latchOp (.wr a n data)).setAttempt 1) hp rfl h200
      (latchWr_dbuf_take hd h200 (s.begin.setPhase ph) a) hd hs
  have latched : (data ++ s.eng.dbuf.drop data.length).take maxBytes = data ++ s.eng.dbuf.drop (2 * n.toNat) :=
    hd ▸ fillDbuf_fits hb (by omega)
  rw [retry, retryLoop_succeeds done, attemptEnd_ok] at run
  refine ⟨_, run, ans.succeed_res s.res rfl none, readRegs_of_written regs hd,
    fun r => readReg_of_written_outside regs hd, ?_, ans.replyId, ans.env, ans.traffic.cache, ans.traffic.dec, ans.log,
    ans.traffic.par, ans.traffic.port⟩
  rw [State.succeed_eng, ans.eng, ← latched]
  rfl

/-! ### At the third attempt (R151, R158) -/

/-- A READ whose third attempt is the first to be answered. -/
theorem RunsRetry.read_after_two_failures (runs : RunsRetry (.rd a n) i) (hp : s.par.valid = true)
    (hb : s.eng.dbuf.length = 400) (hn : n.toNat ≤ 200)
    (hs : s.env.script = deadEvent :: deadEvent :: (readScript (nextId s.replyId) 0xAC ++ rest)) :
    let d := bytesOf (readRegs s.par s.tag.regs a.toNat n.toNat)
    ∃ t, exec i s = .next t ∧ t.res = { status := .ok, info := 0, warn := false, busy := false, result := .bytes d } ∧
      t.eng.attempt = 3 ∧ t.log.length = s.log.length + 2 ∧ t.env.script = rest := by
  intro d
  obtain ⟨ph, run⟩ := runs s
  obtain ⟨t, done, ans, -⟩ := attempt_rd_answered
    (s := ((s.begin.setPhase ph).latchOp (.rd a n)).missedTwice (readScript (nextId s.replyId) 0xAC ++ rest))
    hp hb rfl hn rfl
  rw [retry_dead_twice (by exact hs), retryLoop_succeeds done, attemptEnd_ok] at run
  exact ⟨_, run, ans.succeed_res s.res rfl _, ans.succeed_attempt _, congrArg List.length ans.log,
    congrArg Environment.script ans.env⟩

/-- A WRITE whose third attempt is the first to be answered. -/
theorem RunsRetry.write_after_two_failures (runs : RunsRetry (.wr a n data) i) (hp : s.par.valid = true)
    (hn : n.toNat ≤ 200) (hd : data.length = 2 * n.toNat)
    (hs : s.env.script = deadEvent :: deadEvent :: (writeScript (nextId s.replyId) 0xAC ++ rest)) :
    ∃ t, exec i s = .next t ∧ t.res = { s.res with status := .ok, info := 0, warn := false, busy := false } ∧
      (a.toNat + n.toNat ≤ 0x108A → readRegs t.par t.tag.regs a.toNat n.toNat = wordsOf data) ∧
      t.eng.attempt = 3 ∧ t.log.length = s.log.length + 2 ∧ t.env.script = rest := by
  obtain ⟨ph, run⟩ := runs s
  obtain ⟨t, done, ans, regs⟩ := attempt_wr_answered
    (s := ((s.begin.setPhase ph).latchOp (.wr a n data)).missedTwice (writeScript (nextId s.replyId) 0xAC ++ rest))
    hp rfl hn (latchWr_dbuf_take hd hn (s.begin.setPhase ph) a) hd rfl
  rw [retry_dead_twice (by exact hs), retryLoop_succeeds done, attemptEnd_ok] at run
  refine ⟨_, run, ans.succeed_res s.res rfl none, fun h => ?_, ans.succeed_attempt _, congrArg List.length ans.log,
    congrArg Environment.script ans.env⟩
  rw [State.succeed_par, ans.traffic.par]
  exact readRegs_of_written regs hd h

/-- Settles O29: the two dead transactions leave the tag, the operands and the buffer as they were, and the third attempt is
answered. -/
theorem twoFailuresThenSuccess : Obligations.TwoFailuresThenSuccess := by
  intro a n B Lb data i s rest hp hb h1 h200 hd hB hL
  refine ⟨fun hs hi => ?_, fun hs hi => ?_⟩
  · have runs : RunsRetry (.rd a n) i := by
      obtain rfl | rfl := List.mem_pair.mp hi
      · exact xferRd_runsRetry_of_words h1 h200 hB hL
      · exact retry_runsRetry _
    obtain ⟨t, run, res, others⟩ := runs.read_after_two_failures hp hb h200 hs
    exact ⟨t, _, run, res, fun _ => rfl, others⟩
  · have runs : RunsRetry (.wr a n data) i := by
      obtain rfl | rfl := List.mem_pair.mp hi
      · exact xferWr_runsRetry_of_words h1 h200 hB hL data
      · exact retry_runsRetry _
    exact runs.write_after_two_failures hp h200 hd hs

end Sys2Proof.Machine
end

section
/-! SUPPORT. A transfer the firmware answers at its first attempt, its bus events included: what the cache operations are made
of. -/

namespace Sys2Proof.Machine

variable {s t : State} {rest : List EnvEvent} {a n B Lb : Word} {data : List Byte}

/-! ### The bus events of an answered attempt, newest first (20_memory.md R63, 41_handshake.md R131 to R137) -/

/-- Those of a READ that found this reply slot, read this at the trigger location, and fetched these data. -/
def readEvents (p : Params) (id : Byte) (a n : Word) (found trigger data : List Byte) : List BusEvent :=
  [.read p.miBank (dataOffset p) (byteCount n) (some data), .read p.miBank (replyOffset p) 2 (some [id, ackCode]),
    .wait (settleDelay .rd n), .read p.trigBank p.trigOffset trigLen (some trigger),
    .write p.miBank (paramOffset p) (paramBlock id p.cmdRead a n) true, .read p.miBank (replyOffset p) 2 (some found)]

/-- Those of a WRITE of these data. -/
def writeEvents (p : Params) (id : Byte) (a n : Word) (found trigger data : List Byte) : List BusEvent :=
  [.read p.miBank (replyOffset p) 2 (some [id, ackCode]), .wait 400,
    .read p.trigBank p.trigOffset trigLen (some trigger), .write p.miBank (dataOffset p) data true,
    .write p.miBank (paramOffset p) (paramBlock id p.cmdWrite a n) true, .read p.miBank (replyOffset p) 2 (some found)]

section
variable {p : Params} {id : Byte} {found trigger : List Byte}

theorem block_mem_readEvents :
    .write p.miBank (paramOffset p) (paramBlock id p.cmdRead a n) true ∈ readEvents p id a n found trigger data := by
  simp [readEvents]

theorem data_mem_readEvents :
    .read p.miBank (dataOffset p) (byteCount n) (some data) ∈ readEvents p id a n found trigger data := by
  simp [readEvents]

theorem block_mem_writeEvents :
    .write p.miBank (paramOffset p) (paramBlock id p.cmdWrite a n) true ∈ writeEvents p id a n found trigger data := by
  simp [writeEvents]

theorem data_mem_writeEvents : .write p.miBank (dataOffset p) data true ∈ writeEvents p id a n found trigger data := by
  simp [writeEvents]

/-- A READ writes its parameter block only (41_handshake.md R130). -/
theorem data_write_notMem_readEvents {bytes : List Byte} {ok : Bool} :
    .write p.miBank (dataOffset p) bytes ok ∉ readEvents p id a n found trigger data := by
  have apart : dataOffset p ≠ paramOffset p := by simp [dataOffset, paramOffset]
  simp [readEvents, apart]

/-- The only wait of an attempt is its settle delay (R135). -/
theorem wait_notMem_readEvents {ms : Nat} (h : ms ≠ settleDelay .rd n) :
    .wait ms ∉ readEvents p id a n found trigger data := by
  simp [readEvents, h]

theorem wait_notMem_writeEvents {ms : Nat} (h : ms ≠ 400) : .wait ms ∉ writeEvents p id a n found trigger data := by
  simp [writeEvents, h]

end

theorem attempt_rd_answered_bus {d : List Byte} (h : attempt s = .ok d t) (hp : s.par.valid = true)
    (hb : s.eng.dbuf.length = 400) (k : s.eng.kind = .rd) (hn : s.eng.n.toNat ≤ 200)
    (hs : s.env.script = readScript (nextId s.replyId) 0xAC ++ rest) :
    ∃ found trigger, t.bus = readEvents s.par (nextId s.replyId) s.eng.a s.eng.n found trigger d ++ s.bus := by
  have fetched := pending_trigger_of_block (mailbox_staged_paramBlock hp s.tag (nextId s.replyId) s.par.cmdRead
    s.eng.a s.eng.n) hn
  obtain ⟨-, -, reply, -⟩ := answer_read hp _ (nextId s.replyId) fetched rfl hn
  rw [attempt_rd_ack k hn hb hs rfl rfl rfl rfl rfl reply] at h
  cases h
  exact ⟨_, _, rfl⟩

theorem attempt_wr_answered_bus {d : List Byte} (h : attempt s = .ok d t) (hp : s.par.valid = true)
    (k : s.eng.kind = .wr) (hn : s.eng.n.toNat ≤ 200) (hd : s.eng.dbuf.take (byteCount s.eng.n) = data)
    (hl : data.length = 2 * s.eng.n.toNat) (hs : s.env.script = writeScript (nextId s.replyId) 0xAC ++ rest) :
    ∃ found trigger, t.bus = writeEvents s.par (nextId s.replyId) s.eng.a s.eng.n found trigger data ++ s.bus := by
  have fetched := (firmwareFetchesStagedCommand s.par s.tag s.eng.a s.eng.n data hp hn hl).2
  obtain ⟨-, -, reply, -⟩ := answer_write hp _ (nextId s.replyId) fetched rfl
  subst hd
  rw [attempt_wr_ack k hs rfl rfl rfl rfl rfl reply] at h
  cases h
  exact ⟨_, _, rfl⟩

/-! ### A transfer answered at its first attempt (42_transfer_retry.md R152, R153) -/

/-- What such a transfer leaves beside its data and the tag's registers: these events more on the bus. -/
structure Served (events : List BusEvent) (rest : List EnvEvent) (s t : State) : Prop where
  traffic : Traffic s t
  replyId : t.replyId = nextId s.replyId
  script : t.env.script = rest
  bus : t.bus = events ++ s.bus

section
variable (hp : s.par.valid = true) (hb : s.eng.dbuf.length = 400) (h1 : 1 ≤ n.toNat) (h200 : n.toNat ≤ 200)
  (hB : B.toNat = 2 * a.toNat) (hL : Lb.toNat = 2 * n.toNat)
include hp hb h1 h200 hB hL

theorem transferRd_served (hs : s.env.script = readScript (nextId s.replyId) 0xAC ++ rest) :
    let d := bytesOf (readRegs s.par s.tag.regs a.toNat n.toNat)
    ∃ t found trigger, transferRd B Lb s = .ok d t ∧
      Served (readEvents s.par (nextId s.replyId) a n found trigger d) rest s t ∧ t.tag.regs = s.tag.regs := by
  intro d
  have passes := chkVerdict_of_words h1 h200 hB hL
  have run := transferRd_checked passes s
  have keeps := transferRd_traffic B Lb s
  rw [wordForm_of_words hB, wordForm_of_words hL] at run
  obtain ⟨t, done, ans, regs⟩ := attempt_rd_answered (s := { s with
    eng := { s.eng with phase := .chk, attempt := 1, kind := .rd, a := a, n := n } }) hp hb rfl h200 hs
  obtain ⟨found, trigger, bus⟩ := attempt_rd_answered_bus done hp hb rfl h200 hs
  rw [retryLoop_succeeds done] at run
  rw [run] at keeps
  exact ⟨t, found, trigger, run, ⟨keeps, ans.replyId, congrArg Environment.script ans.env, bus⟩, regs⟩

theorem transferWr_served (hd : data.length = 2 * n.toNat)
    (hs : s.env.script = writeScript (nextId s.replyId) 0xAC ++ rest) :
    ∃ t found trigger, transferWr B Lb data s = .ok [] t ∧
      Served (writeEvents s.par (nextId s.replyId) a n found trigger data) rest s t ∧
      t.tag.regs = writeRegs s.par s.tag.regs a.toNat (wordsOf data) := by
  have passes := chkVerdict_of_words h1 h200 hB hL
  have run := transferWr_checked passes (hd.trans hL.symm) hb
  have keeps := transferWr_traffic B Lb data s
  rw [wordForm_of_words hB, wordForm_of_words hL] at run
  have front : (data ++ s.eng.dbuf.drop data.length).take (byteCount n) = data := List.take_left' hd
  obtain ⟨t, done, ans, regs⟩ := attempt_wr_answered (s := { s with
    eng := { s.eng with
      phase := .chk, attempt := 1, kind := .wr, a := a, n := n, dbuf := data ++ s.eng.dbuf.drop data.length } })
    hp rfl h200 front hd hs
  obtain ⟨found, trigger, bus⟩ := attempt_wr_answered_bus done hp rfl h200 front hd hs
  rw [retryLoop_succeeds done] at run
  rw [run] at keeps
  exact ⟨t, found, trigger, run, ⟨keeps, ans.replyId, congrArg Environment.script ans.env, bus⟩, regs⟩

end

/-! ### A firmware that acts before P1 -/

/-- `s` with these actions of the firmware done, and the event that was to bring them left with none. -/
def State.acted (s : State) (actions : List TagAction) (later : List EnvEvent) : State :=
  { s with tag := s.tag.acts s.par actions, env := { s.env with script := quietEvent :: later } }

/-- Actions before P1's read are actions before the attempt. -/
theorem attempt_acted {actions : List TagAction} {later : List EnvEvent}
    (h : s.env.script = { quietEvent with tag := actions } :: later) : attempt s = attempt (s.acted actions later) := by
  unfold attempt
  rw [phaseP1_scripted h rfl, phaseP1_scripted (s := s.acted actions later) rfl rfl]
  rfl

theorem transferRd_acted (pass : chkVerdict B Lb = none) {actions : List TagAction} {later : List EnvEvent}
    (h : s.env.script = { quietEvent with tag := actions } :: later) :
    transferRd B Lb s = transferRd B Lb (s.acted actions later) := by
  rw [transferRd_checked pass, transferRd_checked pass, retryLoop, retryLoop, attempt_acted (by exact h)]
  rfl

/-! ### How traffic ends -/

theorem Err.status_ne_ok (e : Err) : e.status ≠ .ok := by cases e <;> nofun

theorem Traffic.cached (h : Traffic s t) (k : Nat) : t.cached k = s.cached k := congrArg (mapFind k) h.cache

/-- Traffic ends with an error or with a value. -/
theorem Traffic.ends {α : Type} {r : Res α} (h : Traffic s r.state) :
    (∃ e t, r = .err e t ∧ Traffic s t) ∨ ∃ v t, r = .ok v t ∧ Traffic s t := by
  cases r with
  | ok v t => exact .inr ⟨v, t, rfl, h⟩
  | err e t => exact .inl ⟨e, t, rfl, h⟩

end Sys2Proof.Machine
end

section
/-! PROOF of the statements about `GET` and `SET`, and about `CRESET` and `NOP`: what one register's operation reads, writes and
caches. -/

namespace Sys2Proof.Machine

variable {s t : State} {rest : List EnvEvent} {address value observed w : Word}

/-! ### One register as the operands of a transfer (43_register_cache.md R166, R167) -/

theorem addressOk_true (h : address.toNat ≤ 0x1089) : addressOk address = true := decide_eq_true h

theorem byteForm_toNat (h : address.toNat ≤ 0x1089) : (byteForm address).toNat = 2 * address.toNat := by
  rw [byteForm, BitVec.toNat_ofNat]
  omega

/-- The word of a READ of one register. -/
theorem firstWord_be16 (w : Word) : firstWord (be16 w) = w := unbe16_be16 w

/-- The two bytes of a word, high byte first (00_scope.md R12). -/
theorem be16_bytes (w : Word) : be16 w = [BitVec.ofNat 8 (w.toNat / 256), BitVec.ofNat 8 w.toNat] := by
  have high : w.extractLsb' 8 8 = BitVec.ofNat 8 (w.toNat / 256) := by
    rw [← highByte_toNat, BitVec.ofNat_toNat, BitVec.setWidth_eq]
  have low : w.extractLsb' 0 8 = BitVec.ofNat 8 w.toNat := BitVec.eq_of_toNat_eq (by rw [lowByte_toNat, BitVec.toNat_ofNat])
  rw [be16, high, low]

section
variable (hp : s.par.valid = true) (hb : s.eng.dbuf.length = 400) (ha : address.toNat ≤ 0x1089)
include hp hb ha

/-- One READ of the register, answered: its word. -/
theorem readRegister_served (hs : s.env.script = readScript (nextId s.replyId) 0xAC ++ rest) :
    let d := be16 (readReg s.par s.tag.regs address.toNat)
    ∃ t found trigger, transferRd (byteForm address) 2 s = .ok d t ∧
      Served (readEvents s.par (nextId s.replyId) address 1 found trigger d) rest s t ∧ t.tag.regs = s.tag.regs :=
  transferRd_served hp hb (n := 1) (by decide) (by decide) (byteForm_toNat ha) (by decide) hs

/-- One WRITE of the register, answered. -/
theorem writeRegister_served (value : Word) (hs : s.env.script = writeScript (nextId s.replyId) 0xAC ++ rest) :
    ∃ t found trigger, transferWr (byteForm address) 2 (be16 value) s = .ok [] t ∧
      Served (writeEvents s.par (nextId s.replyId) address 1 found trigger (be16 value)) rest s t ∧
      t.tag.regs = writeReg s.par s.tag.regs address.toNat value := by
  have words : wordsOf (be16 value) = [value] := wordsOf_bytesOf [value]
  have key := transferWr_served (data := be16 value) hp hb (n := 1) (Lb := 2) (by decide) (by decide)
    (byteForm_toNat ha) (by decide) rfl hs
  rwa [words] at key

/-- One READ of the register, which the firmware changes before P1: the word it put there. -/
theorem readRegister_changed (observed : Word)
    (hs : s.env.script = { quietEvent with tag := [.setReg address observed] } ::
      ((readScript (nextId s.replyId) 0xAC).tail ++ rest)) :
    ∃ t found trigger, transferRd (byteForm address) 2 s = .ok (be16 observed) t ∧
      Served (readEvents s.par (nextId s.replyId) address 1 found trigger (be16 observed)) rest s t ∧
      t.tag.regs = writeReg s.par s.tag.regs address.toNat observed := by
  have pass : chkVerdict (byteForm address) 2 = none :=
    chkVerdict_of_words (n := 1) (by decide) (by decide) (byteForm_toNat ha) (by decide)
  have register : readReg s.par (writeReg s.par s.tag.regs address.toNat observed) address.toNat = observed :=
    readReg_writeReg_same _ ha observed
  obtain ⟨t, found, trigger, run, served, regs⟩ := readRegister_served (s := s.acted [.setReg address observed]
    ((readScript (nextId s.replyId) 0xAC).tail ++ rest)) hp hb ha (rest := rest) rfl
  have keeps := transferRd_traffic (byteForm address) 2 s
  rw [← transferRd_acted pass hs] at run
  rw [run] at keeps
  refine ⟨t, found, trigger, run.trans ?_, ⟨keeps, served.replyId, served.script, served.bus.trans ?_⟩, regs⟩
  · exact congrArg (fun w => Res.ok (be16 w) t) register
  · exact congrArg (fun w => readEvents s.par (nextId s.replyId) address 1 found trigger (be16 w) ++ s.bus) register

end

/-! ### `GET` (R166) -/

theorem getWord_hit (ha : address.toNat ≤ 0x1089) (h : s.cached address.toNat = some w) : getWord address s = .ok w s := by
  rw [getWord, if_pos (addressOk_true ha), h]

theorem getWord_miss (ha : address.toNat ≤ 0x1089) (h : s.cached address.toNat = none) :
    getWord address s = (transferRd (byteForm address) 2 s).andThen fun d s =>
      .ok (firstWord d) (s.cacheWord address.toNat (firstWord d)) := by
  rw [getWord, if_pos (addressOk_true ha), h]

theorem exec_get (address : Word) (s : State) :
    exec (.get address) s = .next ((getWord address s.begin).andThen fun w s => .ok (some (.word w)) s).finish := rfl

/-- Settles O34: the value comes from the cache and no phase is entered. -/
theorem getHit : Obligations.GetHit := by
  intro address w s ha h
  rw [exec_get, getWord_hit (s := s.begin) ha h]
  rfl

/-- Settles O35: the READ is answered at its first attempt, and its word goes to the entry. -/
theorem getMissFillsEntry : Obligations.GetMissFillsEntry := by
  intro address s rest hp hb ha hmiss hs value
  obtain ⟨t, found, trigger, read, served, regs⟩ := readRegister_served (s := s.begin) hp hb ha hs
  have run := exec_get address s
  rw [getWord_miss (s := s.begin) ha hmiss, read, Res.ok_andThen, Res.ok_andThen, Res.finish_ok, firstWord_be16] at run
  refine ⟨_, run, ?_, State.cached_cacheWord_same _ _ _, fun k hk => ?_, served.script, ?_, regs⟩
  · rw [State.succeed_res, State.cacheWord_res, served.traffic.res]
    rfl
  · exact (State.cached_cacheWord_other t hk value).trans (served.traffic.cached k)
  · rw [State.succeed_bus, State.cacheWord_bus, served.bus, busCalls_append]
    exact Nat.add_comm _ _

/-! ### `SET` (R167) -/

theorem State.settleVerify_res (s : State) (address value observed : Word) :
    (s.settleVerify address value observed).res = if observed = value then s.res else s.res.integrity observed := by
  unfold State.settleVerify
  by_cases h : observed = value
  · rw [if_neg (not_not.mpr h), if_pos h]
    rfl
  · rw [if_pos h, if_neg h]
    rfl

theorem State.settleVerify_cache (s : State) (address value observed : Word) :
    (s.settleVerify address value observed).cache = mapPut address.toNat observed s.cache := by
  unfold State.settleVerify
  split <;> rfl

theorem State.cached_settleVerify_same (s : State) (address value observed : Word) :
    (s.settleVerify address value observed).cached address.toNat = some observed := by
  rw [State.cached, State.settleVerify_cache, mapFind_mapPut_same]

theorem State.cached_settleVerify_other (s : State) {k : Nat} (h : k ≠ address.toNat) (value observed : Word) :
    (s.settleVerify address value observed).cached k = s.cached k := by
  rw [State.cached, State.settleVerify_cache, mapFind_mapPut_other h]
  rfl

theorem exec_set (address value : Word) (s : State) :
    exec (.set address value) s = .next ((setWord address value s.begin).andThen fun _ s => .ok none s).finish := rfl

theorem setWord_accepts (ha : address.toNat ≤ 0x1089) (value : Word) (s : State) :
    setWord address value s = (transferWr (byteForm address) 2 (be16 value) s).andThen fun _ s =>
      (transferRd (byteForm address) 2 (waitMs verifyDelay s)).andThen fun d s =>
        .ok () (s.settleVerify address value (firstWord d)) :=
  if_pos (addressOk_true ha)

/-- A `SET` either raises an error, its cache untouched, or ends by its verdict on some observed word after traffic alone. -/
theorem setWord_ends (address value : Word) (s : State) :
    (∃ e t, setWord address value s = .err e t ∧ t.cache = s.cache) ∨
    (address.toNat ≤ 0x1089 ∧
      ∃ u observed, setWord address value s = .ok () (u.settleVerify address value observed) ∧ Traffic s u) := by
  by_cases ha : address.toNat ≤ 0x1089
  · rw [setWord_accepts ha]
    obtain ⟨e, x, write, written⟩ | ⟨d, x, write, written⟩ :=
      (transferWr_traffic (byteForm address) 2 (be16 value) s).ends
    · rw [write]
      exact .inl ⟨e, x, rfl, written.cache⟩
    · have waited : Traffic s (waitMs verifyDelay x) := written.trans (Traffic.emit x _)
      rw [write, Res.ok_andThen]
      obtain ⟨e, y, read, observes⟩ | ⟨d, y, read, observes⟩ :=
        (transferRd_traffic (byteForm address) 2 (waitMs verifyDelay x)).ends <;> rw [read]
      · exact .inl ⟨e, y, rfl, (waited.trans observes).cache⟩
      · exact .inr ⟨ha, y, firstWord d, rfl, waited.trans observes⟩
  · exact .inl ⟨_, s, setWord_bad_address (by omega) value s, rfl⟩

/-- Settles O37: without a warning the observed word is the intended one, and `GET` finds it. -/
theorem getAfterVerifiedSet : Obligations.GetAfterVerifiedSet := by
  intro address value s t h hok hwarn
  rw [exec_set] at h
  obtain ⟨e, x, run, -⟩ | ⟨ha, u, observed, run, -⟩ := setWord_ends address value s.begin <;> rw [run] at h <;> cases h
  · exact absurd hok e.status_ne_ok
  · have verified : observed = value := by
      by_contra hne
      rw [Res.ok_andThen, Res.finish_ok, State.succeed_res, State.settleVerify_res, if_neg hne] at hwarn
      cases hwarn
    exact getHit address value _ ha (verified ▸ u.cached_settleVerify_same address value observed)

/-- A firmware that answers the WRITE, changes the register, and answers the read-back: the verdict is on the word it put
there. -/
theorem setWord_served (hp : s.par.valid = true) (hb : s.eng.dbuf.length = 400) (ha : address.toNat ≤ 0x1089)
    (value observed : Word)
    (hs : s.env.script = writeScript (nextId s.replyId) 0xAC ++ { quietEvent with tag := [.setReg address observed] } ::
      ((readScript (nextId (nextId s.replyId)) 0xAC).tail ++ rest)) :
    ∃ t found trigger found' trigger', setWord address value s = .ok () (t.settleVerify address value observed) ∧
      Traffic s t ∧ t.env.script = rest ∧
      t.tag.regs = writeReg s.par (writeReg s.par s.tag.regs address.toNat value) address.toNat observed ∧
      t.bus = readEvents s.par (nextId (nextId s.replyId)) address 1 found' trigger' (be16 observed) ++ .wait 1000 ::
        (writeEvents s.par (nextId s.replyId) address 1 found trigger (be16 value) ++ s.bus) := by
  obtain ⟨u, found, trigger, write, written, regs⟩ := writeRegister_served hp hb ha value hs
  have waited : Traffic s (waitMs verifyDelay u) := written.traffic.trans (Traffic.emit u _)
  obtain ⟨t, found', trigger', read, observes, kept⟩ := readRegister_changed (s := waitMs verifyDelay u) (waited.par ▸ hp)
    (waited.dbuf hb) ha observed (rest := rest) (by rw [waitMs_env, written.script, ← written.replyId]; rfl)
  have bus := observes.bus
  rw [waitMs_bus, written.bus] at bus
  refine ⟨t, found, trigger, found', trigger', ?_, waited.trans observes.traffic, observes.script, ?_, ?_⟩
  · rw [setWord_accepts ha, write, Res.ok_andThen, read, Res.ok_andThen, firstWord_be16]
  · rw [kept, waitMs_tag, regs, waitMs_par, written.traffic.par]
  · rw [bus, waitMs_par, written.traffic.par, ← written.replyId]
    rfl

/-- Settles O36: the WRITE, the wait and the read-back add the events of their attempts, and the verdict caches the word read. -/
theorem setCachesObservedWord : Obligations.SetCachesObservedWord := by
  intro address value observed s rest hp hb ha id changed hs
  obtain ⟨t, found, trigger, found', trigger', run, traffic, script, regs, bus⟩ :=
    setWord_served (s := s.begin) hp hb ha value observed hs
  have settled := t.settleVerify_inward address value observed
  have ended := exec_set address value s
  rw [run, Res.ok_andThen, Res.finish_ok] at ended
  refine ⟨_, ended, ?_, t.cached_settleVerify_same _ _ _, fun k hk => ?_, ?_, ?_, fun r hr => ?_,
    writeEvents s.par id address 1 found trigger (be16 value),
    readEvents s.par (nextId id) address 1 found' trigger' (be16 observed), ?_⟩
  · rw [State.succeed_res, State.settleVerify_res, traffic.res]
    by_cases h : observed = value <;> simp [h, ResultRegs.done, ResultRegs.integrity, ResultRegs.start]
  · exact (t.cached_settleVerify_other hk value observed).trans (traffic.cached k)
  · rw [State.succeed_env, settled.env, script]
  · rw [State.succeed_tag, settled.tag, regs]
    exact readReg_writeReg_same _ ha observed
  · rw [State.succeed_tag, settled.tag, regs]
    exact (readReg_writeReg_other _ hr observed).trans (readReg_writeReg_other _ hr value)
  · rw [State.succeed_bus, settled.bus, ← be16_bytes, ← be16_bytes]
    exact ⟨bus, rfl, rfl, wait_notMem_writeEvents (by decide), wait_notMem_readEvents (by decide), block_mem_writeEvents,
      block_mem_readEvents, data_mem_writeEvents, fun _ _ => data_write_notMem_readEvents, data_mem_readEvents⟩

/-! ### What either touches of the cache (10_state.md R30, 43_register_cache.md R172) -/

theorem getWord_ends (address : Word) (s : State) :
    (∃ e t, getWord address s = .err e t ∧ t.cache = s.cache) ∨
    ∃ w t, getWord address s = .ok w t ∧ t.cached address.toNat = some w ∧
      ∀ k, k ≠ address.toNat → t.cached k = s.cached k := by
  by_cases ha : address.toNat ≤ 0x1089
  · cases hc : s.cached address.toNat with
    | some w => exact .inr ⟨w, s, getWord_hit ha hc, hc, fun _ _ => rfl⟩
    | none =>
      rw [getWord_miss ha hc]
      obtain ⟨e, t, read, traffic⟩ | ⟨d, t, read, traffic⟩ := (transferRd_traffic (byteForm address) 2 s).ends <;>
        rw [read]
      · exact .inl ⟨e, t, rfl, traffic.cache⟩
      · refine .inr ⟨firstWord d, _, rfl, t.cached_cacheWord_same _ _, fun k hk => ?_⟩
        exact (t.cached_cacheWord_other hk _).trans (traffic.cached k)
  · exact .inl ⟨_, s, getWord_bad_address (by omega) s, rfl⟩

/-- An operation that gives the host the value of a piece which leaves the cache when it raises, and else touches one entry. -/
theorem operate_touches {α : Type} {r : Res α} {f : α → State → Option OpResult} {a : Nat}
    (h : (.next (r.andThen fun v s => .ok (f v s) s).finish : Host.Outcome State Fault Refusal) = .next t)
    (hr : (∃ e u, r = .err e u ∧ u.cache = s.cache) ∨
      ∃ v u, r = .ok v u ∧ (u.cached a).isSome = true ∧ ∀ k, k ≠ a → u.cached k = s.cached k) :
    (t.res.status ≠ .ok → t.cache = s.cache) ∧ (∀ k, k ≠ a → t.cached k = s.cached k) ∧
      (t.res.status = .ok → (t.cached a).isSome = true) := by
  obtain ⟨e, u, rfl, kept⟩ | ⟨v, u, rfl, filled, others⟩ := hr <;> cases h
  · exact ⟨fun _ => kept, fun k _ => congrArg (mapFind k) kept, fun hok => absurd hok e.status_ne_ok⟩
  · exact ⟨fun hne => absurd rfl hne, others, fun _ => filled⟩

/-- Settles O38: both end either by an error, the cache untouched, or with their entry written. -/
theorem getSetTouchOneEntry : Obligations.GetSetTouchOneEntry := by
  intro address value i s t hi h
  obtain rfl | rfl := hi
  · refine operate_touches h ((getWord_ends address s.begin).imp_right ?_)
    rintro ⟨w, u, run, filled, others⟩
    exact ⟨w, u, run, by rw [filled]; rfl, others⟩
  · refine operate_touches h ((setWord_ends address value s.begin).imp_right ?_)
    rintro ⟨-, u, observed, run, traffic⟩
    refine ⟨(), _, run, by rw [State.cached_settleVerify_same]; rfl, fun k hk => ?_⟩
    exact (u.cached_settleVerify_other hk value observed).trans (traffic.cached k)

/-! ### `CRESET` and `NOP` -/

/-- Settles O41: the cache is emptied between the operation's start and its end, and `NOP` writes its two registers. -/
theorem cresetAndNopComplete : Obligations.CresetAndNopComplete :=
  fun _ => ⟨⟨_, rfl, fun _ => rfl, rfl⟩, rfl⟩

end Sys2Proof.Machine
end

section
/-! PROOF of the statements about `PREFETCH`: its 43 chunks, read in order, and the one at which it fails. -/

namespace Sys2Proof.Machine

variable {s t u : State} {e : Err} {rest : List EnvEvent} {j k : Nat}

/-! ### The chunks (43_register_cache.md R168, R173) -/

/-- The first register of chunk `j`, and of chunk 43 the end of the register space. -/
def chunkStart (j : Nat) : Nat := min (chunk * j) (regEnd + 1)

/-- The registers of chunk `j`, as `PREFETCH` counts them. -/
def chunkSize (j : Nat) : Nat := min chunk (regEnd - chunkStart j + 1)

/-- The READ of chunk `j`. -/
def readChunk (j : Nat) (s : State) : Res (List Byte) :=
  transferRd (BitVec.ofNat 16 (2 * chunkStart j)) (BitVec.ofNat 16 (2 * chunkSize j)) s

theorem chunkStart_eq (hj : j < 43) : chunkStart j = 100 * j := by
  simp only [chunkStart, chunk, regEnd]
  omega

theorem chunkSize_le (j : Nat) : 1 ≤ chunkSize j ∧ chunkSize j ≤ 100 := by
  simp only [chunkSize, chunk]
  omega

theorem chunkStart_succ (hj : j < 43) : chunkStart (j + 1) = chunkStart j + chunkSize j := by
  simp only [chunkSize, chunkStart, chunk, regEnd]
  omega

theorem chunkStart_mono (h : j ≤ k) : chunkStart j ≤ chunkStart k := by
  simp only [chunkStart, chunk]
  omega

/-- One turn reads chunk `j`, caches it, and goes on with the next. -/
theorem prefetchFrom_chunk (hj : j < 43) (turns : Nat) (s : State) :
    prefetchFrom (turns + 1) (chunkStart j) s = (readChunk j s).andThen fun d s =>
      prefetchFrom turns (chunkStart (j + 1)) (s.cacheWords (chunkStart j) (wordsOf d)) := by
  have inside : chunkStart j ≤ regEnd := by
    simp only [chunkStart, chunk, regEnd]
    omega
  rw [prefetchFrom, if_pos inside, chunkStart_succ hj]
  rfl

theorem prefetchFrom_done (turns : Nat) (s : State) : prefetchFrom turns (chunkStart 43) s = .ok () s := by
  cases turns with
  | zero => rfl
  | succ turns => exact if_neg (by decide)

/-! ### One READ of a chunk -/

section
variable (hj : j < 43)
include hj

/-- A chunk's operands: its first register and its size, in words and in bytes. -/
theorem chunk_operands :
    (BitVec.ofNat 16 (chunkStart j) : Word).toNat = chunkStart j ∧
    (BitVec.ofNat 16 (chunkSize j) : Word).toNat = chunkSize j ∧
    (BitVec.ofNat 16 (2 * chunkStart j) : Word).toNat = 2 * chunkStart j ∧
    (BitVec.ofNat 16 (2 * chunkSize j) : Word).toNat = 2 * chunkSize j := by
  have start := chunkStart_eq hj
  have size := chunkSize_le j
  simp only [BitVec.toNat_ofNat]
  omega

theorem chkVerdict_chunk : chkVerdict (BitVec.ofNat 16 (2 * chunkStart j)) (BitVec.ofNat 16 (2 * chunkSize j)) = none := by
  obtain ⟨-, -, start, size⟩ := chunk_operands hj
  have := chunkSize_le j
  exact chkVerdict_accepts (by omega) (by omega) (by omega) (by omega)

/-- A chunk's READ runs the retry wrapper, so it raises `CommunicationExhausted` only (42_transfer_retry.md R157). -/
theorem readChunk_raises (s : State) :
    (readChunk j s).Raises fun e => ∃ c : Err, c.retried = true ∧ e = .communicationExhausted c.status := by
  obtain ⟨u, -, -, -, run⟩ := transferRd_passes (chkVerdict_chunk hj) s
  rw [readChunk, run]
  exact retry_raises u

theorem readChunk_dead (hs : s.env.script = deadEvent :: deadEvent :: deadEvent :: rest) :
    ∃ t, readChunk j s = .err (.communicationExhausted .transportError) t ∧ Traffic s t ∧ t.env.script = rest := by
  obtain ⟨u, latched, -, -, run⟩ := transferRd_passes (chkVerdict_chunk hj) s
  have traffic := transferRd_traffic (BitVec.ofNat 16 (2 * chunkStart j)) (BitVec.ofNat 16 (2 * chunkSize j)) s
  rw [retry_dead (latched.env ▸ hs)] at run
  rw [run] at traffic
  exact ⟨_, run, traffic, rfl⟩

theorem readChunk_served (hp : s.par.valid = true) (hb : s.eng.dbuf.length = 400)
    (hs : s.env.script = readScript (nextId s.replyId) 0xAC ++ rest) :
    ∃ t, readChunk j s = .ok (bytesOf (readRegs s.par s.tag.regs (chunkStart j) (chunkSize j))) t ∧ Traffic s t ∧
      t.replyId = nextId s.replyId ∧ t.env.script = rest ∧ t.tag.regs = s.tag.regs := by
  obtain ⟨start, size, start2, size2⟩ := chunk_operands hj
  have := chunkSize_le j
  obtain ⟨t, _, _, run, served, regs⟩ := transferRd_served (a := BitVec.ofNat 16 (chunkStart j))
    (n := BitVec.ofNat 16 (chunkSize j)) hp hb (by omega) (by omega) (start2.trans (by rw [start]))
    (size2.trans (by rw [size])) hs
  rw [start, size] at run
  exact ⟨t, run, served.traffic, served.replyId, served.script, regs⟩

/-- A chunk's READ that succeeds answers all its words (42_transfer_retry.md R152). -/
theorem readChunk_length {d : List Byte} (h : readChunk j s = .ok d t) (hb : s.eng.dbuf.length = 400) :
    (wordsOf d).length = chunkSize j := by
  obtain ⟨-, -, -, size⟩ := chunk_operands hj
  rw [wordsOf_length, transferRd_length h hb, size]
  omega

end

/-! ### What the chunks leave of the cache -/

/-- From `s` to `t` the entries from `lo` up to `hi` came to be `P`, and the others are as before. -/
structure CacheFills (P : Nat → Option Word → Prop) (lo hi : Nat) (s t : State) : Prop where
  filled : ∀ a, lo ≤ a → a < hi → P a (t.cached a)
  others : ∀ a, a < lo ∨ hi ≤ a → t.cached a = s.cached a

section
variable {P : Nat → Option Word → Prop} {lo mid hi : Nat}

theorem CacheFills.none_of_cache_eq (h : t.cache = s.cache) : CacheFills P lo lo s t :=
  ⟨fun _ _ _ => by omega, fun a _ => congrArg (mapFind a) h⟩

theorem CacheFills.trans (h : CacheFills P lo mid s t) (g : CacheFills P mid hi t u) (hl : lo ≤ mid) (hh : mid ≤ hi) :
    CacheFills P lo hi s u := by
  refine ⟨fun a ha hu => ?_, fun a ha => ?_⟩
  · by_cases hm : a < mid
    · rw [g.others a (.inl hm)]
      exact h.filled a ha hm
    · exact g.filled a (by omega) hu
  · rw [g.others a (by omega), h.others a (by omega)]

/-- Words cached from `lo` up, each as `P` asks. -/
theorem CacheFills.cacheWords (h : t.cache = s.cache) {ws : List Word} (hhi : hi = lo + ws.length)
    (hP : ∀ a, lo ≤ a → a < hi → P a ws[a - lo]?) : CacheFills P lo hi s (t.cacheWords lo ws) := by
  refine ⟨fun a ha hu => ?_, fun a ha => ?_⟩ <;> rw [t.cached_cacheWords]
  · rw [if_pos (by omega)]
    exact hP a ha hu
  · rw [if_neg (by omega)]
    exact congrArg (mapFind a) h

end

theorem readRegs_getElem? (p : Params) (r : WordMap) (a : Nat) {n i : Nat} (h : i < n) :
    (readRegs p r a n)[i]? = some (readReg p r (a + i)) := by
  induction n generalizing a i with
  | zero => omega
  | succ n ih =>
    cases i with
    | zero => rfl
    | succ i =>
      have key := ih (a + 1) (i := i) (by omega)
      rwa [Nat.add_right_comm] at key

theorem State.cacheWords_res (s : State) (a : Nat) (ws : List Word) : (s.cacheWords a ws).res = s.res := by
  obtain ⟨c, h⟩ := s.cacheWords_fields a ws
  rw [h, State.setCache_res]

theorem State.cacheWords_eng (s : State) (a : Nat) (ws : List Word) : (s.cacheWords a ws).eng = s.eng := by
  obtain ⟨c, h⟩ := s.cacheWords_fields a ws
  rw [h, State.setCache_eng]

theorem Inward.replyId (h : Inward s t) : t.replyId = s.replyId := by rw [State.replyId, State.replyId, h.tag, h.par]

/-- The entry of a register is the word the tag of `s` holds there. -/
def State.HoldsWord (s : State) (a : Nat) (entry : Option Word) : Prop := entry = some (readReg s.par s.tag.regs a)

/-- What READs of chunks that the firmware answers leave, the cache aside. -/
structure ChunksRead (rest : List EnvEvent) (s t : State) : Prop where
  par : t.par = s.par
  res : t.res = s.res
  regs : t.tag.regs = s.tag.regs
  script : t.env.script = rest

theorem ChunksRead.holdsWord {later : List EnvEvent} (h : ChunksRead later s t) : t.HoldsWord = s.HoldsWord := by
  funext a entry
  rw [State.HoldsWord, State.HoldsWord, h.par, h.regs]

theorem ChunksRead.trans {later : List EnvEvent} (h : ChunksRead later s t) (g : ChunksRead rest t u) :
    ChunksRead rest s u :=
  ⟨g.par.trans h.par, g.res.trans h.res, g.regs.trans h.regs, g.script⟩

/-- The turn of one chunk the firmware answers. -/
theorem prefetchFrom_turn (turns : Nat) (hj : j < 43) (hp : s.par.valid = true) (hb : s.eng.dbuf.length = 400)
    (hs : s.env.script = readScript (nextId s.replyId) 0xAC ++ rest) :
    ∃ t, prefetchFrom (turns + 1) (chunkStart j) s = prefetchFrom turns (chunkStart (j + 1)) t ∧ ChunksRead rest s t ∧
      CacheFills s.HoldsWord (chunkStart j) (chunkStart (j + 1)) s t ∧ t.replyId = nextId s.replyId ∧
      t.eng.dbuf.length = 400 := by
  obtain ⟨t, run, traffic, id, script, regs⟩ := readChunk_served hj hp hb hs
  have inward := t.cacheWords_inward (chunkStart j) (readRegs s.par s.tag.regs (chunkStart j) (chunkSize j))
  refine ⟨_, by rw [prefetchFrom_chunk hj, run, Res.ok_andThen, wordsOf_bytesOf], ⟨?_, ?_, ?_, ?_⟩,
    .cacheWords traffic.cache (by rw [chunkStart_succ hj, readRegs_length]) fun a ha hu => ?_, ?_, ?_⟩
  · rw [inward.par, traffic.par]
  · rw [State.cacheWords_res, traffic.res]
  · rw [inward.tag, regs]
  · rw [inward.env, script]
  · rw [chunkStart_succ hj] at hu
    rw [State.HoldsWord, readRegs_getElem? _ _ _ (by omega), Nat.add_sub_cancel' ha]
  · rw [inward.replyId, id]
  · rw [State.cacheWords_eng]
    exact traffic.dbuf hb

/-- The turns of `k` chunks the firmware answers, from chunk `j` on. -/
theorem prefetchFrom_answered (turns : Nat) (hk : j + k ≤ 43) (hp : s.par.valid = true) (hb : s.eng.dbuf.length = 400)
    (hs : s.env.script = readScripts (nextId s.replyId) k ++ rest) :
    ∃ t, prefetchFrom (turns + k) (chunkStart j) s = prefetchFrom turns (chunkStart (j + k)) t ∧ ChunksRead rest s t ∧
      CacheFills s.HoldsWord (chunkStart j) (chunkStart (j + k)) s t := by
  induction k generalizing j s with
  | zero => exact ⟨s, rfl, ⟨rfl, rfl, rfl, hs⟩, .none_of_cache_eq rfl⟩
  | succ k ih =>
    rw [readScripts, List.append_assoc] at hs
    obtain ⟨t, turn, read, fills, id, dbuf⟩ := prefetchFrom_turn (turns + k) (j := j) (by omega) hp hb hs
    obtain ⟨u, turns', read', fills'⟩ := ih (j := j + 1) (by omega) (read.par ▸ hp) dbuf (id.symm ▸ read.script)
    rw [Nat.add_assoc, Nat.add_comm 1] at turns' fills'
    rw [read.holdsWord] at fills'
    exact ⟨u, turn.trans turns', read.trans read',
      fills.trans fills' (chunkStart_mono (by omega)) (chunkStart_mono (by omega))⟩

/-! ### The operation -/

theorem exec_prefetch (s : State) :
    exec .prefetch s =
      .next ((prefetchFrom (regEnd + 1) (chunkStart 0) s.begin).andThen fun _ s => .ok none s).finish := rfl

/-- The turns `PREFETCH` has suffice for its chunks, with turns to spare after the first `k`. -/
theorem turns_eq (h : k ≤ 43) : regEnd + 1 = regEnd - k + 1 + k := by
  unfold regEnd
  omega

/-- Settles O39: after 43 chunks the end of the register space is reached. -/
theorem prefetchCachesEveryRegister : Obligations.PrefetchCachesEveryRegister := by
  intro s rest hp hb hs
  obtain ⟨t, run, read, fills⟩ :=
    prefetchFrom_answered (s := s.begin) (j := 0) (regEnd - 43 + 1) (Nat.le_refl 43) hp hb hs
  have ended := exec_prefetch s
  rw [turns_eq (Nat.le_refl 43), run, prefetchFrom_done, Res.ok_andThen, Res.finish_ok] at ended
  refine ⟨_, ended, ?_, fun a ha => fills.filled a (Nat.zero_le a) (Nat.lt_succ_of_le ha),
    fun a ha => fills.others a (.inr ha), read.regs, read.script⟩
  rw [State.succeed_res, read.res]
  rfl

/-- A `PREFETCH` that fails does so at one chunk, those before it cached whole (43_register_cache.md R173). -/
theorem prefetchFrom_err {turns : Nat} (hj : j ≤ 43) (hb : s.eng.dbuf.length = 400)
    (h : prefetchFrom turns (chunkStart j) s = .err e t) :
    (∃ c : Err, e = .communicationExhausted c.status) ∧
      ∃ k, j ≤ k ∧ k < 43 ∧ CacheFills (fun _ entry => entry.isSome = true) (chunkStart j) (chunkStart k) s t := by
  induction turns generalizing j s with
  | zero => cases h
  | succ turns ih =>
    obtain rfl | hj := Nat.eq_or_lt_of_le hj
    · rw [prefetchFrom_done] at h
      cases h
    rw [prefetchFrom_chunk hj] at h
    have raised := readChunk_raises hj s
    obtain ⟨e', u, read, traffic⟩ | ⟨d, u, read, traffic⟩ := (show Traffic s (readChunk j s).state from
      transferRd_traffic _ _ s).ends <;> rw [read] at h raised
    · cases h
      obtain ⟨c, -, cause⟩ := raised
      exact ⟨⟨c, cause⟩, j, Nat.le_refl j, hj, .none_of_cache_eq traffic.cache⟩
    · have words := readChunk_length hj read hb
      have fills : CacheFills (fun _ entry => entry.isSome = true) (chunkStart j) (chunkStart (j + 1)) s
          (u.cacheWords (chunkStart j) (wordsOf d)) := by
        refine .cacheWords traffic.cache (by rw [chunkStart_succ hj, words]) fun a ha hu => ?_
        rw [chunkStart_succ hj] at hu
        rw [List.getElem?_eq_getElem (by omega)]
        rfl
      obtain ⟨cause, k, hk, hlt, later⟩ := ih (j := j + 1) hj (by rw [State.cacheWords_eng]; exact traffic.dbuf hb) h
      exact ⟨cause, k, by omega, hlt, fills.trans later (chunkStart_mono (by omega)) (chunkStart_mono hk)⟩

/-- Settles O40: the chunks before fill their entries, and the chunk that fails raises before it caches anything. -/
theorem failedPrefetchKeepsChunks : Obligations.FailedPrefetchKeepsChunks := by
  refine ⟨fun s k rest hp hb hk hs => ?_, fun s t hp hb h hne => ?_⟩
  · obtain ⟨t, run, read, fills⟩ :=
      prefetchFrom_answered (s := s.begin) (j := 0) (regEnd - k + 1) (by omega) hp hb hs
    rw [Nat.zero_add] at run fills
    obtain ⟨u, dead, traffic, script⟩ := readChunk_dead hk read.script
    have ended := exec_prefetch s
    rw [turns_eq hk.le, run, prefetchFrom_chunk hk, dead, Res.err_andThen, Res.err_andThen, Res.finish_err] at ended
    rw [chunkStart_eq hk] at fills
    refine ⟨_, ended, ?_, fun a ha => (traffic.cached a).trans (fills.filled a (Nat.zero_le a) ha),
      fun a ha => (traffic.cached a).trans (fills.others a (.inr ha)), script⟩
    rw [State.raise_res, traffic.res, read.res]
    rfl
  · rw [exec_prefetch] at h
    cases run : prefetchFrom (regEnd + 1) (chunkStart 0) s.begin with
    | ok v u =>
      rw [run] at h
      cases h
      exact absurd rfl hne
    | err e u =>
      rw [run] at h
      cases h
      obtain ⟨⟨c, rfl⟩, k, -, hk, fills⟩ := prefetchFrom_err (s := s.begin) (Nat.zero_le 43) hb run
      rw [chunkStart_eq hk] at fills
      exact ⟨rfl, k, hk, fun a ha => fills.filled a (Nat.zero_le a) ha, fun a ha => fills.others a (.inr ha)⟩

end Sys2Proof.Machine
end

section
/-! PROOF of the statements about `MODE` and `DEC` (44_log_decoder.md): any words are a used log area, whole records without a
sentinel, a cut record and an end; the scan's points are those of the first `count` records, and the sort is stable. -/

namespace Sys2Proof.Machine

variable {ch : Channel} {mode : BitVec 2} {count : Int} {words : List Word} {d : Decoder}

/-! ### `MODE` (R181) -/

theorem modeOf_getLsbD_zero (time sample : BitVec 6) : (modeOf time sample).getLsbD 0 = (time != 0) := by
  rw [modeOf]
  cases time != 0 <;> cases sample != 0 <;> rfl

theorem modeOf_getLsbD_one (time sample : BitVec 6) : (modeOf time sample).getLsbD 1 = (sample != 0) := by
  rw [modeOf]
  cases time != 0 <;> cases sample != 0 <;> rfl

/-- Some flag of six is set. -/
theorem bne_zero_iff_exists_flag (flags : BitVec 6) : (flags != 0) = true ↔ ∃ k < 6, flags.getLsbD k = true := by
  rw [bne_iff_ne, ← not_iff_not, not_not]
  push Not
  refine ⟨fun h k _ => by simp [h], fun h => BitVec.eq_of_getLsbD_eq fun k hk => ?_⟩
  simpa using h k hk

/-- Settles O46: each bit is the OR of its six flags. -/
theorem modeReduction : Obligations.ModeReduction := by
  intro time sample s
  refine ⟨modeOf time sample, rfl, ?_, ?_⟩
  · rw [modeOf_getLsbD_zero, bne_zero_iff_exists_flag]
  · rw [modeOf_getLsbD_one, bne_zero_iff_exists_flag]

/-! ### How `DEC` ends (R182, R190) -/

theorem configVerdict_passes (hm : mode ≠ 0) (hc : 0 < count) : configVerdict mode count = none := by
  rw [configVerdict, if_neg hm, if_neg (not_le.mpr hc)]

/-- A configuration that passes has a mode and a positive count. -/
theorem of_configVerdict_none (h : configVerdict mode count = none) : mode ≠ 0 ∧ 0 < count := by
  unfold configVerdict at h
  split at h
  · cases h
  · rename_i hm
    split at h
    · cases h
    · exact ⟨hm, by omega⟩

/-- The decoder `DEC` leaves when its configuration passes (R190). -/
def decoded (ch : Channel) (mode : BitVec 2) (count : Int) (words : List Word) : Decoder :=
  ((Decoder.start ch mode count).scan words).finish

theorem exec_dec (ch : Channel) (mode : BitVec 2) (count : Int) (words : List Word) (s : State) :
    exec (.dec ch mode count words) s =
      .next ((decodeLog ch mode count words s.begin).andThen fun ps s => .ok (some (.points ps)) s).finish := rfl

theorem exec_dec_fails {e : Err} (h : configVerdict mode count = some e) (ch : Channel) (words : List Word) (s : State) :
    exec (.dec ch mode count words) s = .next (s.failed e.status e.info) := by
  rw [exec_dec, decodeLog_fails h]
  rfl

theorem exec_dec_passes (hm : mode ≠ 0) (hc : 0 < count) (ch : Channel) (words : List Word) (s : State) :
    exec (.dec ch mode count words) s =
      .next ((s.setDec (decoded ch mode count words)).ended (.points (decoded ch mode count words).points)) := by
  rw [exec_dec, decodeLog_passes (configVerdict_passes hm hc)]
  rfl

/-- Settles O47: the check looks at the mode first, and raises before any word. -/
theorem decConfigurationErrors : Obligations.DecConfigurationErrors := by
  refine fun ch mode count words s => ⟨fun hm => ?_, fun hm hc => ?_⟩
  · exact exec_dec_fails (e := .configurationError 1) (if_pos hm) ch words s
  · exact exec_dec_fails (e := .configurationError 2) ((if_neg hm).trans (if_pos hc)) ch words s

/-! ### What ends a scan (R184, R185) -/

theorem Decoder.scan_full (h : d.count ≤ d.points.length) (words : List Word) : d.scan words = d := by
  cases words with
  | nil => rfl
  | cons w ws => exact if_pos h

theorem Decoder.scan_cons (h : d.points.length < d.count) {w : Word} (hw : w ≠ sentinel) (ws : List Word) :
    d.scan (w :: ws) = (d.absorb w).scan ws := by
  rw [Decoder.scan, if_neg (by omega), if_neg hw]

theorem Decoder.scan_sentinel (d : Decoder) (rest : List Word) : d.scan (sentinel :: rest) = d := by
  rw [Decoder.scan, if_pos rfl, ite_self]

/-- The words from a sentinel on are not looked at. -/
theorem Decoder.scan_append_sentinel (d : Decoder) (words rest : List Word) :
    d.scan (words ++ sentinel :: rest) = d.scan words := by
  induction words generalizing d with
  | nil => exact Decoder.scan_sentinel d rest
  | cons w ws ih => rw [List.cons_append, Decoder.scan, Decoder.scan, ih]

/-- Settles O48: the scan of the words before is the scan of all, and every decode empties the accumulator. -/
theorem sentinelEndsScan : Obligations.SentinelEndsScan := by
  intro ch mode count words rest s
  refine ⟨?_, fun hm hc => ⟨_, exec_dec_passes hm hc ch _ s, rfl, rfl⟩⟩
  rw [exec_dec, exec_dec, decodeLog, decodeLog, show (0xFFFF : Word) = sentinel from rfl, Decoder.scan_append_sentinel]

/-! ### One word, before its record is whole (R183, R186 to R188) -/

/-- Every value word gives a value: what a code stands for lies in its channel's range (R186, 40_codec.md R121). -/
theorem Accumulator.take_value (acc : Accumulator) (ch : Channel) (w : Word) :
    acc.take ch .value w = { acc with val := some (decodeValue ch w) } := by
  refine if_pos ?_
  cases ch with
  | temperature => exact decodeTemp_valid w
  | humidity => exact decodeHum_valid w

theorem Accumulator.take_ts {r : Role} (h : r ≠ .thigh) (acc : Accumulator) (ch : Channel) (w : Word) :
    (acc.take ch r w).ts = acc.ts := by
  cases r with
  | value => rw [Accumulator.take_value]
  | tlow => rfl
  | thigh => exact absurd rfl h

/-- A word that is not the last of its record is no high half, and the mode is one with timestamps. -/
theorem role_of_not_last {i : Nat} (h : i % groupLength mode + 1 < groupLength mode) :
    role mode i ≠ .thigh ∧ mode ≠ 2 := by
  unfold groupLength at h
  unfold role
  split at h
  · subst mode
    rw [if_pos rfl, if_pos (by omega)]
    exact ⟨nofun, by decide⟩
  · split at h
    · omega
    · rename_i h1 h2
      rw [if_neg h1, if_neg h2]
      refine ⟨?_, h2⟩
      obtain h | h : i % 3 = 0 ∨ i % 3 = 1 := by omega
      all_goals simp [h]

/-- Without a timestamp no point of a mode with timestamps is complete. -/
theorem Accumulator.complete_of_ts_none {acc : Accumulator} (h : acc.ts = none) (hm : mode ≠ 2) :
    acc.complete mode = false := by
  unfold Accumulator.complete
  rw [if_neg hm, h]
  exact ite_self _

theorem Decoder.absorb_not_last (hts : d.acc.ts = none) (h : d.i % groupLength d.mode + 1 < groupLength d.mode) (w : Word) :
    d.absorb w = { d with i := d.i + 1, acc := d.acc.take d.ch (role d.mode d.i) w } := by
  obtain ⟨hr, hm⟩ := role_of_not_last h
  exact if_neg (by rw [Accumulator.complete_of_ts_none ((Accumulator.take_ts hr _ _ _).trans hts) hm]; exact Bool.false_ne_true)

/-- Words that do not fill their record complete no point, sentinels among them or not. -/
theorem Decoder.scan_cut_points (hts : d.acc.ts = none) (h : d.i % groupLength d.mode + words.length < groupLength d.mode) :
    (d.scan words).points = d.points := by
  induction words generalizing d with
  | nil => rfl
  | cons w ws ih =>
    rw [List.length_cons] at h
    unfold Decoder.scan
    split
    · rfl
    · split
      · rfl
      · have next : (d.i + 1) % groupLength d.mode = d.i % groupLength d.mode + 1 := by
          rw [← Nat.mod_add_mod]
          exact Nat.mod_eq_of_lt (by omega)
        rw [Decoder.absorb_not_last hts (by omega)]
        refine ih ((Accumulator.take_ts (role_of_not_last (by omega)).1 _ _ _).trans hts) ?_
        show (d.i + 1) % groupLength d.mode + ws.length < groupLength d.mode
        omega

/-! ### One whole record (R180, R183 to R188) -/

theorem timestampOf_eq (hi lo : Word) : timestampOf hi lo = BitVec.ofNat 32 (hi.toNat * 65536 + lo.toNat) := by
  have h := hi.isLt
  have l := lo.isLt
  refine BitVec.eq_of_toNat_eq ?_
  rw [timestampOf, BitVec.toNat_or, BitVec.toNat_shiftLeft, BitVec.toNat_setWidth, BitVec.toNat_setWidth,
    BitVec.toNat_ofNat, Nat.mod_eq_of_lt (a := hi.toNat) (by omega), Nat.mod_eq_of_lt (a := lo.toNat) (by omega),
    Nat.mod_eq_of_lt (a := hi.toNat <<< 16) (by rw [Nat.shiftLeft_eq]; omega), ← Nat.shiftLeft_add_eq_or_of_lt l,
    Nat.shiftLeft_eq, Nat.mod_eq_of_lt (by omega)]

theorem LogGroup.words_length (mode : BitVec 2) (g : LogGroup) : (g.words mode).length = groupLength mode := by
  unfold LogGroup.words groupLength
  split
  · rfl
  · split <;> rfl

theorem Decoder.absorb_last {w : Word} (h : (d.acc.take d.ch (role d.mode d.i) w).complete d.mode = true) :
    d.absorb w =
      { d with
        i := d.i + 1
        acc := Accumulator.empty
        points := d.points ++ [{ timestamp := (d.acc.take d.ch (role d.mode d.i) w).ts
                                 value := (d.acc.take d.ch (role d.mode d.i) w).val }] } :=
  if_pos h

theorem role_three (i : Nat) : role 3 i = if i % 3 = 0 then .value else if i % 3 = 1 then .tlow else .thigh := rfl

section
variable {i : Nat} {points : List Point} {value low high : Word} (hc : points.length < count)
include hc

/-- A record of mode 1: the halves of its timestamp. -/
theorem Decoder.scan_times (hi : i % 2 = 0) (hl : low ≠ sentinel) (hh : high ≠ sentinel) (rest : List Word) :
    ({ ch, mode := 1, count, i, acc := Accumulator.empty, points } : Decoder).scan (low :: high :: rest) =
      ({ ch, mode := 1, count, i := i + 2, acc := Accumulator.empty
         points := points ++ [{ timestamp := some (timestampOf high low), value := none }] } : Decoder).scan rest := by
  have r0 : role 1 i = .tlow := if_pos hi
  have r1 : role 1 (i + 1) = .thigh := if_neg (show ¬ (i + 1) % 2 = 0 by omega)
  rw [Decoder.scan_cons hc hl, Decoder.absorb_not_last rfl (by simp [groupLength, hi])]
  dsimp only
  rw [r0, Decoder.scan_cons hc hh, Decoder.absorb_last (by dsimp only; rw [r1]; rfl)]
  dsimp only
  rw [r1]
  rfl

/-- A record of mode 2: its value. -/
theorem Decoder.scan_sample (hv : value ≠ sentinel) (rest : List Word) :
    ({ ch, mode := 2, count, i, acc := Accumulator.empty, points } : Decoder).scan (value :: rest) =
      ({ ch, mode := 2, count, i := i + 1, acc := Accumulator.empty
         points := points ++ [{ timestamp := none, value := some (decodeValue ch value) }] } : Decoder).scan rest := by
  have r0 : role 2 i = .value := rfl
  rw [Decoder.scan_cons hc hv, Decoder.absorb_last (by dsimp only; rw [r0, Accumulator.take_value]; rfl)]
  dsimp only
  rw [r0, Accumulator.take_value]
  rfl

/-- A record of mode 3: its value and the halves of its timestamp. -/
theorem Decoder.scan_timedSample (hi : i % 3 = 0) (hv : value ≠ sentinel) (hl : low ≠ sentinel) (hh : high ≠ sentinel)
    (rest : List Word) :
    ({ ch, mode := 3, count, i, acc := Accumulator.empty, points } : Decoder).scan (value :: low :: high :: rest) =
      ({ ch, mode := 3, count, i := i + 3, acc := Accumulator.empty
         points := points ++ [{ timestamp := some (timestampOf high low), value := some (decodeValue ch value) }] }
        : Decoder).scan rest := by
  have i1 : (i + 1) % 3 = 1 := by omega
  have i2 : (i + 1 + 1) % 3 = 2 := by omega
  have r0 : role 3 i = .value := if_pos hi
  have r1 : role 3 (i + 1) = .tlow := by rw [role_three, i1]; rfl
  have r2 : role 3 (i + 1 + 1) = .thigh := by rw [role_three, i2]; rfl
  rw [Decoder.scan_cons hc hv, Decoder.absorb_not_last rfl (by simp [groupLength, hi])]
  dsimp only
  rw [r0, Accumulator.take_value, Decoder.scan_cons hc hl, Decoder.absorb_not_last rfl (by simp [groupLength, i1])]
  dsimp only
  rw [r1, Decoder.scan_cons hc hh, Decoder.absorb_last (by dsimp only; rw [r2]; rfl)]
  dsimp only
  rw [r2]
  rfl

end

theorem LogGroup.point_times (ch : Channel) (g : LogGroup) :
    g.point ch 1 = { timestamp := some (timestampOf g.high g.low), value := none } := by
  rw [timestampOf_eq]
  rfl

theorem LogGroup.point_sample (ch : Channel) (g : LogGroup) :
    g.point ch 2 = { timestamp := none, value := some (decodeValue ch g.value) } := by
  cases ch <;> rfl

theorem LogGroup.point_timedSample (ch : Channel) (g : LogGroup) :
    g.point ch 3 = { timestamp := some (timestampOf g.high g.low), value := some (decodeValue ch g.value) } := by
  rw [timestampOf_eq]
  cases ch <;> rfl

theorem mode_cases : ∀ mode : BitVec 2, mode ≠ 0 → mode = 1 ∨ mode = 2 ∨ mode = 3 := by decide

/-- A whole record without a sentinel, the count not yet reached, yields its point. -/
theorem Decoder.scan_group {g : LogGroup} (hm : d.mode ≠ 0) (hacc : d.acc = Accumulator.empty)
    (hi : d.i % groupLength d.mode = 0) (hc : d.points.length < d.count) (hg : sentinel ∉ g.words d.mode)
    (rest : List Word) :
    d.scan (g.words d.mode ++ rest) =
      { d with i := d.i + groupLength d.mode, points := d.points ++ [g.point d.ch d.mode] }.scan rest := by
  obtain ⟨ch, mode, count, i, acc, points⟩ := d
  dsimp only at *
  subst hacc
  have others (w : Word) (hw : w ∈ g.words mode) : w ≠ sentinel := fun h => hg (h ▸ hw)
  obtain rfl | rfl | rfl := mode_cases mode hm
  · rw [g.point_times]
    exact Decoder.scan_times hc hi (others g.low (by simp [LogGroup.words])) (others g.high (by simp [LogGroup.words])) rest
  · rw [g.point_sample]
    exact Decoder.scan_sample hc (others g.value (by simp [LogGroup.words])) rest
  · rw [g.point_timedSample]
    exact Decoder.scan_timedSample hc hi (others g.value (by simp [LogGroup.words])) (others g.low (by simp [LogGroup.words]))
      (others g.high (by simp [LogGroup.words])) rest

/-! ### A used log area (R184, R185, R188) -/

/-- The end of the area, or a sentinel and anything, adds nothing to the scan of the words before. -/
theorem Decoder.scan_append_end {tail : List Word} (h : tail = [] ∨ ∃ rest, tail = 0xFFFF :: rest) (d : Decoder)
    (words : List Word) : d.scan (words ++ tail) = d.scan words := by
  obtain rfl | ⟨rest, rfl⟩ := h
  · rw [List.append_nil]
  · exact Decoder.scan_append_sentinel d words rest

/-- From a record's first word on: the points of the whole records that fit the count follow those found before. -/
theorem Decoder.scan_groups {groups : List LogGroup} {cut : List Word} (hm : d.mode ≠ 0) (hacc : d.acc = Accumulator.empty)
    (hi : d.i % groupLength d.mode = 0) (hg : ∀ g ∈ groups, sentinel ∉ g.words d.mode)
    (hcut : cut.length < groupLength d.mode) :
    (d.scan (groups.flatMap (fun g => g.words d.mode) ++ cut)).points =
      d.points ++ (groups.map (fun g => g.point d.ch d.mode)).take (d.count.toNat - d.points.length) := by
  induction groups generalizing d with
  | nil =>
    rw [List.flatMap_nil, List.nil_append, Decoder.scan_cut_points (by rw [hacc]; rfl) (by omega), List.map_nil, List.take_nil,
      List.append_nil]
  | cons g groups ih =>
    by_cases hc : d.count ≤ d.points.length
    · rw [Decoder.scan_full hc, Nat.sub_eq_zero_of_le (by omega), List.take_zero, List.append_nil]
    · obtain ⟨hg, hgroups⟩ := List.forall_mem_cons.mp hg
      obtain ⟨left, hleft⟩ : ∃ left, d.count.toNat - d.points.length = left + 1 :=
        ⟨d.count.toNat - d.points.length - 1, by omega⟩
      have later := ih
        (d := { d with i := d.i + groupLength d.mode, points := d.points ++ [g.point d.ch d.mode] }) hm hacc
        ((Nat.add_mod_right _ _).trans hi) hgroups hcut
      rw [List.length_append, List.length_singleton, show d.count.toNat - (d.points.length + 1) = left by omega,
        List.append_assoc] at later
      rw [List.flatMap_cons, List.append_assoc, Decoder.scan_group hm hacc hi (by omega) hg, later, hleft, List.map_cons,
        List.take_succ_cons]
      rfl

/-- What `DEC`'s scan finds in a used log area (R180, R183 to R188). -/
theorem Decoder.scan_area (hm : mode ≠ 0) {groups : List LogGroup} {cut tail : List Word}
    (hg : ∀ g ∈ groups, 0xFFFF ∉ g.words mode) (hcut : cut.length < groupLength mode)
    (htail : tail = [] ∨ ∃ rest, tail = 0xFFFF :: rest) (ch : Channel) (count : Int) :
    ((Decoder.start ch mode count).scan (groups.flatMap (fun g => g.words mode) ++ cut ++ tail)).points =
      (groups.map (fun g => g.point ch mode)).take count.toNat := by
  rw [Decoder.scan_append_end htail]
  exact Decoder.scan_groups (d := Decoder.start ch mode count) hm rfl (Nat.zero_mod _) hg hcut

/-- Words enough for a record are a record's. -/
theorem exists_group {ws : List Word} (h : ws.length = groupLength mode) : ∃ g : LogGroup, g.words mode = ws := by
  unfold groupLength at h
  unfold LogGroup.words
  split at h
  · obtain ⟨low, high, rfl⟩ := List.length_eq_two.mp h
    exact ⟨⟨0, low, high⟩, if_pos ‹_›⟩
  · split at h
    · obtain ⟨value, rfl⟩ := List.length_eq_one_iff.mp h
      exact ⟨⟨value, 0, 0⟩, by rw [if_neg ‹_›, if_pos ‹_›]⟩
    · obtain ⟨value, low, high, rfl⟩ := List.length_eq_three.mp h
      exact ⟨⟨value, low, high⟩, by rw [if_neg ‹_›, if_neg ‹_›]⟩

theorem groupLength_pos (mode : BitVec 2) : 0 < groupLength mode := by
  unfold groupLength
  split_ifs <;> decide

/-- Any words are whole records and a cut one. -/
theorem exists_groups (mode : BitVec 2) (words : List Word) :
    ∃ (groups : List LogGroup) (cut : List Word), words = groups.flatMap (fun g => g.words mode) ++ cut ∧
      cut.length < groupLength mode := by
  by_cases h : words.length < groupLength mode
  · exact ⟨[], words, rfl, h⟩
  · have := groupLength_pos mode
    obtain ⟨g, hg⟩ := exists_group (mode := mode) (List.length_take_of_le (not_lt.mp h))
    obtain ⟨groups, cut, hrest, hcut⟩ := exists_groups mode (words.drop (groupLength mode))
    refine ⟨g :: groups, cut, ?_, hcut⟩
    rw [List.flatMap_cons, hg, List.append_assoc, ← hrest, List.take_append_drop]
termination_by words.length
decreasing_by rw [List.length_drop]; omega

/-- Any words end at their end or at the first sentinel. -/
theorem exists_end (words : List Word) :
    ∃ before tail, words = before ++ tail ∧ 0xFFFF ∉ before ∧ (tail = [] ∨ ∃ rest, tail = 0xFFFF :: rest) := by
  by_cases h : (0xFFFF : Word) ∈ words
  · obtain ⟨before, rest, rfl, hfirst⟩ := List.eq_append_cons_of_mem h
    exact ⟨before, 0xFFFF :: rest, rfl, hfirst, .inr ⟨rest, rfl⟩⟩
  · exact ⟨words, [], (List.append_nil _).symm, h, .inl rfl⟩

/-- Whatever the words, the scan finds the points of the first `count` of some whole records among them. -/
theorem Decoder.scan_start_points (hm : mode ≠ 0) (ch : Channel) (count : Int) (words : List Word) :
    ∃ groups : List LogGroup, groups.length * groupLength mode ≤ words.length ∧
      ((Decoder.start ch mode count).scan words).points = (groups.map (fun g => g.point ch mode)).take count.toNat := by
  obtain ⟨before, tail, rfl, hbefore, htail⟩ := exists_end words
  obtain ⟨groups, cut, rfl, hcut⟩ := exists_groups mode before
  refine ⟨groups, ?_, Decoder.scan_area hm (fun g hg hmem => hbefore ?_) hcut htail ch count⟩
  · have : (groups.flatMap (fun g => g.words mode)).length = groups.length * groupLength mode := by
      simp [List.length_flatMap, LogGroup.words_length]
    rw [List.length_append, List.length_append, this]
    omega
  · exact List.mem_append_left _ (List.mem_flatMap.mpr ⟨g, hg, hmem⟩)

/-! ### The sort (R189) -/

/-- The key of the sort: the timestamp as an unsigned integer, a missing one above them all. -/
def Point.rank (p : Point) : Nat := p.timestamp.elim (2 ^ 32) BitVec.toNat

theorem Point.rank_of_timestamp {p : Point} {t : BitVec 32} (h : p.timestamp = some t) : p.rank = t.toNat := by
  rw [Point.rank, h, Option.elim_some]

theorem pointLe_iff (p q : Point) : pointLe p q = true ↔ p.rank ≤ q.rank := by
  obtain ⟨t, v⟩ := p
  obtain ⟨u, w⟩ := q
  cases t with
  | none =>
    cases u with
    | none => simp [pointLe, Point.rank]
    | some u => simpa [pointLe, Point.rank] using u.isLt
  | some t =>
    cases u with
    | none => simpa [pointLe, Point.rank] using t.isLt.le
    | some u => simp [pointLe, Point.rank]

/-- Points found with their timestamps are sorted by them. Those of one timestamp already stand in the sort's order, so they
are a sublist of the sorted points, and they are all of that timestamp. -/
theorem sortPoints_sorted {found : List Point} (h : ∀ p ∈ found, p.timestamp ≠ none) :
    SortedFrom found (sortPoints found) := by
  have total : Std.Total (fun p q => pointLe p q = true) :=
    ⟨fun p q => (Nat.le_total p.rank q.rank).imp (pointLe_iff p q).mpr (pointLe_iff q p).mpr⟩
  have trans : IsTrans Point (fun p q => pointLe p q = true) :=
    ⟨fun p q r k l => (pointLe_iff p r).mpr (((pointLe_iff p q).mp k).trans ((pointLe_iff q r).mp l))⟩
  have perm : (sortPoints found).Perm found := List.perm_insertionSort _ found
  have timed : ∀ p ∈ sortPoints found, p.timestamp ≠ none := fun p hp => h p (perm.mem_iff.mp hp)
  refine ⟨⟨(List.pairwise_insertionSort _ found).imp_of_mem fun {p q} hp hq le => ?_, timed⟩,
    perm.length_eq, fun ts => ?_⟩
  · obtain ⟨t, ht⟩ := Option.ne_none_iff_exists'.mp (timed p hp)
    obtain ⟨u, hu⟩ := Option.ne_none_iff_exists'.mp (timed q hq)
    have le := (pointLe_iff p q).mp le
    rw [Point.rank_of_timestamp ht, Point.rank_of_timestamp hu] at le
    exact ⟨t, u, ht, hu, le⟩
  · have equal : (found.filter fun p => p.timestamp = ts).Pairwise fun p q => pointLe p q = true := by
      refine List.pairwise_of_forall_mem_list fun p hp q hq => (pointLe_iff p q).mpr (le_of_eq ?_)
      rw [Point.rank, Point.rank, of_decide_eq_true (List.mem_filter.mp hp).2, of_decide_eq_true (List.mem_filter.mp hq).2]
    have kept : (found.filter fun p => p.timestamp = ts).Sublist (sortPoints found) :=
      List.sublist_insertionSort equal List.filter_sublist
    have all := kept.filter fun p => p.timestamp = ts
    simp only [List.filter_filter, Bool.and_self] at all
    exact (all.eq_of_length (perm.filter _).length_eq.symm).symm

/-- The scan keeps the mode. -/
theorem Decoder.scan_mode (d : Decoder) (words : List Word) : (d.scan words).mode = d.mode := by
  induction words generalizing d with
  | nil => rfl
  | cons w ws ih =>
    unfold Decoder.scan
    split
    · rfl
    · split
      · rfl
      · rw [ih]
        unfold Decoder.absorb
        dsimp only
        split <;> rfl

theorem decoded_points (ch : Channel) (mode : BitVec 2) (count : Int) (words : List Word) :
    (decoded ch mode count words).points =
      let found := ((Decoder.start ch mode count).scan words).points
      if mode.getLsbD 0 then sortPoints found else found := by
  rw [decoded, Decoder.finish, Decoder.scan_mode]
  rfl

theorem decoded_points_length (ch : Channel) (mode : BitVec 2) (count : Int) (words : List Word) :
    (decoded ch mode count words).points.length = ((Decoder.start ch mode count).scan words).points.length := by
  rw [decoded_points]
  dsimp only
  split
  · exact List.length_insertionSort _ _
  · rfl

/-- In a mode with timestamps every point found has one. -/
theorem Decoder.scan_start_timed (hm : mode.getLsbD 0 = true) (ch : Channel) (count : Int) (words : List Word) :
    ∀ p ∈ ((Decoder.start ch mode count).scan words).points, p.timestamp ≠ none := by
  have h0 : mode ≠ 0 := by rintro rfl; cases hm
  have h2 : mode ≠ 2 := by rintro rfl; cases hm
  obtain ⟨groups, -, found⟩ := Decoder.scan_start_points h0 ch count words
  intro p hp
  rw [found] at hp
  obtain ⟨g, -, rfl⟩ := List.mem_map.mp (List.mem_of_mem_take hp)
  exact fun h => Option.some_ne_none _ ((if_neg h2).symm.trans h)

theorem decoded_sorted (hm : mode.getLsbD 0 = true) (ch : Channel) (count : Int) (words : List Word) :
    SortedFrom ((Decoder.start ch mode count).scan words).points (decoded ch mode count words).points := by
  rw [decoded_points]
  dsimp only
  rw [if_pos hm]
  exact sortPoints_sorted (Decoder.scan_start_timed hm ch count words)

theorem timed_of_ne_sample : ∀ mode : BitVec 2, mode ≠ 0 → mode ≠ 2 → mode.getLsbD 0 = true := by decide

/-- Settles O49: the points are those of whole records among the words, at most `count`, and the sort keeps their number. -/
theorem decResultBounded : Obligations.DecResultBounded := by
  intro ch mode count words s hm hc
  obtain ⟨groups, fits, found⟩ := Decoder.scan_start_points hm ch count words
  have length : (decoded ch mode count words).points.length = min count.toNat groups.length := by
    rw [decoded_points_length, found, List.length_take, List.length_map]
  refine ⟨_, _, exec_dec_passes hm hc ch words s, rfl, rfl, by omega, ?_⟩
  rw [length, Nat.le_div_iff_mul_le (groupLength_pos mode)]
  exact (Nat.mul_le_mul_right _ (Nat.min_le_right _ _)).trans fits

/-- Settles O50: the scan's points all have timestamps, and the sort is stable. -/
theorem decSortsStably : Obligations.DecSortsStably := by
  intro ch mode count words s hm hc
  have h0 : mode ≠ 0 := by rintro rfl; cases hm
  exact ⟨_, _, exec_dec_passes h0 hc ch words s, rfl, decoded_sorted hm ch count words⟩

/-- Settles O51: the points the scan finds, record by record, then the sort of the modes with timestamps. -/
theorem decRebuildsPoints : Obligations.DecRebuildsPoints := by
  intro ch mode count groups cut tail s hm hc hg hcut htail found
  have scanned := Decoder.scan_area hm hg hcut htail ch count
  refine ⟨_, _, exec_dec_passes hm hc ch _ s, rfl, ?_, fun h2 => ?_, rfl⟩
  · rintro rfl
    exact (decoded_points ..).trans scanned
  · have sorted := decoded_sorted (timed_of_ne_sample mode hm h2) ch count
      (groups.flatMap (fun g => g.words mode) ++ cut ++ tail)
    rwa [scanned] at sorted

end Sys2Proof.Machine
end

section
/-! PROOF of the statements about `DECLOG` (44_log_decoder.md R191): the registers it reads are cached when it succeeds, and it
is `DEC` of their words. -/

namespace Sys2Proof.Machine

variable {s t u : State} {ch : Channel}

/-! ### The register map (00_scope.md R9) -/

/-- What the constraints say of the registers `DECLOG` reads. -/
theorem ChannelMap.valid_fields {m : ChannelMap} (h : m.valid = true) :
    m.binFlags.length = 6 ∧ (∀ a ∈ m.binFlags, a.toNat ≤ 0x1089) ∧ (∀ a ∈ m.countRegs, a.toNat ≤ 0x1089) ∧
      m.logBase.toNat + m.logLen ≤ 0x108A := by
  simp only [ChannelMap.valid, Bool.and_eq_true, List.all_eq_true, inRegisterSpace, decide_eq_true_eq, beq_iff_eq] at h
  obtain ⟨⟨⟨⟨length, flags⟩, counts⟩, area⟩, -⟩ := h
  exact ⟨length, flags, counts, area⟩

theorem Params.valid_map {p : Params} (h : p.valid = true) (ch : Channel) : (p.map ch).valid = true := by
  simp only [Params.valid, Bool.and_eq_true] at h
  obtain ⟨⟨⟨-, temperature⟩, humidity⟩, -⟩ := h
  cases ch with
  | temperature => exact temperature
  | humidity => exact humidity

/-- A word of the log area is the register at `LOG_BASE + j`. -/
theorem logAddress_toNat {m : ChannelMap} (h : m.logBase.toNat + m.logLen ≤ 0x108A) {j : Nat} (hj : j < m.logLen) :
    (BitVec.ofNat 16 (m.logBase.toNat + j)).toNat = m.logBase.toNat + j := by
  rw [BitVec.toNat_ofNat]
  omega

theorem mem_logAddresses {m : ChannelMap} {a : Word} :
    a ∈ logAddresses m ↔ ∃ j < m.logLen, BitVec.ofNat 16 (m.logBase.toNat + j) = a := by
  simp only [logAddresses, List.mem_map, List.mem_range]

theorem logAddresses_map (m : ChannelMap) (word : Word → Word) : (logAddresses m).map word = areaWords m word :=
  List.map_map

/-! ### The mode of the flags words (R181, 10_state.md R38) -/

/-- `DECLOG`'s mode, from the six enable-flags words. -/
def modeOfFlags (p : Params) (flags : List Word) : BitVec 2 :=
  modeOf (flagBits p.timeStoreBit flags) (flagBits p.sampleStoreBit flags)

theorem flagBits_cons (bit : Fin 16) (w : Word) (flags : List Word) :
    flagBits bit (w :: flags) = (flagBits bit flags <<< 1) ||| (BitVec.ofBool (w.getLsbD bit)).setWidth 6 := rfl

/-- Bit `k` comes from word `k`. -/
theorem flagBits_getLsbD (bit : Fin 16) (flags : List Word) {k : Nat} (hk : k < 6) :
    (flagBits bit flags).getLsbD k = (flags.getD k 0).getLsbD bit := by
  induction flags generalizing k with
  | nil => simp [flagBits]
  | cons w flags ih =>
    rw [flagBits_cons, BitVec.getLsbD_or, BitVec.getLsbD_shiftLeft, BitVec.getLsbD_setWidth, BitVec.getLsbD_ofBool]
    cases k with
    | zero => simp
    | succ k => simpa [hk] using ih (by omega)

/-- A bit of six words is set in the reduction's operand exactly if it is set in one of them. -/
theorem flagBits_bne_zero {bit : Fin 16} {flags : List Word} (h : flags.length = 6) :
    (flagBits bit flags != 0) = true ↔ ∃ w ∈ flags, w.getLsbD bit = true := by
  rw [bne_zero_iff_exists_flag]
  constructor
  · rintro ⟨k, hk, hbit⟩
    rw [flagBits_getLsbD bit flags hk, List.getD_eq_getElem _ _ (by omega)] at hbit
    exact ⟨_, List.getElem_mem _, hbit⟩
  · rintro ⟨w, hw, hbit⟩
    obtain ⟨k, hk, rfl⟩ := List.mem_iff_getElem.mp hw
    refine ⟨k, by omega, ?_⟩
    rwa [flagBits_getLsbD bit flags (by omega), List.getD_eq_getElem _ _ hk]

theorem anyBit_iff (word : Word → Word) (registers : List Word) (bit : Fin 16) :
    anyBit word registers bit ↔ ∃ w ∈ registers.map word, w.getLsbD bit = true := by
  simp only [anyBit, List.mem_map, exists_exists_and_eq_and, BitVec.getLsbD, Nat.testBit_eq_decide_div_mod_eq,
    decide_eq_true_eq]

theorem modeOfFlags_flagsMode {p : Params} (hp : p.valid = true) (ch : Channel) (word : Word → Word) :
    flagsMode p ch word (modeOfFlags p ((p.map ch).binFlags.map word)) := by
  obtain ⟨length, -⟩ := ChannelMap.valid_fields (Params.valid_map hp ch)
  have six : ((p.map ch).binFlags.map word).length = 6 := (List.length_map _).trans length
  refine ⟨?_, ?_⟩
  · rw [modeOfFlags, modeOf_getLsbD_zero, flagBits_bne_zero six, anyBit_iff]
  · rw [modeOfFlags, modeOf_getLsbD_one, flagBits_bne_zero six, anyBit_iff]

/-! ### Several `GET`s (43_register_cache.md R166) -/

/-- These registers are cached with these words. -/
def State.Caches (s : State) : List Word → List Word → Prop := List.Forall₂ fun a w => s.cached a.toNat = some w

theorem State.Caches.of_word {word : Word → Word} {as : List Word} (h : ∀ a ∈ as, s.cached a.toNat = some (word a)) :
    s.Caches as (as.map word) :=
  List.forall₂_map_right_iff.mpr (List.forall₂_same.mpr h)

theorem State.Caches.isSome {as ws : List Word} (h : s.Caches as ws) : ∀ a ∈ as, (s.cached a.toNat).isSome = true := by
  induction h with
  | nil => exact nofun
  | cons ha _ ih => exact List.forall_mem_cons.mpr ⟨by rw [ha]; rfl, ih⟩

/-- The words are those the cache holds at the addresses. -/
theorem State.Caches.eq_map {as ws : List Word} (h : s.Caches as ws) : as.map (fun a => (s.cached a.toNat).getD 0) = ws := by
  induction h with
  | nil => rfl
  | cons ha _ ih => rw [List.map_cons, ih, ha, Option.getD_some]

theorem getWords_hit {as ws : List Word} (has : ∀ a ∈ as, a.toNat ≤ 0x1089) (h : s.Caches as ws) :
    getWords as s = .ok ws s := by
  induction h with
  | nil => rfl
  | cons ha _ ih =>
    obtain ⟨hle, has⟩ := List.forall_mem_cons.mp has
    rw [getWords, getWord_hit hle ha, Res.ok_andThen, ih has, Res.ok_andThen]

/-- What a `GET` that succeeds leaves: the parameters and the host's registers as they were, and every entry that was there. -/
structure State.CacheGrows (s t : State) : Prop where
  par : t.par = s.par
  res : t.res = s.res
  kept : ∀ k w, s.cached k = some w → t.cached k = some w

theorem State.CacheGrows.refl (s : State) : s.CacheGrows s := ⟨rfl, rfl, fun _ _ => id⟩

theorem State.CacheGrows.trans (h : s.CacheGrows t) (k : t.CacheGrows u) : s.CacheGrows u :=
  ⟨k.par.trans h.par, k.res.trans h.res, fun a w hw => k.kept a w (h.kept a w hw)⟩

theorem State.CacheGrows.caches (h : s.CacheGrows t) {as ws : List Word} (hs : s.Caches as ws) : t.Caches as ws :=
  List.Forall₂.imp (fun (a w : Word) => h.kept a.toNat w) hs

theorem getWord_ok {address w : Word} (h : getWord address s = .ok w t) :
    s.CacheGrows t ∧ t.cached address.toNat = some w := by
  by_cases ha : address.toNat ≤ 0x1089
  · cases hc : s.cached address.toNat with
    | some v =>
      rw [getWord_hit ha hc] at h
      cases h
      exact ⟨.refl s, hc⟩
    | none =>
      rw [getWord_miss ha hc] at h
      obtain ⟨e, u, read, -⟩ | ⟨d, u, read, traffic⟩ := (transferRd_traffic (byteForm address) 2 s).ends <;>
        rw [read] at h <;> cases h
      refine ⟨⟨traffic.par, traffic.res, fun k v hk => ?_⟩, u.cached_cacheWord_same _ _⟩
      have other : k ≠ address.toNat := by
        rintro rfl
        rw [hc] at hk
        cases hk
      rw [u.cached_cacheWord_other other, traffic.cached, hk]
  · rw [getWord_bad_address (by omega)] at h
    cases h

theorem getWords_ok {as ws : List Word} (h : getWords as s = .ok ws t) : s.CacheGrows t ∧ t.Caches as ws := by
  induction as generalizing s ws with
  | nil =>
    cases h
    exact ⟨.refl t, .nil⟩
  | cons a as ih =>
    obtain ⟨w, u, get, h⟩ := Res.andThen_ok h
    obtain ⟨ws, v, gets, h⟩ := Res.andThen_ok h
    cases h
    obtain ⟨first, filled⟩ := getWord_ok get
    obtain ⟨later, others⟩ := ih gets
    exact ⟨first.trans later, .cons (later.kept _ _ filled) others⟩

/-! ### `DECLOG` (R191) -/

theorem exec_declog (ch : Channel) (s : State) :
    exec (.declog ch) s = .next ((decodeArea ch s.begin).andThen fun ps s => .ok (some (.points ps)) s).finish := rfl

/-- With every register cached, the area's decode is that of the words. -/
theorem decodeArea_hit (hp : s.par.valid = true) {flags counts words : List Word}
    (hflags : s.Caches (s.par.map ch).binFlags flags) (hcounts : s.Caches (s.par.map ch).countRegs counts)
    (hwords : s.Caches (logAddresses (s.par.map ch)) words) :
    decodeArea ch s = decodeLog ch (modeOfFlags s.par flags) (s.par.sampleCount ch counts) words s := by
  obtain ⟨-, flagsOk, countsOk, area⟩ := ChannelMap.valid_fields (Params.valid_map hp ch)
  have areaOk : ∀ a ∈ logAddresses (s.par.map ch), a.toNat ≤ 0x1089 := by
    intro a ha
    obtain ⟨j, hj, rfl⟩ := mem_logAddresses.mp ha
    rw [logAddress_toNat area hj]
    omega
  rw [decodeArea]
  dsimp only
  rw [getWords_hit flagsOk hflags, Res.ok_andThen, getWords_hit countsOk hcounts, Res.ok_andThen]
  split
  · rename_i e hv
    exact (decodeLog_fails hv ch words s).symm
  · rw [getWords_hit areaOk hwords, Res.ok_andThen, modeOfFlags]

/-- An area's decode that succeeds has read every register into the cache, and is the decode of their words. -/
theorem decodeArea_ok {ps : List Point} (h : decodeArea ch s = .ok ps t) :
    ∃ (u : State) (flags counts words : List Word), s.CacheGrows u ∧ u.Caches (s.par.map ch).binFlags flags ∧
      u.Caches (s.par.map ch).countRegs counts ∧ u.Caches (logAddresses (s.par.map ch)) words ∧
      configVerdict (modeOfFlags s.par flags) (s.par.sampleCount ch counts) = none ∧
      decodeLog ch (modeOfFlags s.par flags) (s.par.sampleCount ch counts) words u = .ok ps t := by
  obtain ⟨flags, x, getFlags, h⟩ := Res.andThen_ok h
  obtain ⟨counts, y, getCounts, h⟩ := Res.andThen_ok h
  obtain ⟨first, hflags⟩ := getWords_ok getFlags
  obtain ⟨second, hcounts⟩ := getWords_ok getCounts
  have par : y.par = s.par := second.par.trans first.par
  dsimp only at h
  rw [par] at h
  split at h
  · cases h
  · rename_i hv
    obtain ⟨words, u, getArea, h⟩ := Res.andThen_ok h
    obtain ⟨third, hwords⟩ := getWords_ok getArea
    exact ⟨u, flags, counts, words, (first.trans second).trans third, (second.trans third).caches hflags,
      third.caches hcounts, hwords, hv, h⟩

/-- Settles O52: every `GET` hits, so the decode is that of the words, and `DEC` is an operation on the block alone. -/
theorem declogOfCachedArea : Obligations.DeclogOfCachedArea := by
  intro ch word s hp hregs harea count
  obtain ⟨hflags, hcounts⟩ := List.forall_mem_append.mp hregs
  obtain ⟨-, -, -, fits⟩ := ChannelMap.valid_fields (Params.valid_map hp ch)
  have hwords : s.Caches (logAddresses (s.par.map ch)) (areaWords (s.par.map ch) word) := by
    rw [← logAddresses_map]
    refine .of_word fun a ha => ?_
    obtain ⟨j, hj, rfl⟩ := mem_logAddresses.mp ha
    rw [logAddress_toNat fits hj, harea j hj]
  have same : exec (.declog ch) s = exec (.dec ch (modeOfFlags s.par ((s.par.map ch).binFlags.map word)) count
      (areaWords (s.par.map ch) word)) s := by
    rw [exec_declog, exec_dec, decodeArea_hit (s := s.begin) hp (.of_word hflags) (.of_word hcounts) hwords]
    rfl
  refine ⟨_, modeOfFlags_flagsMode hp ch word, same, fun hm hc => ?_⟩
  rw [same]
  exact ⟨_, _, exec_dec_passes hm hc ch _ s, rfl, rfl, rfl, rfl⟩

/-- Settles O53: the registers are cached with the words decoded, and the decode changes no entry. -/
theorem declogDecodesTheCache : Obligations.DeclogDecodesTheCache := by
  intro ch s t hp h hok m word count
  rw [exec_declog] at h
  cases run : decodeArea ch s.begin with
  | err e v =>
    rw [run] at h
    cases h
    exact absurd hok e.status_ne_ok
  | ok ps v =>
    obtain ⟨u, flags, counts, words, grows, hflags, hcounts, hwords, hv, dec⟩ := decodeArea_ok run
    rw [State.begin_par] at hflags hcounts hwords hv dec
    obtain ⟨hm, hc⟩ := of_configVerdict_none hv
    obtain ⟨-, -, -, fits⟩ := ChannelMap.valid_fields (Params.valid_map hp ch)
    rw [decodeLog_passes hv] at dec
    rw [run] at h
    cases dec
    cases h
    have hcount : count = s.par.sampleCount ch counts := congrArg (s.par.sampleCount ch) hcounts.eq_map
    have harea : areaWords m word = words := (logAddresses_map m word).symm.trans hwords.eq_map
    have reduction : flagsMode s.par ch word (modeOfFlags s.par flags) := by
      have h := modeOfFlags_flagsMode hp ch word
      rwa [show (s.par.map ch).binFlags.map word = flags from hflags.eq_map] at h
    have same : exec (.dec ch (modeOfFlags s.par flags) count (areaWords m word)) s =
        exec (.dec ch (modeOfFlags s.par flags) (s.par.sampleCount ch counts) words) s := by rw [hcount, harea]
    refine ⟨List.forall_mem_append.mpr ⟨hflags.isSome, hcounts.isSome⟩, fun j hj => ?_, grows.kept,
      modeOfFlags s.par flags, _, reduction, same.trans (exec_dec_passes hm hc ch words s), ?_, rfl⟩
    · have filled := hwords.isSome _ (mem_logAddresses.mpr ⟨j, hj, rfl⟩)
      rwa [logAddress_toNat fits hj] at filled
    · rw [Res.ok_andThen, Res.finish_ok, State.succeed_res, State.setDec_res, grows.res]
      rfl

end Sys2Proof.Machine
end

section
/-! PROOF of the statements about errors and the warning: how an operation ends for the host, said once for every instruction
(60_exceptions.md R205, R206, R212, R215). -/

namespace Sys2Proof.Machine

variable {s t : State} {r₀ : ResultRegs} {Q : State → Prop}

/-! ### The errors that reach the host (60_exceptions.md R206; 42_transfer_retry.md R154) -/

/-- What no retry wrapper catches is what the taxonomy lets reach the host. -/
theorem Err.status_of_not_retried {e : Err} (h : e.retried = false) :
    e.status = .invalidArgument ∨ e.status = .communicationExhausted ∨ e.status = .configurationError := by
  cases e with
  | invalidArgument w => exact .inl rfl
  | communicationExhausted cause => exact .inr (.inl rfl)
  | configurationError w => exact .inr (.inr rfl)
  | transportError | protocolTimeout | tagRejected => cases h

theorem Err.ofTransfer.not_retried {e : Err} (h : e.ofTransfer) : e.retried = false := by
  cases e with
  | invalidArgument | communicationExhausted => rfl
  | transportError | protocolTimeout | tagRejected | configurationError => cases h

theorem configVerdict_not_retried {mode : BitVec 2} {count : Int} {e : Err} (h : configVerdict mode count = some e) :
    e.retried = false := by
  unfold configVerdict at h
  split at h
  · cases h
    rfl
  · split at h <;> cases h
    rfl

/-! ### How a piece of a host operation ends -/

/-- The piece raises only what reaches the host, the result registers then at `r₀`, and otherwise ends in a state with this
property. -/
def Res.Reports {α : Type} (r₀ : ResultRegs) (Q : State → Prop) : Res α → Prop
  | .ok _ t => Q t
  | .err e t => e.retried = false ∧ t.res = r₀

/-- The piece leaves the result registers at `r₀` however it ends, and raises only what reaches the host. -/
abbrev Res.Quiet {α : Type} (r₀ : ResultRegs) (r : Res α) : Prop := r.Reports r₀ fun t => t.res = r₀

theorem Res.Quiet.andThen {α β : Type} {r : Res α} {f : α → State → Res β} (h : r.Quiet r₀)
    (hf : ∀ v t, t.res = r₀ → (f v t).Reports r₀ Q) : (r.andThen f).Reports r₀ Q := by
  cases r with
  | ok v t => exact hf v t h
  | err e t => exact h

/-- Transport traffic leaves the result registers (42_transfer_retry.md R152). -/
theorem Traffic.quiet {α : Type} {r : Res α} (h : Traffic s r.state) (raises : r.Raises Err.ofTransfer) :
    r.Quiet s.res := by
  cases r with
  | ok v t => exact h.res
  | err e t => exact ⟨raises.not_retried, h.res⟩

theorem transferRd_quiet (B Lb : Word) (h : s.res = r₀) : (transferRd B Lb s).Quiet r₀ :=
  h ▸ (transferRd_traffic B Lb s).quiet (transferRd_raises B Lb s)

theorem transferWr_quiet (B Lb : Word) (data : List Byte) (h : s.res = r₀) : (transferWr B Lb data s).Quiet r₀ :=
  h ▸ (transferWr_traffic B Lb data s).quiet (transferWr_raises B Lb data s)

theorem getWord_quiet (address : Word) (h : s.res = r₀) : (getWord address s).Quiet r₀ := by
  unfold getWord
  split
  · cases s.cached address.toNat with
    | some w => exact h
    | none => exact (transferRd_quiet _ _ h).andThen fun _ _ ht => ht
  · exact ⟨rfl, h⟩

/-- A `SET` writes the result registers in its verdict on the read-back, and nowhere else (43_register_cache.md R167). -/
theorem setWord_reports (address value : Word) (h : s.res = r₀) :
    (setWord address value s).Reports r₀ fun t =>
      ∃ (u : State) (observed : Word), u.res = r₀ ∧ t = u.settleVerify address value observed := by
  unfold setWord
  split
  · refine (transferWr_quiet _ _ _ h).andThen fun _ t ht => ?_
    exact (transferRd_quiet (s := waitMs verifyDelay t) _ _ ht).andThen fun d u hu => ⟨u, firstWord d, hu, rfl⟩
  · exact ⟨rfl, h⟩

theorem prefetchFrom_quiet (turns start : Nat) (h : s.res = r₀) : (prefetchFrom turns start s).Quiet r₀ := by
  induction turns generalizing start s with
  | zero => exact h
  | succ turns ih =>
    unfold prefetchFrom
    split
    · exact (transferRd_quiet _ _ h).andThen fun _ t ht => ih _ ((t.cacheWords_res _ _).trans ht)
    · exact h

theorem getWords_quiet (as : List Word) (h : s.res = r₀) : (getWords as s).Quiet r₀ := by
  induction as generalizing s with
  | nil => exact h
  | cons a as ih => exact (getWord_quiet a h).andThen fun _ _ ht => (ih ht).andThen fun _ _ hu => hu

theorem decodeLog_quiet (ch : Channel) (mode : BitVec 2) (count : Int) (words : List Word) (h : s.res = r₀) :
    (decodeLog ch mode count words s).Quiet r₀ := by
  unfold decodeLog
  split
  · exact ⟨configVerdict_not_retried ‹_›, h⟩
  · exact h

theorem decodeArea_quiet (ch : Channel) (h : s.res = r₀) : (decodeArea ch s).Quiet r₀ := by
  refine (getWords_quiet _ h).andThen fun _ t ht => ?_
  refine (getWords_quiet _ ht).andThen fun _ u hu => ?_
  dsimp only
  split
  · exact ⟨configVerdict_not_retried ‹_›, hu⟩
  · exact (getWords_quiet _ hu).andThen fun _ _ hv => decodeLog_quiet _ _ _ _ hv

theorem domainResult_quiet (v : Option OpResult) (h : s.res = r₀) : (domainResult v s).Quiet r₀ := by
  cases v with
  | none => exact ⟨rfl, h⟩
  | some v => exact h

/-! ### How an instruction ends -/

/-- The warning is clear, or the instruction is a `SET` that read back another word than it wrote, and says which (60_exceptions.md
R212). -/
def WarnsOnlyOfSet (i : Instr) (t : State) : Prop :=
  t.res.warn = true → ∃ address value, i = .set address value ∧ t.res.info ≠ value ∧ t.cached address.toNat = some t.res.info

/-- All an instruction's end can be for the host: the error entry, which a host operation takes only with an error that reaches
the host, the result registers as the operation started with them; or `status` 0, with a warning only of a `SET`. -/
def EndsForHost (i : Instr) (s t : State) : Prop :=
  (∃ (e : Err) (u : State), (hostOp i = true → e.retried = false) ∧ u.res = s.res.start ∧ t = u.raise e) ∨
  (t.res.status = .ok ∧ WarnsOnlyOfSet i t)

variable {i : Instr}

/-- An operation that ends with a value and the result registers as it started with them warns of nothing. -/
theorem endsForHost_succeed (v : Option OpResult) (h : t.res = s.res.start) : EndsForHost i s (t.succeed v) :=
  .inr ⟨rfl, fun hw => by rw [State.succeed_res, h] at hw; cases hw⟩

theorem Res.Quiet.endsForHost {r : Res (Option OpResult)} (hr : r.Quiet s.res.start)
    (h : (.next r.finish : Host.Outcome State Fault Refusal) = .next t) : EndsForHost i s t := by
  cases h
  cases r with
  | ok v u => exact endsForHost_succeed v hr
  | err e u =>
    obtain ⟨reaches, started⟩ := hr
    exact .inl ⟨e, u, fun _ => reaches, started, rfl⟩

/-- A host operation that gives the host the value of a piece which leaves the result registers. -/
theorem Res.Quiet.value_endsForHost {α : Type} {r : Res α} {f : α → State → Option OpResult} (hr : r.Quiet s.res.start)
    (h : (.next (r.andThen fun v s => .ok (f v s) s).finish : Host.Outcome State Fault Refusal) = .next t) :
    EndsForHost i s t :=
  Res.Quiet.endsForHost (hr.andThen (f := fun v s => .ok (f v s) s) fun _ _ hu => hu) h

/-- An internal operation run alone, made of transport traffic: it may end with any error (assumption 14). -/
theorem Traffic.value_endsForHost {α : Type} {r : Res α} {f : α → State → Option OpResult} (hr : Traffic s.begin r.state)
    (internal : hostOp i = false)
    (h : (.next (r.andThen fun v s => .ok (f v s) s).finish : Host.Outcome State Fault Refusal) = .next t) :
    EndsForHost i s t := by
  cases h
  cases r with
  | ok v u => exact endsForHost_succeed _ hr.res
  | err e u => exact .inl ⟨e, u, fun host => absurd (internal.symm.trans host) Bool.false_ne_true, hr.res, rfl⟩

/-- A `SET` that ends with a value and a warning says what it read back, and has cached it (43_register_cache.md R167). -/
theorem settleVerify_warns {address value observed : Word} {v : Option OpResult} (h : t.res = s.res.start) :
    WarnsOnlyOfSet (.set address value) ((t.settleVerify address value observed).succeed v) := by
  intro hw
  rw [State.succeed_res, State.settleVerify_res] at hw
  by_cases verified : observed = value
  · rw [if_pos verified, h] at hw
    cases hw
  · have info : ((t.settleVerify address value observed).succeed v).res.info = observed := by
      rw [State.succeed_res, State.settleVerify_res, if_neg verified]
      rfl
    refine ⟨address, value, rfl, ?_, ?_⟩ <;> rw [info]
    · exact verified
    · exact t.cached_settleVerify_same address value observed

theorem exec_set_endsForHost {address value : Word} (h : exec (.set address value) s = .next t) :
    EndsForHost (.set address value) s t := by
  have hr := setWord_reports (s := s.begin) address value rfl
  rw [exec_set] at h
  cases run : setWord address value s.begin with
  | ok v u =>
    rw [run] at h hr
    obtain ⟨w, observed, started, rfl⟩ := hr
    cases h
    exact .inr ⟨rfl, settleVerify_warns started⟩
  | err e u =>
    rw [run] at h hr
    obtain ⟨reaches, started⟩ := hr
    cases h
    exact .inl ⟨e, u, fun _ => reaches, started, rfl⟩

theorem exec_endsForHost (h : exec i s = .next t) : EndsForHost i s t := by
  cases i with
  | nop =>
    cases h
    exact .inr ⟨rfl, nofun⟩
  | xferRd B Lb => exact (transferRd_quiet B Lb rfl).value_endsForHost h
  | xferWr B Lb data => exact (transferWr_quiet B Lb data rfl).value_endsForHost h
  | get address => exact (getWord_quiet address rfl).value_endsForHost h
  | set address value => exact exec_set_endsForHost h
  | prefetch => exact (prefetchFrom_quiet _ _ rfl).value_endsForHost h
  | declog ch => exact (decodeArea_quiet ch rfl).value_endsForHost h
  | dec ch mode count words => exact (decodeLog_quiet ch mode count words rfl).value_endsForHost h
  | encT value => exact (domainResult_quiet _ rfl).endsForHost h
  | encH value => exact (domainResult_quiet _ rfl).endsForHost h
  | validT value => exact (domainResult_quiet _ rfl).endsForHost h
  | validH value => exact (domainResult_quiet _ rfl).endsForHost h
  | creset | decT | decH | mode =>
    cases h
    exact endsForHost_succeed _ rfl
  | hsRd j a n => exact ((s.begin.latchOp_traffic (.rd a n)).trans (attempt_traffic _)).value_endsForHost rfl h
  | hsWr j a n data => exact ((s.begin.latchOp_traffic (.wr a n data)).trans (attempt_traffic _)).value_endsForHost rfl h
  | rplAck id => exact ((Traffic.setPhase s.begin .p5).trans (afterReply_traffic id ackCode _)).value_endsForHost rfl h
  | rplNack id => exact ((Traffic.setPhase s.begin .p5).trans (afterReply_traffic id nackCode _)).value_endsForHost rfl h
  | chk B Lb => exact (check_traffic B Lb _).value_endsForHost rfl h
  | retry op => exact ((s.begin.latchOp_traffic op).trans (retry_traffic _)).value_endsForHost rfl h

/-! ### The statements -/

/-- Settles O14: an operation without an error says `status` 0, and the error entry of a host operation is taken with an error no
retry wrapper catches. -/
theorem hostSeesOnlyCallerErrors : Obligations.HostSeesOnlyCallerErrors := by
  intro i s t host h
  obtain ⟨e, u, reaches, -, rfl⟩ | ⟨hok, -⟩ := exec_endsForHost h
  · exact .inr (Err.status_of_not_retried (reaches host))
  · exact .inl hok

/-- Settles O15: only the error entry leaves another `status` than 0, and it finds the result registers as the operation started
with them. -/
theorem errorEntry : Obligations.ErrorEntry := by
  intro i s t h failed
  obtain ⟨e, u, -, started, rfl⟩ | ⟨hok, -⟩ := exec_endsForHost h
  · rw [State.raise_res, started]
    exact ⟨rfl, rfl, rfl, rfl⟩
  · exact absurd hok failed

/-- Settles O16: the error entry leaves `warn` as the operation's start cleared it, and of the other ends only a `SET`'s warns. -/
theorem warningOnlyFromSet : Obligations.WarningOnlyFromSet := by
  intro i s t h warned
  obtain ⟨e, u, -, started, rfl⟩ | ⟨hok, warns⟩ := exec_endsForHost h
  · rw [State.raise_res, started] at warned
    cases warned
  · obtain ⟨address, value, hset, differs, filled⟩ := warns warned
    exact ⟨address, value, hset, hok, differs, filled⟩

end Sys2Proof.Machine
end

section
/-! PROOF of the statement about the hardware reset: between operations, in the middle of one, and between P3 and P5 of a READ
attempt. -/

namespace Sys2Proof.Machine

variable {s t u : State} {f : Frame} {rest : List Request}

/-! ### What a reset leaves of the block (70_reset_and_hazards.md R235) -/

/-- The block at its reset values. -/
theorem State.blockReset_of_reset (eng : t.eng = Engine.reset) (cache : t.cache = []) (res : t.res = ResultRegs.reset) :
    t.BlockReset where
  phase := by rw [eng]; rfl
  busy := by rw [res]; rfl
  status := by rw [res]; rfl
  warn := by rw [res]; rfl
  cache a := by rw [State.cached, cache]; rfl

theorem step_reset_blockReset (hport : s.port = .reset :: rest) :
    ∃ t, step s = .next t ∧ t.port = rest ∧ t.BlockReset ∧ t.tag = s.tag ∧ t.env = s.env ∧ t.bus = s.bus ∧ t.log = s.log ∧
      t.par = s.par :=
  ⟨_, step_reset hport, rfl, State.blockReset_of_reset rfl rfl rfl, rfl, rfl, rfl, rfl, rfl⟩

/-! ### A reset in the middle of an operation (R236) -/

/-- An instruction cut off answers a next state, as the instruction run whole does. -/
theorem abandon_next {i : Instr} (hdec : decode s.par f = .ok i) (k : Nat) : ∃ t, abandon f k s = .next t := by
  obtain hnext | ⟨-, -, e, -, herr⟩ := abandon_next_or_command f k s
  · exact hnext
  · rw [hdec] at herr
    cases herr

theorem step_cut_blockReset {k : Nat} {i : Instr} (hport : s.port = .cut f k :: rest) (hbusy : s.res.busy = false)
    (hdec : decode s.par f = .ok i) :
    ∃ t, step s = .next t ∧ t.port = rest ∧ t.BlockReset ∧ t.par = s.par ∧ t.env.taken ≤ s.env.taken + k := by
  obtain ⟨t, hcut⟩ := abandon_next (s := s.setPort rest) hdec k
  obtain ⟨-, -, par, port, -, eng, cache, -, res, -, taken⟩ := abandon_cases hcut
  exact ⟨t, (step_cut hport hbusy).trans hcut, port, State.blockReset_of_reset eng cache res, par, taken⟩

/-- When the cut run makes one call more than the `k` that reach the tag, and logs nothing, that call alone is taken out again. -/
theorem abandon_one_dead {k : Nat} {miss : BusEvent} {bus : List BusEvent} (run : runFrame f (s.cutOff k) = .next u)
    (taken : u.env.taken = s.env.taken + (k + 1)) (hbus : u.bus = miss :: bus) (hlog : u.log = s.log) :
    abandon f k s = .next (hardReset { u with
      env := { script := s.env.script.drop k, taken := s.env.taken + k }
      bus := bus
      log := s.log }) := by
  have dead : u.env.taken - s.env.taken - k = 1 := by omega
  have done : u.env.taken - s.env.taken - 1 = k := by omega
  unfold abandon
  rw [run]
  dsimp only
  rw [dead, done, hbus, hlog, Nat.sub_self, Nat.min_zero]
  rfl

/-! ### Between P3 and P5 of a READ attempt (R236, 41_handshake.md R134 to R136) -/

/-- A READ attempt that a dead transport fails at P5, its fourth call: the tag as P3 left it, three calls before. -/
structure Unpolled (f1 f2 f3 : List TagAction) (s t : State) : Prop where
  tag : t.tag = s.tag.afterReadTrigger s.par s.eng.a s.eng.n f1 f2 f3
  taken : t.env.taken = s.env.taken + 4
  log : t.log = s.log
  bus : ∃ miss bus, t.bus = miss :: bus ∧ busCalls bus = busCalls s.bus + 3

theorem attempt_rd_unpolled {e1 e2 e3 : EnvEvent} {later : List EnvEvent} (k : s.eng.kind = .rd)
    (h : s.env.script = e1 :: e2 :: e3 :: deadEvent :: later)
    (ok1 : e1.ok = true) (ok2 : e2.ok = true) (ok3 : e3.ok = true) :
    ∃ t, attempt s = .err (.transportError .p5) t ∧ Unpolled e1.tag e2.tag e3.tag s t := by
  unfold attempt
  rw [phaseP1_scripted h ok1, Res.ok_andThen, phaseP2_scripted rfl ok2]
  dsimp only [Res.ok_andThen, State.stagedBlock]
  rw [phaseP2B_skipped (by exact k), Res.ok_andThen, phaseP3_scripted rfl ok3]
  dsimp only [Res.ok_andThen]
  rw [phaseP4_ends, Res.ok_andThen, phaseP5_scripted_fails rfl rfl, k]
  exact ⟨_, rfl, rfl, rfl, rfl, _, _, rfl, rfl⟩

/-- The trigger puts a command in flight (R134). -/
theorem afterReadTrigger_pending (p : Params) (a n : Word) (f1 f2 f3 : List TagAction) (t : Tag) :
    (t.afterReadTrigger p a n f1 f2 f3).pending ≠ none :=
  Option.some_ne_none _

/-- An `HS.RD` cut off after its third transaction: what P1, P2 and P3 did stands. -/
theorem abandon_hsRd_triggered {i : BitVec 1} {a n : Word} {e1 e2 e3 : EnvEvent} {later : List EnvEvent}
    (hdec : decode s.par f = .ok (.hsRd i a n)) (hs : s.env.script = e1 :: e2 :: e3 :: later)
    (ok : ∀ e ∈ [e1, e2, e3], e.ok = true) :
    ∃ t, abandon f 3 s = .next t ∧ t.tag = s.tag.afterReadTrigger s.par a n e1.tag e2.tag e3.tag ∧
      t.env = { script := later, taken := s.env.taken + 3 } ∧ busCalls t.bus = busCalls s.bus + 3 ∧ t.log = s.log := by
  simp only [List.forall_mem_cons] at ok
  obtain ⟨ok1, ok2, ok3, -⟩ := ok
  have script : (s.cutOff 3).env.script = [e1, e2, e3, deadEvent, deadEvent, deadEvent] := by
    rw [State.cutOff_script (by simp only [hs, List.length_cons]; omega), hs]
    rfl
  obtain ⟨u, failed, tag, taken, log, miss, bus, hbus, calls⟩ :=
    attempt_rd_unpolled (s := (s.cutOff 3).begin.latchRd a n) rfl script ok1 ok2 ok3
  have run : runFrame f (s.cutOff 3) = .next (u.raise (.transportError .p5)) := by
    rw [runFrame_decoded (by exact hdec), exec_hsRd, failed, attemptEnd_err]
  have left : s.env.script.drop 3 = later := by rw [hs]; rfl
  exact ⟨_, abandon_one_dead run taken hbus log, tag, congrArg (Environment.mk · _) left, calls, rfl⟩

/-- Settles O8, by the three requests: a reset alone, one that cuts an operation off, and one that cuts an `HS.RD` off once its
trigger is read, where P5's read is the first call that does not reach the tag. -/
theorem hardwareReset : Obligations.HardwareReset := by
  refine ⟨fun s rest => step_reset_blockReset, fun s f k rest i => step_cut_blockReset, ?_⟩
  intro s f rest i a n e1 e2 e3 later hport hbusy hdec hs ok
  obtain ⟨t, hcut, tag, others⟩ := abandon_hsRd_triggered (s := s.setPort rest) hdec hs ok
  exact ⟨t, (step_cut hport hbusy).trans hcut, tag, tag ▸ afterReadTrigger_pending _ _ _ _ _ _ _, others⟩

end Sys2Proof.Machine
end
